-- ==== Sys2Proof/Word.lean ====
section
/-! DEFINITION. The widths of HUFFCORE's data (00_scope.md R9, R11, R15; 10_state.md R48). -/

namespace Sys2Proof

/-- A symbol or a buffer byte: "one unsigned 8-bit byte, 0 to 255" (R9). -/
abbrev Byte := BitVec 8

/-- A register, a FREQ entry or a command word: 32 bits (R11, R15). -/
abbrev Word := BitVec 32

/-- One CODE_BITS entry: 256 bits (R48). Code bit `j` is bit `255 - j`, so byte `k` of the entry is
bits `255 - 8k` down to `248 - 8k` and its bit 7 holds code bit `8k`, as R48 numbers them. -/
abbrev CodeEntry := BitVec 256

end Sys2Proof
end

