-- ==== Sys2Proof/Config.lean ====
section
/-! DEFINITION. What an implementation fixes (00_scope.md R10) and the free value of the model
(70_reset_and_hazards.md R350, 10_state.md R54; notes/assumptions/3.md). -/

namespace Sys2Proof.Config

/-- The three capacity parameters, in bytes (R10). No rule fixes them; a state carries them and no step
changes them, so a theorem about every state is a theorem about every choice of them. -/
structure Caps where
  inCap  : Nat
  outCap : Nat
  hdrCap : Nat
  deriving DecidableEq, Repr

/-- The legal ranges of R10. -/
abbrev Caps.Legal (c : Caps) : Prop :=
  (1 ≤ c.inCap ∧ c.inCap ≤ 2 ^ 30) ∧ (1 ≤ c.outCap ∧ c.outCap ≤ 2 ^ 30) ∧
    (1023 ≤ c.hdrCap ∧ c.hdrCap ≤ 2 ^ 30)

/-- DESIGN CHOICE (notes/assumptions/1.md): the capacities `State.reset` carries are those the test vectors
of 95_test_vectors.md use "unless a vector says otherwise". -/
def vectorCaps : Caps := { inCap := 4096, outCap := 4096, hdrCap := 1023 }

/-- The free value a host read takes where the spec lets it return "any value (a draw)": the `k`-th draw of a
run (R54, R350; 92_eei_decisions.md, open parameter "the value of a draw"). It has no body, so nothing can be
proved of it. -/
opaque draw : Nat → Word

end Sys2Proof.Config
end

