-- ==== Sys2Proof/Machine/State.lean ====
section
/-! DEFINITION. Everything HUFFCORE holds between steps (10_state.md R30 to R58), the agenda that says which
agent moves next, the reasons a command ends, and the state after reset (R58). -/

namespace Sys2Proof.Machine

/-- A tree node (00_scope.md R19). Weights are not stored (10_state.md R53). -/
inductive Node where
  /-- One symbol, 1 to 255 bytes. -/
  | leaf (sym : List Byte)
  /-- The placeholder child of the single-symbol tree. -/
  | sentinel
  /-- A node with exactly two children. -/
  | internal (left right : Node)
  deriving DecidableEq, Repr

/-- Who stored the tree (R50): BUILD and COMPRESS, or DESERIALIZE and DECOMPRESS. -/
inductive Origin where
  | built
  | loaded
  deriving DecidableEq, Repr

/-- The sequencer: Idle, or Busy with the command word being run (R30). -/
inductive Seq where
  | idle
  | busy (w : Word)
  deriving DecidableEq, Repr

/-- The error kinds of 30_encoding.md R120, codes 1 to 8 in this order. -/
inductive ErrKind where
  | emptyInput
  | malformedTree
  | truncatedStream
  | corruptTree
  | sequenceError
  | resourceLimit
  | uncodedSymbol
  | illegalCommand
  deriving DecidableEq, Repr

/-- The spec's own model fault (60_exceptions.md R318), kept as a mark in the state: the machine goes on. -/
inductive ModelFault where
  /-- A command read IN byte `i`, which no host write has reached since the last reset. -/
  | uninitRead (i : Nat)
  deriving DecidableEq, Repr

/-- How a command's Exec ends other than by `ok` (40_command_protocol.md R162). -/
inductive Stop where
  /-- `raise E(pos)` (R165). -/
  | err (e : ErrKind) (pos : Nat)
  /-- `fault(F)` (R318). -/
  | fault (f : ModelFault)
  deriving DecidableEq, Repr

/-- A host transaction (20_memory.md R84). A width other than 1 or 4 is a bus error. -/
inductive Txn where
  | read (addr : Word) (width : Nat)
  | write (addr : Word) (width : Nat) (v : Word)
  deriving DecidableEq, Repr

/-- One turn of the total order of R90: a host transaction, a turn given to the sequencer, or the reset
input (70_reset_and_hazards.md R340). -/
inductive Event where
  | host (t : Txn)
  | sequencer
  | reset
  deriving DecidableEq, Repr

/-- A byte buffer: the bytes written since reset, by rising index. An index that is not listed has not been
written, so it reads as no value: this is the `written` bit of R54. -/
abbrev Memory := List Host.Cell

/-- The canonical form: indices strictly rising. (No unlisted index has a value, so no entry can equal one.) -/
abbrev Memory.wf (m : Memory) : Prop := (m.map Prod.fst).Pairwise (· < ·)

/-- The architectural state of R56, the capacities of R33, and the model's own three last fields. -/
@[ext]
structure State where
  /-- IN_CAP, OUT_CAP, HDR_CAP (R33): read-only registers, changed by no step. -/
  caps       : Config.Caps
  /-- The sequencer (R30). -/
  seq        : Seq
  /-- CTRL bit 0, IE (R34). -/
  ctrlIe     : Bool
  /-- CMD (R35). -/
  cmd        : Word
  /-- STATUS bit 1 (R36). -/
  done       : Bool
  /-- STATUS bits 7:4 (R36). -/
  errcode    : BitVec 4
  /-- STATUS bit 8 (R36). -/
  berr       : Bool
  /-- STATUS bit 9 (R36). -/
  busywr     : Bool
  /-- ERRPOS (R38). -/
  errpos     : Word
  /-- IN_LEN (R39). -/
  inLen      : Word
  /-- IN_OFF (R40). -/
  inOff      : Word
  /-- OUT_LEN (R41). -/
  outLen     : Word
  /-- SYMCOUNT (R42). -/
  symcount   : Word
  /-- TREE_LEN (R43). -/
  treeLen    : Word
  /-- NSYM (R44). -/
  nsym       : Word
  /-- PAYLOAD_LEN (R45). -/
  payloadLen : Word
  /-- FREQ (R46). -/
  freq       : Vector Word 256
  /-- CODE_LEN (R47). -/
  codeLen    : Vector Byte 256
  /-- CODE_BITS (R48). -/
  codeBits   : Vector CodeEntry 256
  /-- CODES_VALID (R49). -/
  codesValid : Bool
  /-- TREE (R50). -/
  tree       : Option (Origin × Node)
  /-- IN with its `written` bits (R54), by buffer index. -/
  inbuf      : Memory
  /-- OUT (R54), by buffer index. -/
  outbuf     : Memory
  /-- The model fault mark (R318). -/
  fault      : Option ModelFault
  /-- The model's own: the turns still to come, first one first (R90; notes/assumptions/2.md). -/
  agenda     : List Event
  /-- The model's own: the data of the last host read, zero-extended (notes/assumptions/4.md). -/
  rdata      : Word
  /-- The model's own: how many draws the reads so far have taken (notes/assumptions/3.md). -/
  draws      : Nat
  deriving DecidableEq, Repr

/-- The faults a step can stop with: none. "Every HUFFCORE step is total" (93_implementation_defined.md), and the
spec's model fault is a mark in the state, after which "the hardware keeps running" (R162). -/
inductive Fault where
  deriving DecidableEq, Repr

/-- The refusals a step can answer. -/
inductive Refusal where
  /-- Raised by `exec` for a command that has no meaning yet; no arm raises it. Safe: the machine stops. -/
  | notModelled (mnemonic : String)
  deriving DecidableEq, Repr

/-- The state after power-on of a block with capacities `c` (R58): every field at the value R58 gives; the model's
own fields are empty (notes/assumptions/2.md, 3.md and 4.md). -/
def State.resetOf (c : Config.Caps) : State where
  caps := c
  seq := .idle
  ctrlIe := false
  cmd := 0
  done := false
  errcode := 0
  berr := false
  busywr := false
  errpos := 0
  inLen := 0
  inOff := 0
  outLen := 0
  symcount := 0
  treeLen := 0
  nsym := 0
  payloadLen := 0
  freq := Vector.replicate 256 0
  codeLen := Vector.replicate 256 0
  codeBits := Vector.replicate 256 0
  codesValid := false
  tree := none
  inbuf := []
  outbuf := []
  fault := none
  agenda := []
  rdata := 0
  draws := 0

/-- The machine right after power-on (R58), with the capacities of the test vectors
(notes/assumptions/1.md). -/
def State.reset : State := State.resetOf Config.vectorCaps

end Sys2Proof.Machine
end

