-- ==== Sys2Proof/Syntax.lean ====
section
/-! DEFINITION. The commands of HUFFCORE: one constructor per row of opcode_table.json (30_encoding.md R112).
A command word "has no register fields, immediates or modifiers" (R110), so no constructor has an argument. -/

namespace Sys2Proof

/-- The eleven commands (R112). -/
inductive Instr where
  /-- OPC 0x00 (R168). -/
  | nop
  /-- OPC 0x01 (R290). -/
  | compress
  /-- OPC 0x02 (R295). -/
  | decompress
  /-- OPC 0x03 (R169). -/
  | clear
  /-- OPC 0x10 (R181). -/
  | count
  /-- OPC 0x11 (R191). -/
  | build
  /-- OPC 0x12 (R211). -/
  | derive
  /-- OPC 0x13 (R221). -/
  | serialize
  /-- OPC 0x14 (R235). -/
  | deserialize
  /-- OPC 0x15 (R250). -/
  | pack
  /-- OPC 0x16 (R270). -/
  | unpack
  deriving DecidableEq, Repr

end Sys2Proof
end

