-- ==== Sys2Proof/WellFormed.lean ====
section
/-! DEFINITION. Which terms are meaningful: command words (30_encoding.md R110, R113), instructions, tree nodes
(00_scope.md R19) and the capacities (R10, `Config.Caps.Legal`). -/

namespace Sys2Proof

/-- The OPC values the opcode map of R112 lists. -/
def opcodes : List (BitVec 8) :=
  [0x00, 0x01, 0x02, 0x03, 0x10, 0x11, 0x12, 0x13, 0x14, 0x15, 0x16]

/-- A command word is well formed when RSVD (bits 31:8) is 0 and OPC (bits 7:0) is in the map
(R110, R113). -/
def wellFormedWord (w : Word) : Bool :=
  w.extractLsb' 8 24 == 0 && opcodes.contains (w.extractLsb' 0 8)

/-- An instruction has no operand field, so every one is well formed (R110). Written out constructor by
constructor, so that an instruction with operands could not slip past. -/
def Instr.wellFormed : Instr → Bool
  | .nop => true
  | .compress => true
  | .decompress => true
  | .clear => true
  | .count => true
  | .build => true
  | .derive => true
  | .serialize => true
  | .deserialize => true
  | .pack => true
  | .unpack => true

/-- R19: a leaf's symbol is 1 to 255 bytes long; this is also every node the deserializer makes (R52). -/
def Machine.Node.wellFormed : Machine.Node → Bool
  | .leaf sym => decide (1 ≤ sym.length ∧ sym.length ≤ 255)
  | .sentinel => true
  | .internal l r => l.wellFormed && r.wellFormed

/-- A host transaction has one of the two widths of R84; any other width is a bus error. -/
def Machine.Txn.wellFormed : Machine.Txn → Bool
  | .read _ n => n == 1 || n == 4
  | .write _ n _ => n == 1 || n == 4

end Sys2Proof
end

