-- ==== Sys2Proof/Decode.lean ====
section
/-! DEFINITION. Decoding a command word (30_encoding.md R110 to R113, 40_command_protocol.md R166), total and
rejecting by name, and the encoder written from the same table. -/

namespace Sys2Proof

/-- Why a word is no command; both complete with IllegalCommand (R111, R113). -/
inductive Reject where
  /-- Bits 31:8 are not all zero. -/
  | reservedBitsSet
  /-- OPC is 0x04 to 0x0F or 0x17 to 0xFF. -/
  | reservedOpcode
  deriving DecidableEq, Repr

/-- The opcode map of R112, read from the OPC field. -/
def decodeOpc (opc : BitVec 8) : Option Instr :=
  if opc = 0x00 then some .nop
  else if opc = 0x01 then some .compress
  else if opc = 0x02 then some .decompress
  else if opc = 0x03 then some .clear
  else if opc = 0x10 then some .count
  else if opc = 0x11 then some .build
  else if opc = 0x12 then some .derive
  else if opc = 0x13 then some .serialize
  else if opc = 0x14 then some .deserialize
  else if opc = 0x15 then some .pack
  else if opc = 0x16 then some .unpack
  else none

/-- The decoding of R166: first RSVD, then OPC. -/
def decode (w : Word) : Except Reject Instr :=
  if w.extractLsb' 8 24 ≠ 0 then .error .reservedBitsSet
  else
    match decodeOpc (w.extractLsb' 0 8) with
    | some i => .ok i
    | none => .error .reservedOpcode

/-- The OPC of a command (R112). -/
def opcOf : Instr → BitVec 8
  | .nop => 0x00
  | .compress => 0x01
  | .decompress => 0x02
  | .clear => 0x03
  | .count => 0x10
  | .build => 0x11
  | .derive => 0x12
  | .serialize => 0x13
  | .deserialize => 0x14
  | .pack => 0x15
  | .unpack => 0x16

/-- "The full word is `zext_32(OPC)`" (R112). -/
def encode (i : Instr) : Word := (opcOf i).setWidth 32

/-- The command word whose bits, as the opcode table numbers them, are `w`: a command "is exactly one word"
(R110), and the bits above `nbits` are 0. -/
def tableWord (nbits w : Nat) : Word := BitVec.ofNat 32 (w % 2 ^ nbits)

/-- What the decoder reads from a table row's word; nothing where it refuses. -/
def decodeTableWord (nbits w : Nat) : Option Instr :=
  match decode (tableWord nbits w) with
  | .ok i => some i
  | .error _ => none

end Sys2Proof
end

