-- ==== Sys2Proof/Machine/Flags.lean ====
section
/-! DEFINITION. STATUS, its derived bits and the interrupt output (10_state.md R36, R37, R55) and the error codes
(30_encoding.md R120). Derived bits are computed from the state, never stored (R37). -/

namespace Sys2Proof.Machine

/-- ERRCODE's value for each error kind (R120). -/
def ErrKind.code : ErrKind → BitVec 4
  | .emptyInput => 1
  | .malformedTree => 2
  | .truncatedStream => 3
  | .corruptTree => 4
  | .sequenceError => 5
  | .resourceLimit => 6
  | .uncodedSymbol => 7
  | .illegalCommand => 8

/-- STATUS.BUSY = (seq ≠ Idle) (R56). -/
def State.busy (s : State) : Bool :=
  match s.seq with
  | .idle => false
  | .busy _ => true

/-- STATUS.ERR = (ERRCODE ≠ 0) (R37). -/
def State.err (s : State) : Bool := s.errcode != 0

/-- STATUS.TREE_VALID = (TREE ≠ none) (R37). -/
def State.treeValid (s : State) : Bool := s.tree.isSome

/-- STATUS.TREE_BUILT = (TREE's origin is Built) (R37). -/
def State.treeBuilt (s : State) : Bool :=
  match s.tree with
  | some (.built, _) => true
  | some (.loaded, _) => false
  | none => false

/-- STATUS as the host reads it, from bit 31 down to bit 0 in the order of R36's table. -/
def State.status (s : State) : Word :=
  0#13 ++ BitVec.ofBool s.codesValid ++ BitVec.ofBool s.treeBuilt ++ BitVec.ofBool s.treeValid ++ 0#6 ++
    BitVec.ofBool s.busywr ++ BitVec.ofBool s.berr ++ s.errcode ++ 0#1 ++ BitVec.ofBool s.err ++
    BitVec.ofBool s.done ++ BitVec.ofBool s.busy

/-- A host write of STATUS: writing 1 clears DONE (bit 1), BERR (bit 8) and BUSYWR (bit 9); every other bit is
unaffected (R36). -/
def State.writeStatus (s : State) (v : Word) : State :=
  { s with
    done := s.done && !v.getLsbD 1
    berr := s.berr && !v.getLsbD 8
    busywr := s.busywr && !v.getLsbD 9 }

/-- CTRL as the host reads it: IE in bit 0, the rest 0 (R34). -/
def State.ctrl (s : State) : Word := (BitVec.ofBool s.ctrlIe).setWidth 32

/-- The interrupt output, a level: STATUS.DONE and CTRL.IE (R55, 60_exceptions.md R322). -/
def State.irq (s : State) : Bool := s.done && s.ctrlIe

end Sys2Proof.Machine
end

