-- ==== Sys2Proof/Machine/Ops.lean ====
section
/-! DEFINITION. The named operations: the byte buffers (10_state.md R54), the issue step (40_command_protocol.md
R161), the completion step with its success and error commits (R162, R164, R165), which is the whole of taking an
error on this hardware (60_exceptions.md R320), and reset (70_reset_and_hazards.md R340). -/

namespace Sys2Proof.Machine

/-- The byte at index `i`, if it has been written since reset. -/
def Memory.read (m : Memory) (i : Nat) : Option Byte :=
  match m with
  | [] => none
  | (j, b) :: rest => if i = j then some b else Memory.read rest i

/-- Writes one byte, keeping the list sorted with no index twice. -/
def Memory.write (m : Memory) (i : Nat) (b : Byte) : Memory :=
  match m with
  | [] => [(i, b)]
  | (j, c) :: rest =>
    if i < j then (i, b) :: (j, c) :: rest
    else if i = j then (i, b) :: rest
    else (j, c) :: Memory.write rest i b

/-- Writes the bytes of a string at `base`, `base + 1`, … in ascending order. -/
def Memory.writeBytes (m : Memory) (base : Nat) : List Byte → Memory
  | [] => m
  | b :: bs => Memory.writeBytes (m.write base b) (base + 1) bs

/-- `raise E(pos)` (00_scope.md R18). -/
def raise {α : Type} (e : ErrKind) (pos : Nat) : Except Stop α := .error (.err e pos)

/-- One check of a command rule: go on if `p` holds, else `raise E(pos)`. -/
def ensure (p : Prop) [Decidable p] (e : ErrKind) (pos : Nat) : Except Stop Unit :=
  if p then .ok () else raise e pos

/-- The issue step: the write of CMD while Idle (R161). -/
def issue (w : Word) (s : State) : State :=
  { s with cmd := w, seq := .busy w, done := false, errcode := 0, errpos := 0 }

/-- The end of every completion: the sequencer returns to Idle and DONE is set (R162). -/
def finish (s : State) : State := { s with seq := .idle, done := true }

/-- The error commit: ERRCODE, ERRPOS and, for the five output commands, OUT_LEN (R165). -/
def errCommit (clearsOut : Bool) (e : ErrKind) (pos : Nat) (s : State) : State :=
  { s with
    errcode := e.code
    errpos := BitVec.ofNat 32 pos
    outLen := if clearsOut then 0 else s.outLen }

/-- The completion step of a command whose Exec gave `r` (R162): success commits the working copy (R164), an error
commits the error fields alone (R165), and a model fault sets the mark alone (R318). -/
def complete (clearsOut : Bool) (s : State) (r : Except Stop State) : State :=
  match r with
  | .ok s' => finish { s' with errcode := 0, errpos := 0 }
  | .error (.err e pos) => finish (errCommit clearsOut e pos s)
  | .error (.fault f) => finish { s with fault := some f }

/-- The completion of a word that is no command: IllegalCommand at position 0, "with nothing else changed"
(93_implementation_defined.md U5; 30_encoding.md R111, R166). A word with RSVD ≠ 0 is none of the five output commands
of R165, whatever its low byte (DEDUCED, notes/assumptions/5.md). -/
def illegalCommand (s : State) : State := complete false s (raise .illegalCommand 0)

/-- The reset event (R340): every field as R58 says, but the fault mark, which reset does not clear (R318), the
capacities, and the model's own fields, which are no part of the block. -/
def resetEvent (s : State) : State :=
  { State.resetOf s.caps with fault := s.fault, agenda := s.agenda, rdata := s.rdata, draws := s.draws }

end Sys2Proof.Machine
end

