-- ==== Sys2Proof/Machine/Operands.lean ====
section
/-! DEFINITION. How the commands reach their operands: the input bound (41_frequency_model.md R180), `In(i)`
(20_memory.md R94, 60_exceptions.md R318), bit strings and their packing (00_scope.md R16, R17; 45_bitstream_writer.md
R252), the code table (10_state.md R47 to R49) and the frequency table (R46). -/

namespace Sys2Proof.Machine

/-- The input bound every command that reads IN checks first (R180). -/
def checkInLen (s : State) : Except Stop Unit :=
  ensure (s.inLen.toNat ≤ s.caps.inCap) .resourceLimit 0

/-- `In(i)`: the byte, or the model fault UninitRead where it was never written (R318). -/
def inByte (s : State) (i : Nat) : Except Stop Byte :=
  match s.inbuf.read i with
  | some b => .ok b
  | none => .error (.fault (.uninitRead i))

/-- `In(i), In(i+1), …`, `k` bytes in ascending order. -/
def inBytes (s : State) (i : Nat) : Nat → Except Stop (List Byte)
  | 0 => .ok []
  | k + 1 => do
    let b ← inByte s i
    let rest ← inBytes s (i + 1) k
    .ok (b :: rest)

/-- `ceil8(n) = (n + 7) div 8` (R17). -/
def ceil8 (n : Nat) : Nat := (n + 7) / 8

/-- `BE32(v)`: most significant byte first (R17). -/
def be32 (v : Word) : List Byte :=
  [v.extractLsb' 24 8, v.extractLsb' 16 8, v.extractLsb' 8 8, v.extractLsb' 0 8]

/-- `unBE32` on four bytes (R17). -/
def unBE32 (b0 b1 b2 b3 : Byte) : Word := b0 ++ b1 ++ b2 ++ b3

/-- Bit `j` of a byte in bitstream order: bit 7 comes first (R16). -/
def byteBit (b : Byte) (j : Nat) : Bool := b.getLsbD (7 - j)

/-- The number whose `w` bits, most significant first, are the first `w` of `bits`, zeros where `bits` ends:
`Σ_j bits[j] · 2^(w-1-j)` (R252). -/
def msbNat : Nat → List Bool → Nat
  | 0, _ => 0
  | _ + 1, [] => 0
  | w + 1, b :: bits => b.toNat * 2 ^ w + msbNat w bits

/-- `k` bytes packed most-significant-bit first from `bits` (R252). -/
def packBytes : Nat → List Bool → List Byte
  | 0, _ => []
  | k + 1, bits => BitVec.ofNat 8 (msbNat 8 bits) :: packBytes k (bits.drop 8)

/-- `Packed(bits)`: `ceil8(|bits|)` bytes, the unused low bits of the last one 0 (R252, R140). -/
def packed (bits : List Bool) : List Byte := packBytes (ceil8 bits.length) bits

/-- The CODE_BITS entry of a code: "MSB-first from byte 0 bit 7, rest 0" (R48, R211). -/
def codeEntry (code : List Bool) : CodeEntry := BitVec.ofNat 256 (msbNat 256 code)

/-- Byte `k` of a CODE_BITS entry (20_memory.md R82). -/
def codeByte (e : CodeEntry) (k : Nat) : Byte := e.extractLsb' (248 - 8 * k) 8

/-- FREQ[s] (R46). -/
def freqOf (f : Vector Word 256) (b : Byte) : Word := f[b.toNat]'(b.isLt)

/-- CODE_LEN[s] (R47). -/
def State.lenOf (s : State) (b : Byte) : Nat := (s.codeLen[b.toNat]'(b.isLt)).toNat

/-- CODE_BITS[s] (R48). -/
def State.entryOf (s : State) (b : Byte) : CodeEntry := s.codeBits[b.toNat]'(b.isLt)

/-- `code(s)`: the first CODE_LEN[s] bits of CODE_BITS[s]; bit `j` is bit `7 − (j mod 8)` of byte `j div 8`
(R250, R251). -/
def State.codeOf (s : State) (b : Byte) : List Bool :=
  (List.range (s.lenOf b)).map fun j => byteBit (codeByte (s.entryOf b) (j / 8)) (j % 8)

/-- The 256 symbols in ascending order (00_scope.md R9). -/
def allBytes : List Byte := (List.range 256).map (BitVec.ofNat 8)

/-- The table whose entry for each symbol `b` is `f b`. -/
def tabulate {α : Type} (f : Byte → α) : Vector α 256 := ⟨(allBytes.map f).toArray, by simp [allBytes]⟩

/-- `[ s in 0..255 ascending | FREQ[s] > 0 ]` (42_tree_builder.md R191). -/
def symbolsOf (f : Vector Word 256) : List Byte := allBytes.filter fun b => freqOf f b != 0

/-- CODES_VALID ← 0 with every CODE_LEN entry and every CODE_BITS bit ← 0, in one step (R49). -/
def State.clearCodes (s : State) : State :=
  { s with
    codesValid := false
    codeLen := Vector.replicate 256 0
    codeBits := Vector.replicate 256 0 }

/-- `Out(base + k) <- bytes[k]` for every `k` (00_scope.md R18). -/
def State.writeOut (s : State) (base : Nat) (bytes : List Byte) : State :=
  { s with outbuf := s.outbuf.writeBytes base bytes }

end Sys2Proof.Machine
end

