-- ==== Sys2Proof/Machine/Bus.lean ====
section
/-! DEFINITION. The host's bus transactions (20_memory.md R80 to R88; 10_state.md R31 to R49; the busy window,
70_reset_and_hazards.md R350 to R352). -/

namespace Sys2Proof.Machine

/-- The 16 registers of the register page (R31). -/
inductive Reg where
  | id | version | inCap | outCap | hdrCap | ctrl | cmd | status
  | errpos | inLen | inOff | outLen | symcount | treeLen | nsym | payloadLen
  deriving DecidableEq, Repr

/-- What one legal access reaches (R82). -/
inductive Target where
  | reg (r : Reg)
  | freq (b : Byte)
  | codeLen (b : Byte)
  | codeBits (b : Byte) (k : Nat)
  | inByte (i : Nat)
  | outByte (i : Nat)
  deriving DecidableEq, Repr

/-- The register at word index `i` of the page, i.e. at offset `4·i` (R31). -/
def regAt : Nat → Option Reg
  | 0 => some .id
  | 1 => some .version
  | 2 => some .inCap
  | 3 => some .outCap
  | 4 => some .hdrCap
  | 5 => some .ctrl
  | 6 => some .cmd
  | 7 => some .status
  | 8 => some .errpos
  | 9 => some .inLen
  | 10 => some .inOff
  | 11 => some .outLen
  | 12 => some .symcount
  | 13 => some .treeLen
  | 14 => some .nsym
  | 15 => some .payloadLen
  | _ => none

/-- The target of a 4-byte access: the register page and FREQ, aligned to 4 (R82, R85). -/
def wordTarget (a : Nat) : Option Target :=
  if a % 4 ≠ 0 then none
  else if a < 0x40 then (regAt (a / 4)).map .reg
  else if 0x400 ≤ a ∧ a < 0x800 then some (.freq (BitVec.ofNat 8 ((a - 0x400) / 4)))
  else none

/-- The target of a 1-byte access: CODE_LEN, CODE_BITS, IN and OUT (R82, R86). -/
def byteTarget (c : Config.Caps) (a : Nat) : Option Target :=
  if 0x800 ≤ a ∧ a < 0x900 then some (.codeLen (BitVec.ofNat 8 (a - 0x800)))
  else if 0x2000 ≤ a ∧ a < 0x4000 then
    some (.codeBits (BitVec.ofNat 8 ((a - 0x2000) / 32)) ((a - 0x2000) % 32))
  else if 0x40000000 ≤ a ∧ a < 0x40000000 + c.inCap then some (.inByte (a - 0x40000000))
  else if 0x80000000 ≤ a ∧ a < 0x80000000 + c.outCap then some (.outByte (a - 0x80000000))
  else none

/-- The target of an access of `n` bytes at `addr`; none is a bus error (R84 to R87). -/
def target (c : Config.Caps) (addr : Word) (n : Nat) : Option Target :=
  if n = 4 then wordTarget addr.toNat
  else if n = 1 then byteTarget c addr.toNat
  else none

/-- A bus error: BERR becomes 1 and nothing else changes (R87). -/
def busError (s : State) : State := { s with berr := true }

/-- A register's value (R31 to R45). -/
def State.readReg (s : State) : Reg → Word
  | .id => 0x48554643
  | .version => 0x00000001
  | .inCap => BitVec.ofNat 32 s.caps.inCap
  | .outCap => BitVec.ofNat 32 s.caps.outCap
  | .hdrCap => BitVec.ofNat 32 s.caps.hdrCap
  | .ctrl => s.ctrl
  | .cmd => s.cmd
  | .status => s.status
  | .errpos => s.errpos
  | .inLen => s.inLen
  | .inOff => s.inOff
  | .outLen => s.outLen
  | .symcount => s.symcount
  | .treeLen => s.treeLen
  | .nsym => s.nsym
  | .payloadLen => s.payloadLen

/-- The result state of R350: a read of it while Busy returns any value. -/
def Target.isResult : Target → Bool
  | .reg .errpos | .reg .outLen | .reg .symcount | .reg .treeLen | .reg .nsym | .reg .payloadLen => true
  | .reg .id | .reg .version | .reg .inCap | .reg .outCap | .reg .hdrCap => false
  | .reg .ctrl | .reg .cmd | .reg .status | .reg .inLen | .reg .inOff => false
  | .freq _ | .codeLen _ | .codeBits _ _ | .outByte _ => true
  | .inByte _ => false

/-- The stored value of a target, zero-extended; none for a buffer byte not written since reset, whose contents are
"unspecified" (R54). -/
def State.stored (s : State) : Target → Option Word
  | .reg r => some (s.readReg r)
  | .freq b => some (freqOf s.freq b)
  | .codeLen b => some (BitVec.ofNat 32 (s.lenOf b))
  | .codeBits b k => some ((codeByte (s.entryOf b) k).setWidth 32)
  | .inByte i => (s.inbuf.read i).map (·.setWidth 32)
  | .outByte i => (s.outbuf.read i).map (·.setWidth 32)

/-- A drawn value of an access of `n` bytes: any byte, zero-extended, or any word (R54, R350;
notes/assumptions/3.md). -/
def drawn (n k : Nat) : Word :=
  if n = 1 then ((Config.draw k).setWidth 8).setWidth 32 else Config.draw k

/-- A read that draws: the next draw of the run, and the draw is spent. -/
def State.takeDraw (s : State) (n : Nat) : State := { s with rdata := drawn n s.draws, draws := s.draws + 1 }

/-- `MemRead(addr, n)` (R84 to R88, R350): no effect but the data returned, BERR on a bus error, and the model's count
of draws. -/
def hostRead (addr : Word) (n : Nat) (s : State) : State :=
  match target s.caps addr n with
  | none => { busError s with rdata := 0 }
  | some t =>
    if s.busy && t.isResult then s.takeDraw n
    else
      match s.stored t with
      | some v => { s with rdata := v }
      | none => s.takeDraw n

/-- A write to a command's input: it takes effect while Idle; while Busy it is ignored and sets BUSYWR
(R83, R351). -/
def State.inputWrite (s s' : State) : State := if s.busy then { s with busywr := true } else s'

/-- A host write that reaches register `r` (R31 to R45): RO registers ignore it. -/
def State.writeReg (s : State) (v : Word) : Reg → State
  | .ctrl => { s with ctrlIe := v.getLsbD 0 }
  | .cmd => s.inputWrite (issue v s)
  | .status => s.writeStatus v
  | .inLen => s.inputWrite { s with inLen := v }
  | .inOff => s.inputWrite { s with inOff := v }
  | .id | .version | .inCap | .outCap | .hdrCap => s
  | .errpos | .outLen | .symcount | .treeLen | .nsym | .payloadLen => s

/-- A host write that reaches a target (R83): a byte moves as bits 7:0 of the data (R86). -/
def State.writeTarget (s : State) (v : Word) : Target → State
  | .reg r => s.writeReg v r
  | .freq b => s.inputWrite { s with freq := s.freq.set b.toNat v (b.isLt) }
  | .inByte i => s.inputWrite { s with inbuf := s.inbuf.write i (v.setWidth 8) }
  | .codeLen _ | .codeBits _ _ | .outByte _ => s

/-- `MemWrite(addr, n, v)` (R83 to R88, R351, R352). -/
def hostWrite (addr : Word) (n : Nat) (v : Word) (s : State) : State :=
  match target s.caps addr n with
  | none => busError s
  | some t => s.writeTarget v t

/-- One host transaction, "one step of the host agent" (R88). -/
def hostStep (t : Txn) (s : State) : State :=
  match t with
  | .read addr n => hostRead addr n s
  | .write addr n v => hostWrite addr n v s

end Sys2Proof.Machine
end

