-- ==== Sys2Proof/Machine/Control.lean ====
section
/-! DEFINITION. The two control commands, NOP and CLEAR (40_command_protocol.md R168, R169). -/

namespace Sys2Proof.Machine

/-- NOP: `return ok(S)` (R168). -/
def execNop (s : State) : Host.Outcome State Fault Refusal := .next (complete false s (.ok s))

/-- CLEAR's writes (R169). -/
def clearBody (s : State) : State :=
  { s.clearCodes with
    freq := Vector.replicate 256 0
    tree := none
    outLen := 0
    symcount := 0
    treeLen := 0
    nsym := 0
    payloadLen := 0 }

/-- CLEAR (R169). -/
def execClear (s : State) : Host.Outcome State Fault Refusal := .next (complete false s (.ok (clearBody s)))

end Sys2Proof.Machine
end

