-- ==== Sys2Proof/Machine/CodeTable.lean ====
section
/-! DEFINITION. The CodeTableDeriver and its command DERIVE (43_code_table.md R210, R211). -/

namespace Sys2Proof.Machine

/-- `Walk(n, p)`: the codes of the leaves of `n`, each the path to it from where `p` led (R210). -/
def Node.codes : Node → List Bool → List (Byte × List Bool)
  | .leaf [], _ => []
  | .leaf (b :: _), p => [(b, p)]
  | .sentinel, _ => []
  | .internal l r, p => l.codes (p ++ [false]) ++ r.codes (p ++ [true])

/-- The code a walk found for symbol `b`; the empty string where it found none. On a Built tree no symbol is
found twice (10_state.md R51). -/
def codeFor (codes : List (Byte × List Bool)) (b : Byte) : List Bool := (codes.lookup b).getD []

/-- The CODE_LEN table of a walk's codes: "`|c[s]|`", 0 where there is no code (R211). -/
def lenTable (codes : List (Byte × List Bool)) : Vector Byte 256 :=
  tabulate fun b => BitVec.ofNat 8 (codeFor codes b).length

/-- The CODE_BITS table of a walk's codes, all zeros where there is no code (R211). -/
def entryTable (codes : List (Byte × List Bool)) : Vector CodeEntry 256 :=
  tabulate fun b => codeEntry (codeFor codes b)

/-- CODE_LEN, CODE_BITS and CODES_VALID from a walk's codes (R211). -/
def State.setCodes (s : State) (codes : List (Byte × List Bool)) : State :=
  { s with codesValid := true, codeLen := lenTable codes, codeBits := entryTable codes }

/-- DERIVE's rule (R211): a Built tree is its prerequisite. -/
def deriveBody (s : State) : Except Stop State :=
  match s.tree with
  | some (.built, t) => .ok (s.setCodes (t.codes []))
  | some (.loaded, _) => raise .sequenceError 0
  | none => raise .sequenceError 0

/-- DERIVE (R211). -/
def execDerive (s : State) : Host.Outcome State Fault Refusal := .next (complete false s (deriveBody s))

end Sys2Proof.Machine
end

