-- ==== Sys2Proof/Machine/Decoder.lean ====
section
/-! DEFINITION. The BitstreamDecoder and its command UNPACK (46_bitstream_decoder.md R270 to R277). -/

namespace Sys2Proof.Machine

/-- One byte of the count field (R271). -/
def countByte (s : State) (p : Nat) : Except Stop Byte := do
  ensure (p < s.inLen.toNat) .truncatedStream p
  inByte s p

/-- `ReadCount(q)` (R271). -/
def readCount (s : State) (q : Nat) : Except Stop Word := do
  let c0 ← countByte s q
  let c1 ← countByte s (q + 1)
  let c2 ← countByte s (q + 2)
  let c3 ← countByte s (q + 3)
  .ok (unBE32 c0 c1 c2 c3)

/-- The node a bit selects: 0 the left child, 1 the right; no child where the node is not Internal (R272). -/
def Node.child : Node → Bool → Option Node
  | .internal l r, bit => some (if bit then r else l)
  | .leaf _, _ => none
  | .sentinel, _ => none

/-- The loop of `Walk(root, n, p0)` (R272) from cursor `cur`, bit counter `b`, `emitted` symbols and `len` output
bytes so far: the bytes the rest of the loop emits, and the final bit counter. The first numeral bounds the bits that
may still be read; `walkTree` gives every bit there is, so the case 0 is never met (R278). -/
def walkFrom (s : State) (root : Node) (n p0 : Nat) : Nat → Node → Nat → Nat → Nat → Except Stop (List Byte × Nat)
  | 0, _, b, emitted, _ => if emitted = n then .ok ([], b) else raise .truncatedStream (p0 + b / 8)
  | fuel + 1, cur, b, emitted, len =>
    if emitted = n then .ok ([], b)
    else do
      ensure (p0 + b / 8 < s.inLen.toNat) .truncatedStream (p0 + b / 8)
      let byte ← inByte s (p0 + b / 8)
      match cur.child (byteBit byte (b % 8)) with
      | none => raise .corruptTree (p0 + b / 8)
      | some .sentinel => raise .corruptTree (p0 + b / 8)
      | some (.internal l r) => walkFrom s root n p0 fuel (.internal l r) (b + 1) emitted len
      | some (.leaf sym) => do
        ensure (len + sym.length ≤ s.caps.outCap) .resourceLimit 0
        let (out, last) ← walkFrom s root n p0 fuel root (b + 1) (emitted + 1) (len + sym.length)
        .ok (sym ++ out, last)

/-- `Walk(root, n, p0)` (R272): "bits run out after 8 · (IN_LEN − p0) reads" (R278). -/
def walkTree (s : State) (root : Node) (n p0 : Nat) : Except Stop (List Byte × Nat) :=
  walkFrom s root n p0 (8 * (s.inLen.toNat - p0)) root 0 0 0

/-- UNPACK's rule without the input bound, as DECOMPRESS runs it (R270; 47_entry_points.md R295). -/
def unpackBody (s : State) : Except Stop State :=
  match s.tree with
  | none => raise .sequenceError 0
  | some (_, root) => do
    let q := s.inOff.toNat
    let n ← readCount s q
    let (out, b) ← walkTree s root n.toNat (q + 4)
    .ok { s.writeOut 0 out with
          outLen := BitVec.ofNat 32 out.length
          symcount := n
          payloadLen := BitVec.ofNat 32 (ceil8 b)
          inOff := BitVec.ofNat 32 (q + 4 + ceil8 b) }

/-- UNPACK (R270). -/
def execUnpack (s : State) : Host.Outcome State Fault Refusal :=
  .next (complete true s (do checkInLen s; unpackBody s))

end Sys2Proof.Machine
end

