-- ==== Sys2Proof/Machine/Frequency.lean ====
section
/-! DEFINITION. The FrequencyModel and its command COUNT (41_frequency_model.md R180, R181). -/

namespace Sys2Proof.Machine

/-- The frequency table of a byte string: entry `s` is how often `s` occurs, stored in 32 bits (R181). -/
def countTable (bytes : List Byte) : Vector Word 256 :=
  tabulate fun b => BitVec.ofNat 32 (bytes.count b)

/-- FREQ ← f, NSYM ← #{ s | f[s] > 0 } (R181). -/
def State.setFreq (s : State) (f : Vector Word 256) : State :=
  { s with freq := f, nsym := BitVec.ofNat 32 (symbolsOf f).length }

/-- COUNT's rule without the input bound, as COMPRESS runs it (47_entry_points.md R290). -/
def countBody (s : State) : Except Stop State := do
  let bytes ← inBytes s 0 s.inLen.toNat
  .ok (s.setFreq (countTable bytes))

/-- COUNT (R181). -/
def execCount (s : State) : Host.Outcome State Fault Refusal :=
  .next (complete false s (do checkInLen s; countBody s))

end Sys2Proof.Machine
end

