-- ==== Sys2Proof/Machine/TreeCodec.lean ====
section
/-! DEFINITION. The TreeCodec and its commands SERIALIZE and DESERIALIZE (44_tree_codec.md R220 to R235;
30_encoding.md R130 to R133). -/

namespace Sys2Proof.Machine

/-- `Ser(n)`: preorder, a tag byte, then the subtrees or the length byte and the symbol (R220). -/
def Node.ser : Node → List Byte
  | .internal l r => 0x01 :: (l.ser ++ r.ser)
  | .leaf sym => 0x00 :: BitVec.ofNat 8 sym.length :: sym
  | .sentinel => [0x00, 0x00]

/-- `hlen(n)` (R223). -/
def Node.hlen : Node → Nat
  | .internal l r => 1 + l.hlen + r.hlen
  | .leaf sym => 2 + sym.length
  | .sentinel => 2

/-- The number of Leaf nodes, repeats counted and Sentinels not (10_state.md R44). -/
def Node.leafCount : Node → Nat
  | .internal l r => l.leafCount + r.leafCount
  | .leaf _ => 1
  | .sentinel => 0

/-- SERIALIZE's rule (R221). -/
def serializeBody (s : State) : Except Stop State :=
  match s.tree with
  | none => raise .sequenceError 0
  | some (_, t) => do
    ensure (t.ser.length ≤ s.caps.outCap) .resourceLimit 0
    .ok { s.writeOut 0 t.ser with outLen := BitVec.ofNat 32 t.ser.length }

/-- SERIALIZE (R221). -/
def execSerialize (s : State) : Host.Outcome State Fault Refusal := .next (complete true s (serializeBody s))

/-- `Get(p)`: the header byte at `p`, first the end of the input, then the header bound (R230, R234). -/
def hdrByte (s : State) (base p : Nat) : Except Stop Byte := do
  ensure (p < s.inLen.toNat) .malformedTree p
  ensure (p - base + 1 ≤ s.caps.hdrCap) .resourceLimit p
  inByte s p

/-- `k` header bytes from `p` up, in ascending order (R230). -/
def hdrBytes (s : State) (base p : Nat) : Nat → Except Stop (List Byte)
  | 0 => .ok []
  | k + 1 => do
    let b ← hdrByte s base p
    let rest ← hdrBytes s base (p + 1) k
    .ok (b :: rest)

/-- A leaf encoding's node: L = 0 is the Sentinel (R233), L ≥ 1 a Leaf with all its bytes (R232). -/
def leafOf (sym : List Byte) : Node :=
  match sym with
  | [] => .sentinel
  | b :: bs => .leaf (b :: bs)

/-- `Node(p)` (R230), to a recursion depth below the first argument. "The recursion depth is at most the number of
nodes, which is at most HDR_CAP" (R230), so `parseTree` never meets the case 0 (Laws/TreeCodec.lean). -/
def parseNode (s : State) (base : Nat) : Nat → Nat → Except Stop (Node × Nat)
  | 0, p => raise .resourceLimit p
  | depth + 1, p => do
    let t ← hdrByte s base p
    if t = 0x01 then do
      let (l, p1) ← parseNode s base depth (p + 1)
      let (r, p2) ← parseNode s base depth p1
      .ok (.internal l r, p2)
    else if t = 0x00 then do
      let len ← hdrByte s base (p + 1)
      let sym ← hdrBytes s base (p + 2) len.toNat
      .ok (leafOf sym, p + 2 + len.toNat)
    else raise .malformedTree p

/-- `Parse(base)` (R230). -/
def parseTree (s : State) (base : Nat) : Except Stop (Node × Nat) := parseNode s base (s.caps.hdrCap + 1) base

/-- What every command that stores a tree does with it: TREE, TREE_LEN and NSYM, the code table cleared
(10_state.md R43, R44, R49, R50). -/
def State.setTree (s : State) (o : Origin) (t : Node) (len count : Nat) : State :=
  { s.clearCodes with
    tree := some (o, t)
    treeLen := BitVec.ofNat 32 len
    nsym := BitVec.ofNat 32 count }

/-- DESERIALIZE's rule without the input bound, as DECOMPRESS runs it (R235; 47_entry_points.md R295). -/
def deserializeBody (s : State) : Except Stop State := do
  let base := s.inOff.toNat
  let (t, p) ← parseTree s base
  .ok { s.setTree .loaded t (p - base) t.leafCount with inOff := BitVec.ofNat 32 p }

/-- DESERIALIZE (R235). -/
def execDeserialize (s : State) : Host.Outcome State Fault Refusal :=
  .next (complete false s (do checkInLen s; deserializeBody s))

end Sys2Proof.Machine
end

