-- ==== Sys2Proof/Machine/TreeBuilder.lean ====
section
/-! DEFINITION. The TreeBuilder and its command BUILD (42_tree_builder.md R190 to R193). -/

namespace Sys2Proof.Machine

/-- A queue entry `(node, w, m)`: a node, its weight and its minimal contained symbol (R190). Weights are exact
natural numbers (00_scope.md R12). -/
structure QEntry where
  node   : Node
  weight : Nat
  minsym : Byte
  deriving DecidableEq, Repr

/-- The queue's order: weight ascending, then minimal contained symbol ascending, unsigned (R190). -/
def QEntry.before (a b : QEntry) : Bool :=
  decide (a.weight < b.weight) || (a.weight == b.weight && decide (a.minsym < b.minsym))

/-- The first entry of a queue in the order of R190, and the queue without it. -/
def popFirst (e : QEntry) : List QEntry → QEntry × List QEntry
  | [] => (e, [])
  | x :: xs =>
    let (m, rest) := popFirst x xs
    if e.before m then (e, m :: rest) else (m, e :: rest)

/-- The entry that replaces `a`, dequeued first, and `b`, dequeued second: `a` is the left child (R192). -/
def QEntry.join (a b : QEntry) : QEntry :=
  { node := .internal a.node b.node
    weight := a.weight + b.weight
    minsym := if b.minsym < a.minsym then b.minsym else a.minsym }

/-- The loop of R192 on the queue `e :: q`, for at most `k` merges; `|q|` merges leave one entry. -/
def mergeLoop : Nat → QEntry → List QEntry → Node
  | 0, e, _ => e.node
  | k + 1, e, q =>
    match popFirst e q with
    | (a, []) => a.node
    | (a, x :: xs) =>
      let (b, rest) := popFirst x xs
      mergeLoop k (a.join b) rest

/-- The queue entry of one symbol: "insert one Leaf per symbol" (R192). -/
def leafEntry (f : Vector Word 256) (b : Byte) : QEntry :=
  { node := .leaf [b], weight := (freqOf f b).toNat, minsym := b }

/-- The tree of a non-empty symbol list `b :: bs` (R191): Wrap for one symbol (R193), else Merge (R192). -/
def buildTree (f : Vector Word 256) (b : Byte) (bs : List Byte) : Node :=
  match bs with
  | [] => .internal (.leaf [b]) .sentinel
  | _ :: _ => mergeLoop bs.length (leafEntry f b) (bs.map (leafEntry f))

/-- BUILD's rule (R191). -/
def buildBody (s : State) : Except Stop State :=
  match symbolsOf s.freq with
  | [] => raise .emptyInput 0
  | b :: bs =>
    let t := buildTree s.freq b bs
    .ok (s.setTree .built t t.hlen (b :: bs).length)

/-- BUILD (R191). -/
def execBuild (s : State) : Host.Outcome State Fault Refusal := .next (complete false s (buildBody s))

end Sys2Proof.Machine
end

