-- ==== Sys2Proof/Machine/Writer.lean ====
section
/-! DEFINITION. The BitstreamWriter and its command PACK (45_bitstream_writer.md R250 to R252). -/

namespace Sys2Proof.Machine

/-- The loop of R250 over the `k` input bytes from `i` up, with `len` bits gathered so far and the payload placed at
`o + 4`: the bits those bytes add. -/
def packBits (s : State) (o : Nat) : Nat → Nat → Nat → Except Stop (List Bool)
  | 0, _, _ => .ok []
  | k + 1, i, len => do
    let b ← inByte s i
    ensure (s.lenOf b ≠ 0) .uncodedSymbol i
    ensure (o + 4 + ceil8 (len + s.lenOf b) ≤ s.caps.outCap) .resourceLimit 0
    let rest ← packBits s o k (i + 1) (len + s.lenOf b)
    .ok (s.codeOf b ++ rest)

/-- PACK's rule without the input bound, as COMPRESS runs it (R250; 47_entry_points.md R290). -/
def packBody (s : State) : Except Stop State := do
  ensure (s.codesValid = true) .sequenceError 0
  let o := s.outLen.toNat
  ensure (o + 4 ≤ s.caps.outCap) .resourceLimit 0
  let bits ← packBits s o s.inLen.toNat 0 0
  let p := packed bits
  .ok { s.writeOut o (be32 s.inLen ++ p) with
        outLen := BitVec.ofNat 32 (o + 4 + p.length)
        symcount := s.inLen
        payloadLen := BitVec.ofNat 32 p.length }

/-- PACK (R250). -/
def execPack (s : State) : Host.Outcome State Fault Refusal :=
  .next (complete true s (do checkInLen s; packBody s))

end Sys2Proof.Machine
end

