-- ==== Sys2Proof/Machine/EntryPoints.lean ====
section
/-! DEFINITION. The entry points COMPRESS and DECOMPRESS (47_entry_points.md R290, R295): the sub-commands' bodies in
order on one working copy. -/

namespace Sys2Proof.Machine

/-- COMPRESS's rule (R290). -/
def compressRule (s : State) : Except Stop State := do
  checkInLen s
  ensure (s.inLen ≠ 0) .emptyInput 0
  let counted ← countBody s
  let built ← buildBody counted
  let coded ← deriveBody built
  let headed ← serializeBody { coded with outLen := 0 }
  packBody headed

/-- COMPRESS (R290). -/
def execCompress (s : State) : Host.Outcome State Fault Refusal := .next (complete true s (compressRule s))

/-- DECOMPRESS's rule (R295). -/
def decompressRule (s : State) : Except Stop State := do
  checkInLen s
  let loaded ← deserializeBody { s with inOff := 0 }
  unpackBody loaded

/-- DECOMPRESS (R295). -/
def execDecompress (s : State) : Host.Outcome State Fault Refusal := .next (complete true s (decompressRule s))

end Sys2Proof.Machine
end

