-- ==== Sys2Proof/Machine/Sequencer.lean ====
section
/-! DEFINITION. The sequencer's turn (10_state.md R30; 40_command_protocol.md R162, R166) and one turn of the total
order of 20_memory.md R90. -/

namespace Sys2Proof.Machine

/-- The completion of word `w`: it "is decoded at its completion step" (R111); a word that is no command completes with
IllegalCommand. -/
def runWord (w : Word) (s : State) : Host.Outcome State Fault Refusal :=
  match decode w with
  | .ok i => exec i s
  | .error _ => .next (illegalCommand s)

/-- The sequencer's only step, "enabled exactly when seq = Busy(w)" (R162); an Idle sequencer does nothing
(60_exceptions.md R328). -/
def sequencerTurn (s : State) : Host.Outcome State Fault Refusal :=
  match s.seq with
  | .idle => .next s
  | .busy w => runWord w s

/-- One turn of an agent. -/
def turn (e : Event) (s : State) : Host.Outcome State Fault Refusal :=
  match e with
  | .host t => .next (hostStep t s)
  | .sequencer => sequencerTurn s
  | .reset => .next (resetEvent s)

/-- The next turn of the total order: the first one of the agenda, or, when nothing more comes from outside, the
sequencer's (70_reset_and_hazards.md R360: "a Busy sequencer eventually completes"). -/
def nextTurn (s : State) : Host.Outcome State Fault Refusal :=
  match s.agenda with
  | [] => sequencerTurn s
  | e :: rest => turn e { s with agenda := rest }

/-- `s` with word `w` issued (R161) and the sequencer's turn next: HUFFCORE fetches nothing from memory, and "the
command word in `Busy(w)` takes the place of a current instruction" (R30; notes/assumptions/6.md). -/
def withIssued (s : State) (w : Word) : State := { issue w s with agenda := .sequencer :: s.agenda }

end Sys2Proof.Machine
end

