-- ==== Sys2Proof/Machine/Step.lean ====
section
/-! DEFINITION. One step of the machine: one turn of the total order of host transactions, issue steps, completion steps
and resets (20_memory.md R90, 70_reset_and_hazards.md R340). -/

namespace Sys2Proof.Machine

/-- One step. -/
def step (s : State) : Host.Outcome State Fault Refusal := nextTurn s

/-- `s` about to run the command whose table word is `w`, of `nbits` bits. -/
def State.withFetchWord (s : State) (nbits w : Nat) : State := withIssued s (tableWord nbits w)

end Sys2Proof.Machine
end

