-- ==== Sys2Proof/Safety.lean ====
section
/-! DEFINITION. What counts as a safe run, the invariants every step keeps, and the terms the claims are stated in. -/

namespace Sys2Proof.Machine

/-- "A proof about a run holds only if `fault` stays none" (60_exceptions.md R318). -/
abbrev State.safe (s : State) : Prop := s.fault = none

/-! ## How a command ends (40_command_protocol.md R162, R164, R165; 60_exceptions.md R318) -/

/-- A completion with success, before the command's own writes (R164). -/
def State.completed (s : State) : State := { s with seq := .idle, done := true, errcode := 0, errpos := 0 }

/-- A completion with error `e` at position `pos`, for a command that is no output command (R165). -/
def State.failed (s : State) (e : ErrKind) (pos : Nat) : State :=
  { s with seq := .idle, done := true, errcode := e.code, errpos := BitVec.ofNat 32 pos }

/-- The same for the five output commands: OUT_LEN ← 0 as well (R165). -/
def State.failedOut (s : State) (e : ErrKind) (pos : Nat) : State := { s.failed e pos with outLen := 0 }

/-- A completion with the model fault UninitRead at IN byte `i` (R318). -/
def State.faulted (s : State) (i : Nat) : State :=
  { s with seq := .idle, done := true, fault := some (.uninitRead i) }

/-- Every piece of state but the fault mark and the capacities has its reset value (10_state.md R58). -/
def State.Emptied (t : State) : Prop :=
  t.seq = .idle ∧ t.ctrlIe = false ∧ t.cmd = 0 ∧ t.status = 0 ∧ t.done = false ∧ t.errcode = 0 ∧ t.berr = false ∧
    t.busywr = false ∧ t.errpos = 0 ∧ t.inLen = 0 ∧ t.inOff = 0 ∧ t.outLen = 0 ∧ t.symcount = 0 ∧ t.treeLen = 0 ∧
    t.nsym = 0 ∧ t.payloadLen = 0 ∧ (∀ b, freqOf t.freq b = 0 ∧ t.lenOf b = 0 ∧ t.entryOf b = 0) ∧
    t.codesValid = false ∧ t.tree = none ∧ (∀ i, t.inbuf.read i = none) ∧ (∀ i, t.outbuf.read i = none) ∧
    t.irq = false

/-- The output commands of R165. -/
def isOutput : Instr → Bool
  | .compress => true
  | .decompress => true
  | .serialize => true
  | .pack => true
  | .unpack => true
  | .nop => false
  | .clear => false
  | .count => false
  | .build => false
  | .derive => false
  | .deserialize => false

/-! ## What a buffer holds -/

/-- The buffer holds the byte string at `base`: "`[b0, b1, ...]` is a byte string" (00_scope.md R17). -/
def HoldsAt (m : Memory) (base : Nat) (bytes : List Byte) : Prop :=
  ∀ k b, bytes[k]? = some b → m.read (base + k) = some b

/-- From buffer index `p0` on, the buffer holds these bits, in the order of 00_scope.md R16. -/
def HasBits (m : Memory) (p0 : Nat) (bits : List Bool) : Prop :=
  ∀ j b, bits[j]? = some b → ∃ byte, m.read (p0 + j / 8) = some byte ∧ byteBit byte (j % 8) = b

/-- The command's input is `bytes`: IN[0 .. IN_LEN − 1], within IN_CAP and all written (10_state.md R39,
70_reset_and_hazards.md R343). -/
def State.HasInput (s : State) (bytes : List Byte) : Prop :=
  s.inLen.toNat = bytes.length ∧ bytes.length ≤ s.caps.inCap ∧ HoldsAt s.inbuf 0 bytes

/-! ## Trees, paths and codes -/

/-- The node a path leads to from the root: 0 to the left child, 1 to the right (43_code_table.md R210). -/
def Node.follow (n : Node) : List Bool → Option Node
  | [] => some n
  | b :: p =>
    match n.child b with
    | some m => m.follow p
    | none => none

/-- The symbols of the Leaf nodes in preorder, left before right: `leaves(n)` of 00_scope.md R19. -/
def Node.leaves : Node → List (List Byte)
  | .leaf sym => [sym]
  | .sentinel => []
  | .internal l r => l.leaves ++ r.leaves

/-- The number of Internal nodes. -/
def Node.internals : Node → Nat
  | .leaf _ => 0
  | .sentinel => 0
  | .internal l r => 1 + l.internals + r.internals

/-- Every leaf holds one byte and there is no Sentinel. -/
def Node.plain : Node → Bool
  | .leaf sym => sym.length == 1
  | .sentinel => false
  | .internal l r => l.plain && r.plain

/-- The shape of a Built tree (10_state.md R51): the single-symbol wrapper, or two or more one-byte leaves with no
symbol twice and no Sentinel. -/
def Node.builtShape (t : Node) : Prop :=
  (∃ b, t = .internal (.leaf [b]) .sentinel) ∨
    (t.plain = true ∧ 2 ≤ t.leaves.length ∧ t.leaves.Nodup)

/-- The queue loop of 42_tree_builder.md R192 as a relation: `a` comes before every other entry, `b` before every
one but `a`, and they are replaced by their join. -/
inductive MergesTo : List QEntry → Node → Prop
  | one (e : QEntry) : MergesTo [e] e.node
  | merge (q rest : List QEntry) (a b : QEntry) (t : Node)
      (perm : q.Perm (a :: b :: rest))
      (first : ∀ x ∈ b :: rest, a.before x = true)
      (second : ∀ x ∈ rest, b.before x = true)
      (loop : MergesTo (a.join b :: rest) t) : MergesTo q t

/-- Each path leads from the root to a Leaf with the symbol beside it; the walk reads at least one bit for a symbol
(46_bitstream_decoder.md R272). -/
def Spells (root : Node) (paths : List (List Bool)) (syms : List (List Byte)) : Prop :=
  List.Forall₂ (fun p sym => p ≠ [] ∧ root.follow p = some (.leaf sym)) paths syms

/-- The cursor may stand at `m` after the bits `part` since the last symbol: at the root, or at an Internal node
(46_bitstream_decoder.md R274: "Walk never stays on a Leaf"). -/
def CursorAt (root : Node) (part : List Bool) (m : Node) : Prop :=
  root.follow part = some m ∧ (part = [] ∨ ∃ l r, m = .internal l r)

/-- The tree BUILD makes for the symbols of a table, in the terms of 42_tree_builder.md R191 to R193. -/
def TreeOf (f : Vector Word 256) (t : Node) : Prop :=
  (∃ b, symbolsOf f = [b] ∧ t = .internal (.leaf [b]) .sentinel) ∨
    (2 ≤ (symbolsOf f).length ∧ MergesTo ((symbolsOf f).map (leafEntry f)) t)

/-- The offsets in `Ser(n)` at which a node's encoding begins, i.e. of its tag bytes (44_tree_codec.md R231). -/
def Node.tagOffsets : Node → List Nat
  | .leaf _ => [0]
  | .sentinel => [0]
  | .internal l r => 0 :: (l.tagOffsets.map (1 + ·) ++ r.tagOffsets.map (1 + l.hlen + ·))

/-- The artifact of a byte string (30_encoding.md R143): `Ser(t) ++ BE32(n) ++ Packed(bits)`, where `t` is the tree of
its frequencies and `bits` the codes of its bytes in input order. -/
def artifactOf (t : Node) (bytes : List Byte) : List Byte :=
  t.ser ++ be32 (BitVec.ofNat 32 bytes.length) ++ packed (bytes.flatMap (codeFor (t.codes [])))

/-! ## Where a command stands in its input (44_tree_codec.md R230, 46_bitstream_decoder.md R271, R272) -/

/-- A parse begun at `base` next needs the header byte at `k`: IN holds, from `base` up to `k`, the beginning of a
serialized node that goes on there, within the input and HDR_CAP (R230, R234). -/
def State.AtHeaderByte (s : State) (base k : Nat) : Prop :=
  ∃ (t : Node) (bs : List Byte), t.wellFormed = true ∧ bs <+: t.ser ∧ bs.length < t.ser.length ∧
    HoldsAt s.inbuf base bs ∧ bs.length ≤ s.caps.hdrCap ∧ (bs = [] ∨ base + bs.length ≤ s.inLen.toNat) ∧
    k = base + bs.length

/-- IN holds `Ser(t)` from IN[0], within the input and HDR_CAP: the header DECOMPRESS parses (47_entry_points.md R295). -/
def State.HasHeader (s : State) (t : Node) : Prop :=
  t.wellFormed = true ∧ t.ser.length ≤ s.caps.hdrCap ∧ HoldsAt s.inbuf 0 t.ser ∧ t.ser.length ≤ s.inLen.toNat

/-- From `q` on, IN holds within the input a count of more than `|paths|` symbols and then bits that begin with those
paths of `t` to leaves, whose symbols fit in OUT, and go on with `bits` (R271, R272). -/
def State.StreamBegins (s : State) (t : Node) (q : Nat) (paths : List (List Bool)) (syms : List (List Byte))
    (bits : List Bool) : Prop :=
  (∃ n : Word, HoldsAt s.inbuf q (be32 n) ∧ paths.length < n.toNat) ∧ Spells t paths syms ∧
    syms.flatten.length ≤ s.caps.outCap ∧ HasBits s.inbuf (q + 4) (paths.flatten ++ bits) ∧
    q + 4 + ceil8 (paths.flatten ++ bits).length ≤ s.inLen.toNat

/-- The reading of a count and a payload from `q` next needs the byte at `k`: fewer than 4 bytes of the count are read
(R271), or the cursor stands in `t`, with the declared count not reached, after a whole number of payload bytes (R272). -/
def State.AtStreamByte (s : State) (t : Node) (q k : Nat) : Prop :=
  (∃ bs : List Byte, bs.length < 4 ∧ HoldsAt s.inbuf q bs ∧ (bs = [] ∨ q + bs.length ≤ s.inLen.toNat) ∧
      k = q + bs.length) ∨
    ∃ (paths : List (List Bool)) (syms : List (List Byte)) (part : List Bool) (m : Node) (j : Nat),
      s.StreamBegins t q paths syms part ∧ CursorAt t part m ∧ (paths.flatten ++ part).length = 8 * j ∧ k = q + 4 + j

/-! ## The host's accesses (20_memory.md R82, R84 to R86) -/

/-- The accesses that are no bus error: a 4-byte aligned access to the register page or FREQ, or a 1-byte access to
CODE_LEN, CODE_BITS, IN or OUT. -/
def LegalAccess (c : Config.Caps) (addr : Word) (n : Nat) : Prop :=
  (n = 4 ∧ addr.toNat % 4 = 0 ∧ (addr.toNat < 0x40 ∨ (0x400 ≤ addr.toNat ∧ addr.toNat < 0x800))) ∨
    (n = 1 ∧ ((0x800 ≤ addr.toNat ∧ addr.toNat < 0x900) ∨ (0x2000 ≤ addr.toNat ∧ addr.toNat < 0x4000) ∨
      (0x40000000 ≤ addr.toNat ∧ addr.toNat < 0x40000000 + c.inCap) ∨
      (0x80000000 ≤ addr.toNat ∧ addr.toNat < 0x80000000 + c.outCap)))

/-- The addresses of the result state of 70_reset_and_hazards.md R350: ERRPOS, OUT_LEN, SYMCOUNT, TREE_LEN, NSYM,
PAYLOAD_LEN, FREQ, CODE_LEN, CODE_BITS and OUT. -/
def ResultAddr (addr : Word) : Prop :=
  addr = 0x20 ∨ addr = 0x2C ∨ addr = 0x30 ∨ addr = 0x34 ∨ addr = 0x38 ∨ addr = 0x3C ∨
    (0x400 ≤ addr.toNat ∧ addr.toNat < 0x40000000) ∨ 0x80000000 ≤ addr.toNat

/-- The offsets of the read-only registers (10_state.md R31). -/
def ReadOnlyReg (addr : Word) : Prop :=
  addr ∈ [0x00#32, 0x04#32, 0x08#32, 0x0C#32, 0x10#32, 0x20#32, 0x2C#32, 0x30#32, 0x34#32, 0x38#32, 0x3C#32]

/-- The writes that are a command's inputs (70_reset_and_hazards.md R351): CMD, IN_LEN, IN_OFF, a FREQ entry, an IN
byte. -/
def InputAccess (c : Config.Caps) (addr : Word) (n : Nat) : Prop :=
  (n = 4 ∧ (addr = 0x18 ∨ addr = 0x24 ∨ addr = 0x28 ∨
    (addr.toNat % 4 = 0 ∧ 0x400 ≤ addr.toNat ∧ addr.toNat < 0x800))) ∨
    (n = 1 ∧ 0x40000000 ≤ addr.toNat ∧ addr.toNat < 0x40000000 + c.inCap)

/-! ## Invariants -/

/-- The capacities are in the ranges of 00_scope.md R10. -/
abbrev State.CapsLegal (s : State) : Prop := s.caps.Legal

/-- The buffers are in canonical form and inside their capacities (10_state.md R54; 20_memory.md R94). -/
def State.BuffersInv (s : State) : Prop :=
  s.inbuf.wf ∧ s.outbuf.wf ∧ (∀ c ∈ s.inbuf, c.1 < s.caps.inCap) ∧ (∀ c ∈ s.outbuf, c.1 < s.caps.outCap)

/-- The sequencer and the completion fields agree: Busy runs the word in CMD with DONE, ERRCODE and ERRPOS as the
issue step left them (40_command_protocol.md R161); ERRCODE is 0 to 8 (30_encoding.md R120); a success has ERRPOS 0
(10_state.md R38). -/
def State.ProtocolInv (s : State) : Prop :=
  (∀ w, s.seq = .busy w → s.cmd = w ∧ s.done = false ∧ s.errcode = 0 ∧ s.errpos = 0) ∧
    s.errcode.toNat ≤ 8 ∧ (s.errcode = 0 → s.errpos = 0)

/-- OUT_LEN counts valid bytes of OUT (10_state.md R41). -/
def State.OutInv (s : State) : Prop :=
  s.outLen.toNat ≤ s.caps.outCap ∧ ∀ i, i < s.outLen.toNat → (s.outbuf.read i).isSome = true

/-- TREE and TREE_LEN agree (10_state.md R43, 44_tree_codec.md R223), and a stored tree has the shape of its origin
(10_state.md R51, R52). -/
def State.TreeInv (s : State) : Prop :=
  match s.tree with
  | none => s.treeLen = 0
  | some (.built, t) => s.treeLen.toNat = t.ser.length ∧ t.builtShape
  | some (.loaded, t) => s.treeLen.toNat = t.ser.length ∧ t.wellFormed = true

/-- The code table: with CODES_VALID = 1 it is that of the Built tree in TREE, else it is all zero
(10_state.md R48, R49). -/
def State.CodesInv (s : State) : Prop :=
  if s.codesValid = true then
    ∃ t, s.tree = some (.built, t) ∧
      s.codeLen = lenTable (t.codes []) ∧ s.codeBits = entryTable (t.codes [])
  else s.codeLen = Vector.replicate 256 0 ∧ s.codeBits = Vector.replicate 256 0

/-- All of them. -/
structure State.Inv (s : State) : Prop where
  caps     : s.CapsLegal
  buffers  : s.BuffersInv
  protocol : s.ProtocolInv
  out      : s.OutInv
  tree     : s.TreeInv
  codes    : s.CodesInv

end Sys2Proof.Machine
end

