-- ==== Sys2Proof/Certificates/Slice0/Obligations.lean ====
section
/-! DEFINITION. The statements for the provers: what the numbered rules of spec/ say HUFFCORE does. -/

open Sys2Proof Sys2Proof.Machine

/-! ## Command words (30_encoding.md) -/

/-- R112: every command's word decodes back to it, and is a well-formed word. -/
def Obligations.EncodedCommandDecodesBack : Prop :=
  ∀ i : Instr, i.wellFormed = true → decode (encode i) = .ok i ∧ wellFormedWord (encode i) = true

/-- R110, R113, R166: a word means a command exactly when it is that command's word; a word with RSVD ≠ 0 is rejected for
that, and one with a reserved OPC (0x04 to 0x0F, 0x17 to 0xFF) for that. -/
def Obligations.EveryWordHasOneMeaning : Prop :=
  ∀ w : Word,
    (∀ i, decode w = .ok i ↔ w = encode i) ∧
    (w.extractLsb' 8 24 ≠ 0 → decode w = .error .reservedBitsSet) ∧
    (w.extractLsb' 8 24 = 0 → (0x04 ≤ w.toNat ∧ w.toNat ≤ 0x0F) ∨ 0x17 ≤ w.toNat →
      decode w = .error .reservedOpcode) ∧
    ((∃ i, decode w = .ok i) ↔ wellFormedWord w = true)

/-- R112, R152: the words of the opcode map, and the two illegal words of the worked example. -/
def Obligations.OpcodeMapWordsDecode : Prop :=
  decode 0x00000000#32 = .ok .nop ∧ decode 0x00000001#32 = .ok .compress ∧ decode 0x00000002#32 = .ok .decompress ∧
    decode 0x00000003#32 = .ok .clear ∧ decode 0x00000010#32 = .ok .count ∧ decode 0x00000011#32 = .ok .build ∧
    decode 0x00000012#32 = .ok .derive ∧ decode 0x00000013#32 = .ok .serialize ∧
    decode 0x00000014#32 = .ok .deserialize ∧ decode 0x00000015#32 = .ok .pack ∧ decode 0x00000016#32 = .ok .unpack ∧
    decode 0x00000104#32 = .error .reservedBitsSet ∧ decode 0x00000017#32 = .error .reservedOpcode

/-! ## Steps (10_state.md R30, 20_memory.md R90, 40_command_protocol.md R161 to R166) -/

/-- R162, R166: while Busy with a word that decodes to `i`, the sequencer's turn is `exec i`, whether the turn is the next
of the agenda or comes because the agenda (the model's own field, notes/assumptions/2.md) is empty. -/
def Obligations.StepRunsTheDecodedCommand : Prop :=
  ∀ (s : State) (w : Word) (i : Instr) (rest : List Event), s.seq = .busy w → decode w = .ok i →
    (s.agenda = [] → step s = exec i s) ∧
    (s.agenda = .sequencer :: rest → step s = exec i { s with agenda := rest })

/-- R88, R90, R162, R328, R340: a host transaction and a reset are one step each, and an Idle sequencer does nothing. -/
def Obligations.EachTurnIsOneStep : Prop :=
  ∀ (s : State) (t : Txn) (rest : List Event),
    (s.agenda = .host t :: rest → step s = .next (hostStep t { s with agenda := rest })) ∧
    (s.agenda = .reset :: rest → step s = .next (resetEvent { s with agenda := rest })) ∧
    (s.seq = .idle → s.agenda = .sequencer :: rest → step s = .next { s with agenda := rest }) ∧
    (s.seq = .idle → s.agenda = [] → step s = .next s)

/-- R111, R166, and ruling U5 of 93_implementation_defined.md: a word that is no command completes with IllegalCommand, ERRPOS 0, "with
nothing else changed", OUT_LEN not either where the word's low byte is an output command's OPC (notes/assumptions/5.md). -/
def Obligations.IllegalWordCompletesWithIllegalCommand : Prop :=
  ∀ (s : State) (w : Word) (rest : List Event), s.seq = .busy w → (∀ i, decode w ≠ .ok i) →
    (s.agenda = [] → step s = .next (s.failed .illegalCommand 0)) ∧
    (s.agenda = .sequencer :: rest → step s = .next ({ s with agenda := rest }.failed .illegalCommand 0))

/-- R360: "a Busy sequencer eventually completes". Once the turns of the agenda (the model's own field, notes/assumptions/2.md) are
over, one more step leaves the sequencer Idle; and where no reset is among those turns (R341), host transactions only come
between, which change nothing a command reads, until the step that is the word's completion. -/
def Obligations.BusySequencerCompletes : Prop :=
  (∀ s : State, ∃ t, Sys2Proof.core.run (s.agenda.length + 1) s = .next t ∧ t.seq = .idle ∧ t.agenda = []) ∧
    ∀ (s : State) (w : Word), s.seq = .busy w → .reset ∉ s.agenda →
      ∃ k t u, k ≤ s.agenda.length ∧ Sys2Proof.core.run k s = .next t ∧
        t = { s with
              ctrlIe := t.ctrlIe, done := t.done, berr := t.berr, busywr := t.busywr
              rdata := t.rdata, draws := t.draws, agenda := t.agenda } ∧
        step t = .next u ∧ runWord w { t with agenda := t.agenda.tail } = .next u ∧ u.seq = .idle ∧ u.done = true

/-! ## The host's transactions (20_memory.md R80 to R88, 10_state.md R31 to R49, 70_reset_and_hazards.md R350 to R352) -/

/-- R161: the write of CMD while Idle issues any word; while Busy it is no issue step. -/
def Obligations.CmdWriteIssuesOnlyWhileIdle : Prop :=
  ∀ (s : State) (w : Word),
    (s.seq = .idle → hostStep (.write 0x18 4 w) s =
      { s with cmd := w, seq := .busy w, done := false, errcode := 0, errpos := 0 }) ∧
    (∀ u, s.seq = .busy u → hostStep (.write 0x18 4 w) s = { s with busywr := true })

/-- R351: while Busy, a write of a command's input is lost and sets BUSYWR, a write of a read-only register is ignored without
it, and a bus error sets BERR as at any other time. -/
def Obligations.InputWritesWhileBusyAreLost : Prop :=
  ∀ (s : State) (u addr v : Word) (n : Nat), s.CapsLegal → s.seq = .busy u →
    (InputAccess s.caps addr n → hostStep (.write addr n v) s = { s with busywr := true }) ∧
    (ReadOnlyReg addr → hostStep (.write addr 4 v) s = s) ∧
    (¬LegalAccess s.caps addr n → hostStep (.write addr n v) s = { s with berr := true })

/-- R84 to R87: an access off the map, of the wrong width for its region or misaligned is a bus error, whose only effects are
BERR and, for a read, the data 0; no other access sets BERR. -/
def Obligations.BusErrorsExactlyOffTheMap : Prop :=
  ∀ (s : State) (addr v : Word) (n : Nat),
    (¬LegalAccess s.caps addr n →
      hostStep (.write addr n v) s = { s with berr := true } ∧
      hostStep (.read addr n) s = { s with berr := true, rdata := 0 }) ∧
    (LegalAccess s.caps addr n →
      (hostStep (.read addr n) s).berr = s.berr ∧
      (addr ≠ 0x1C → (hostStep (.write addr n v) s).berr = s.berr) ∧
      ((hostStep (.write addr n v) s).berr = true → s.berr = true))

/-- R31 to R45: what a read of each register of the page returns while Idle, and that nothing else changes. -/
def Obligations.RegisterPageReads : Prop :=
  ∀ s : State, s.seq = .idle →
    hostStep (.read 0x00 4) s = { s with rdata := 0x48554643 } ∧
    hostStep (.read 0x04 4) s = { s with rdata := 0x00000001 } ∧
    hostStep (.read 0x08 4) s = { s with rdata := BitVec.ofNat 32 s.caps.inCap } ∧
    hostStep (.read 0x0C 4) s = { s with rdata := BitVec.ofNat 32 s.caps.outCap } ∧
    hostStep (.read 0x10 4) s = { s with rdata := BitVec.ofNat 32 s.caps.hdrCap } ∧
    hostStep (.read 0x14 4) s = { s with rdata := if s.ctrlIe then 1 else 0 } ∧
    hostStep (.read 0x18 4) s = { s with rdata := s.cmd } ∧
    hostStep (.read 0x1C 4) s = { s with rdata := s.status } ∧
    hostStep (.read 0x20 4) s = { s with rdata := s.errpos } ∧
    hostStep (.read 0x24 4) s = { s with rdata := s.inLen } ∧
    hostStep (.read 0x28 4) s = { s with rdata := s.inOff } ∧
    hostStep (.read 0x2C 4) s = { s with rdata := s.outLen } ∧
    hostStep (.read 0x30 4) s = { s with rdata := s.symcount } ∧
    hostStep (.read 0x34 4) s = { s with rdata := s.treeLen } ∧
    hostStep (.read 0x38 4) s = { s with rdata := s.nsym } ∧
    hostStep (.read 0x3C 4) s = { s with rdata := s.payloadLen }

/-- R82, R85, R86: what a read of the tables and of a written buffer byte returns while Idle, and that nothing else
changes. -/
def Obligations.TableAndBufferReads : Prop :=
  ∀ (s : State) (b : Byte) (k i : Nat) (x : Byte), s.CapsLegal → s.seq = .idle →
    hostStep (.read (BitVec.ofNat 32 (0x400 + 4 * b.toNat)) 4) s = { s with rdata := freqOf s.freq b } ∧
    hostStep (.read (BitVec.ofNat 32 (0x800 + b.toNat)) 1) s = { s with rdata := BitVec.ofNat 32 (s.lenOf b) } ∧
    (k < 32 → hostStep (.read (BitVec.ofNat 32 (0x2000 + 32 * b.toNat + k)) 1) s =
      { s with rdata := (codeByte (s.entryOf b) k).setWidth 32 }) ∧
    (i < s.caps.inCap → s.inbuf.read i = some x →
      hostStep (.read (BitVec.ofNat 32 (0x40000000 + i)) 1) s = { s with rdata := x.setWidth 32 }) ∧
    (i < s.caps.outCap → s.outbuf.read i = some x →
      hostStep (.read (BitVec.ofNat 32 (0x80000000 + i)) 1) s = { s with rdata := x.setWidth 32 })

/-- R36, R37: every bit of STATUS, and that ERR, TREE_VALID, TREE_BUILT and CODES_VALID are functions of other state. -/
def Obligations.StatusBitsAsTabulated : Prop :=
  ∀ s : State,
    (s.status.getLsbD 0 = true ↔ s.seq ≠ .idle) ∧ s.status.getLsbD 1 = s.done ∧
    (s.status.getLsbD 2 = true ↔ s.errcode ≠ 0) ∧ s.status.extractLsb' 4 4 = s.errcode ∧
    s.status.getLsbD 8 = s.berr ∧ s.status.getLsbD 9 = s.busywr ∧
    (s.status.getLsbD 16 = true ↔ s.tree ≠ none) ∧
    (s.status.getLsbD 17 = true ↔ ∃ t, s.tree = some (.built, t)) ∧
    s.status.getLsbD 18 = s.codesValid ∧
    ∀ k, k = 3 ∨ (10 ≤ k ∧ k ≤ 15) ∨ 19 ≤ k → s.status.getLsbD k = false

/-- R352: a write of CTRL or STATUS takes effect at once, Busy or not; it changes IE, or the W1C bits it sets, and nothing
else; and a completion sets DONE again. -/
def Obligations.CtrlAndStatusWritesTakeEffectAtOnce : Prop :=
  ∀ (s : State) (v : Word),
    hostStep (.write 0x14 4 v) s = { s with ctrlIe := v.getLsbD 0 } ∧
    (hostStep (.write 0x14 4 v) s).irq = (s.done && v.getLsbD 0) ∧
    hostStep (.write 0x1C 4 v) s =
      { s with
        done := s.done && !v.getLsbD 1
        berr := s.berr && !v.getLsbD 8
        busywr := s.busywr && !v.getLsbD 9 } ∧
    ∀ i t, exec i s = .next t → t.done = true

/-- R83: what a host write does by region. A read-only register or region ignores it, Busy or not, with no bus error. While
Idle, IN_LEN, IN_OFF, a FREQ entry and an IN byte take the written value; while Busy each is ignored and sets BUSYWR. Nothing
else changes. -/
def Obligations.HostWritesByRegion : Prop :=
  ∀ (s : State) (addr v : Word) (b : Byte) (i : Nat), s.CapsLegal → i < s.caps.inCap →
    (ReadOnlyReg addr → hostStep (.write addr 4 v) s = s) ∧
    ((0x800 ≤ addr.toNat ∧ addr.toNat < 0x900) ∨ (0x2000 ≤ addr.toNat ∧ addr.toNat < 0x4000) ∨
      (0x80000000 ≤ addr.toNat ∧ addr.toNat < 0x80000000 + s.caps.outCap) →
      hostStep (.write addr 1 v) s = s) ∧
    (s.seq = .idle →
      hostStep (.write 0x24 4 v) s = { s with inLen := v } ∧
      hostStep (.write 0x28 4 v) s = { s with inOff := v } ∧
      (∃ f, hostStep (.write (BitVec.ofNat 32 (0x400 + 4 * b.toNat)) 4 v) s = { s with freq := f } ∧
        freqOf f b = v ∧ ∀ c, c ≠ b → freqOf f c = freqOf s.freq c) ∧
      ∃ m, hostStep (.write (BitVec.ofNat 32 (0x40000000 + i)) 1 v) s = { s with inbuf := m } ∧
        m.read i = some (v.setWidth 8) ∧ ∀ j, j ≠ i → m.read j = s.inbuf.read j) ∧
    (s.seq ≠ .idle →
      hostStep (.write 0x24 4 v) s = { s with busywr := true } ∧
      hostStep (.write 0x28 4 v) s = { s with busywr := true } ∧
      hostStep (.write (BitVec.ofNat 32 (0x400 + 4 * b.toNat)) 4 v) s = { s with busywr := true } ∧
      hostStep (.write (BitVec.ofNat 32 (0x40000000 + i)) 1 v) s = { s with busywr := true })

/-- R350: while Busy, the registers no command changes before its completion and the written IN bytes read as they are; what a
read of any other result state returns does not depend on that state: two blocks that agree on nothing but the capacities and
the number of draws taken (the model's own, notes/assumptions/3.md) answer alike, and the draw is spent. That bits 31 to 8 of
a 1-byte read's data are 0, both for an IN byte and for a draw, is the model's choice (notes/assumptions/4.md). -/
def Obligations.BusyReadsOfResultsAreDraws : Prop :=
  ∀ (s s' : State) (u u' addr : Word) (n : Nat), s.CapsLegal → s.seq = .busy u → s'.seq = .busy u' → s'.caps = s.caps →
    s'.draws = s.draws →
    hostStep (.read 0x00 4) s = { s with rdata := 0x48554643 } ∧
    hostStep (.read 0x04 4) s = { s with rdata := 0x00000001 } ∧
    hostStep (.read 0x08 4) s = { s with rdata := BitVec.ofNat 32 s.caps.inCap } ∧
    hostStep (.read 0x0C 4) s = { s with rdata := BitVec.ofNat 32 s.caps.outCap } ∧
    hostStep (.read 0x10 4) s = { s with rdata := BitVec.ofNat 32 s.caps.hdrCap } ∧
    hostStep (.read 0x14 4) s = { s with rdata := if s.ctrlIe then 1 else 0 } ∧
    hostStep (.read 0x18 4) s = { s with rdata := s.cmd } ∧
    hostStep (.read 0x1C 4) s = { s with rdata := s.status } ∧
    hostStep (.read 0x24 4) s = { s with rdata := s.inLen } ∧
    hostStep (.read 0x28 4) s = { s with rdata := s.inOff } ∧
    (∀ i x, i < s.caps.inCap → s.inbuf.read i = some x →
      hostStep (.read (BitVec.ofNat 32 (0x40000000 + i)) 1) s = { s with rdata := x.setWidth 32 }) ∧
    (LegalAccess s.caps addr n → ResultAddr addr →
      ∃ v, hostStep (.read addr n) s = { s with rdata := v, draws := s.draws + 1 } ∧
        hostStep (.read addr n) s' = { s' with rdata := v, draws := s'.draws + 1 } ∧ (n = 1 → v.toNat < 256))

/-- R54: a byte of OUT that no command has written since reset reads as some byte, which is no function of the block's state
but the number of draws taken (the model's own); so does a byte of IN that the host has not written
(notes/assumptions/3.md). That bits 31 to 8 of the data are 0 is the model's choice (notes/assumptions/4.md). -/
def Obligations.UnwrittenBytesReadAsDraws : Prop :=
  ∀ (s s' : State) (i : Nat), s.CapsLegal → s.seq = .idle → s'.seq = .idle → s'.caps = s.caps → s'.draws = s.draws →
    (i < s.caps.outCap → s.outbuf.read i = none → s'.outbuf.read i = none →
      ∃ x : Byte,
        hostStep (.read (BitVec.ofNat 32 (0x80000000 + i)) 1) s =
          { s with rdata := x.setWidth 32, draws := s.draws + 1 } ∧
        hostStep (.read (BitVec.ofNat 32 (0x80000000 + i)) 1) s' =
          { s' with rdata := x.setWidth 32, draws := s'.draws + 1 }) ∧
    (i < s.caps.inCap → s.inbuf.read i = none → s'.inbuf.read i = none →
      ∃ x : Byte,
        hostStep (.read (BitVec.ofNat 32 (0x40000000 + i)) 1) s =
          { s with rdata := x.setWidth 32, draws := s.draws + 1 } ∧
        hostStep (.read (BitVec.ofNat 32 (0x40000000 + i)) 1) s' =
          { s' with rdata := x.setWidth 32, draws := s'.draws + 1 })

/-- R83, R88: a read changes no state of the block but BERR (R87), and no host transaction changes OUT, the code table, TREE, a
result register, a capacity or the fault mark. -/
def Obligations.HostTransactionsNeverWriteResults : Prop :=
  ∀ (s : State) (addr v : Word) (n : Nat),
    (∃ r b k, hostStep (.read addr n) s = { s with rdata := r, berr := b, draws := k }) ∧
    (∃ ie cmd sq dn ec ep be bw il io fr ib, hostStep (.write addr n v) s =
      { s with
        ctrlIe := ie, cmd := cmd, seq := sq, done := dn, errcode := ec, errpos := ep, berr := be, busywr := bw
        inLen := il, inOff := io, freq := fr, inbuf := ib })

/-! ## The interrupt, reset and the fault mark -/

/-- R55, R322: IRQ is the level DONE ∧ IE. Every completion raises it when IE is 1, writing 1 to DONE and issuing a command drop
it, and clearing IE only masks it. -/
def Obligations.IrqIsTheCompletionLevel : Prop :=
  ∀ s : State,
    s.irq = (s.done && s.ctrlIe) ∧
    (∀ i t, exec i s = .next t → t.irq = s.ctrlIe) ∧
    (hostStep (.write 0x1C 4 0x2) s).irq = false ∧
    (s.seq = .idle → ∀ w, (hostStep (.write 0x18 4 w) s).irq = false) ∧
    (hostStep (.write 0x14 4 0) s).irq = false ∧ (hostStep (.write 0x14 4 0) s).done = s.done ∧
    (hostStep (.write 0x14 4 1) s).irq = s.done ∧
    ∀ c : Config.Caps, (State.resetOf c).irq = false

/-- R58, R340, R341: whatever the sequencer is doing, reset leaves every piece of state at its reset value; only the fault mark
and the capacities keep theirs, and the model's own agenda, read data and draw count (notes/assumptions/2.md, 3.md, 4.md), which
are no part of the block. At power-on every piece of state has its reset value and the mark is none. -/
def Obligations.ResetEmptiesTheBlock : Prop :=
  (∀ (s : State) (rest : List Event), s.agenda = .reset :: rest →
    ∃ t, step s = .next t ∧ t.Emptied ∧ t.fault = s.fault ∧ t.caps = s.caps ∧ t.agenda = rest) ∧
  ∀ c : Config.Caps, (State.resetOf c).Emptied ∧ (State.resetOf c).fault = none ∧ (State.resetOf c).caps = c

/-- R33, R318: no step changes a capacity, and "the mark is never cleared, by a reset, by CLEAR or by any host write". -/
def Obligations.StepKeepsCapacitiesAndFaultMark : Prop :=
  ∀ s t : State, step s = .next t → t.caps = s.caps ∧ (s.fault ≠ none → t.fault ≠ none)

/-! ## Every command -/

/-- What the six commands that store nothing in OUT may change, however they end: everything else is as before, both buffers
among it (R163 to R165; 30_encoding.md R112, column "writes"). -/
def Obligations.RegisterCommandsFrame : Prop :=
  ∀ s t : State,
    (exec .nop s = .next t →
      t = { s with seq := t.seq, done := t.done, errcode := t.errcode, errpos := t.errpos }) ∧
    (exec .clear s = .next t →
      t = { s with
            seq := t.seq, done := t.done, errcode := t.errcode, errpos := t.errpos
            freq := t.freq, tree := t.tree, codeLen := t.codeLen, codeBits := t.codeBits, codesValid := t.codesValid
            outLen := t.outLen, symcount := t.symcount, treeLen := t.treeLen, nsym := t.nsym
            payloadLen := t.payloadLen }) ∧
    (exec .count s = .next t →
      t = { s with
            seq := t.seq, done := t.done, errcode := t.errcode, errpos := t.errpos, fault := t.fault
            freq := t.freq, nsym := t.nsym }) ∧
    (exec .build s = .next t →
      t = { s with
            seq := t.seq, done := t.done, errcode := t.errcode, errpos := t.errpos
            tree := t.tree, treeLen := t.treeLen, nsym := t.nsym
            codeLen := t.codeLen, codeBits := t.codeBits, codesValid := t.codesValid }) ∧
    (exec .derive s = .next t →
      t = { s with
            seq := t.seq, done := t.done, errcode := t.errcode, errpos := t.errpos
            codeLen := t.codeLen, codeBits := t.codeBits, codesValid := t.codesValid }) ∧
    (exec .deserialize s = .next t →
      t = { s with
            seq := t.seq, done := t.done, errcode := t.errcode, errpos := t.errpos, fault := t.fault
            tree := t.tree, treeLen := t.treeLen, nsym := t.nsym, inOff := t.inOff
            codeLen := t.codeLen, codeBits := t.codeBits, codesValid := t.codesValid })

/-- What the five output commands may change, however they end: the registers listed, and the bytes of OUT from where the command
writes (0, or OUT_LEN for PACK) up to the new OUT_LEN; every other byte reads as before (R163 to R165; 30_encoding.md R112). -/
def Obligations.OutputCommandsFrame : Prop :=
  ∀ s t : State, s.CapsLegal →
    (exec .serialize s = .next t →
      t = { s with
            seq := t.seq, done := t.done, errcode := t.errcode, errpos := t.errpos
            outbuf := t.outbuf, outLen := t.outLen } ∧
      ∀ i, t.outLen.toNat ≤ i → t.outbuf.read i = s.outbuf.read i) ∧
    (exec .pack s = .next t →
      t = { s with
            seq := t.seq, done := t.done, errcode := t.errcode, errpos := t.errpos, fault := t.fault
            outbuf := t.outbuf, outLen := t.outLen, symcount := t.symcount, payloadLen := t.payloadLen } ∧
      ∀ i, i < s.outLen.toNat ∨ t.outLen.toNat ≤ i → t.outbuf.read i = s.outbuf.read i) ∧
    (exec .unpack s = .next t →
      t = { s with
            seq := t.seq, done := t.done, errcode := t.errcode, errpos := t.errpos, fault := t.fault
            outbuf := t.outbuf, outLen := t.outLen, symcount := t.symcount, payloadLen := t.payloadLen
            inOff := t.inOff } ∧
      ∀ i, t.outLen.toNat ≤ i → t.outbuf.read i = s.outbuf.read i) ∧
    (exec .compress s = .next t →
      t = { s with
            seq := t.seq, done := t.done, errcode := t.errcode, errpos := t.errpos, fault := t.fault
            freq := t.freq, nsym := t.nsym, tree := t.tree, treeLen := t.treeLen
            codeLen := t.codeLen, codeBits := t.codeBits, codesValid := t.codesValid
            outbuf := t.outbuf, outLen := t.outLen, symcount := t.symcount, payloadLen := t.payloadLen } ∧
      ∀ i, t.outLen.toNat ≤ i → t.outbuf.read i = s.outbuf.read i) ∧
    (exec .decompress s = .next t →
      t = { s with
            seq := t.seq, done := t.done, errcode := t.errcode, errpos := t.errpos, fault := t.fault
            inOff := t.inOff, nsym := t.nsym, tree := t.tree, treeLen := t.treeLen
            codeLen := t.codeLen, codeBits := t.codeBits, codesValid := t.codesValid
            outbuf := t.outbuf, outLen := t.outLen, symcount := t.symcount, payloadLen := t.payloadLen } ∧
      ∀ i, t.outLen.toNat ≤ i → t.outbuf.read i = s.outbuf.read i)

/-- R165, R310: "the working copy is discarded". After a command that ends with an error the state is the state before it, but for
ERRCODE, ERRPOS, the completion itself and, for the five output commands, OUT_LEN = 0. (The premise is what every issue step
leaves, R161.) -/
def Obligations.ErrorsChangeOnlyTheErrorFields : Prop :=
  ∀ (i : Instr) (s t : State), s.errcode = 0 → exec i s = .next t → t.errcode ≠ 0 →
    ∃ e pos, t =
      { s with
        seq := .idle, done := true, errcode := ErrKind.code e, errpos := BitVec.ofNat 32 pos
        outLen := if i ∈ [.compress, .decompress, .serialize, .pack, .unpack] then 0 else s.outLen }

/-- R318: a command sets the model's fault mark only for a byte of its input that was never written, and then changes nothing else
but the completion itself; and each of the six commands that read IN does so where the next byte it reads was never written:
COUNT and COMPRESS at the first such byte, PACK too where the bytes before it have codes that fit, DESERIALIZE and DECOMPRESS
inside a header, UNPACK and DECOMPRESS inside a count field or a payload. -/
def Obligations.UninitFaultOnlyFromUnwrittenInput : Prop :=
  (∀ (i : Instr) (s t : State), exec i s = .next t → t.fault ≠ s.fault →
    ∃ k, t = { s with seq := .idle, done := true, fault := some (.uninitRead k) } ∧
      k < s.inLen.toNat ∧ s.inbuf.read k = none) ∧
  ∀ (s : State) (k : Nat), s.inLen.toNat ≤ s.caps.inCap → k < s.inLen.toNat → s.inbuf.read k = none →
    (∀ bytes : List Byte, bytes.length = k → HoldsAt s.inbuf 0 bytes →
      exec .count s = .next (s.faulted k) ∧ exec .compress s = .next (s.faulted k) ∧
      (s.codesValid = true → (∀ b ∈ bytes, s.lenOf b ≠ 0) →
        s.outLen.toNat + 4 + ceil8 (bytes.flatMap s.codeOf).length ≤ s.caps.outCap →
        exec .pack s = .next (s.faulted k))) ∧
    (s.AtHeaderByte s.inOff.toNat k → k < s.inOff.toNat + s.caps.hdrCap → exec .deserialize s = .next (s.faulted k)) ∧
    (s.AtHeaderByte 0 k → k < s.caps.hdrCap → exec .decompress s = .next (s.faulted k)) ∧
    (∀ o t, s.tree = some (o, t) → s.AtStreamByte t s.inOff.toNat k → exec .unpack s = .next (s.faulted k)) ∧
    ∀ t, s.HasHeader t → s.AtStreamByte t t.ser.length k → exec .decompress s = .next (s.faulted k)

/-- R163: Exec "does not read CTRL, STATUS.BERR or STATUS.BUSYWR", nor does it change them. -/
def Obligations.ExecReadsNoHostControl : Prop :=
  ∀ (i : Instr) (s t : State) (a b c : Bool), exec i s = .next t →
    exec i { s with ctrlIe := a, berr := b, busywr := c } = .next { t with ctrlIe := a, berr := b, busywr := c }

/-- R180: the six commands that read IN begin with the check IN_LEN ≤ IN_CAP. -/
def Obligations.InputBoundIsCheckedFirst : Prop :=
  ∀ s : State, s.caps.inCap < s.inLen.toNat →
    exec .count s = .next (s.failed .resourceLimit 0) ∧
    exec .deserialize s = .next (s.failed .resourceLimit 0) ∧
    exec .pack s = .next (s.failedOut .resourceLimit 0) ∧
    exec .unpack s = .next (s.failedOut .resourceLimit 0) ∧
    exec .compress s = .next (s.failedOut .resourceLimit 0) ∧
    exec .decompress s = .next (s.failedOut .resourceLimit 0)

/-- R317, SequenceError: DERIVE needs a Built tree, SERIALIZE and UNPACK any tree, PACK CODES_VALID = 1. -/
def Obligations.MissingPrerequisiteIsSequenceError : Prop :=
  ∀ s : State,
    ((∀ t, s.tree ≠ some (.built, t)) → exec .derive s = .next (s.failed .sequenceError 0)) ∧
    (s.tree = none → exec .serialize s = .next (s.failedOut .sequenceError 0)) ∧
    (s.tree = none → s.inLen.toNat ≤ s.caps.inCap → exec .unpack s = .next (s.failedOut .sequenceError 0)) ∧
    (s.codesValid = false → s.inLen.toNat ≤ s.caps.inCap → exec .pack s = .next (s.failedOut .sequenceError 0))

/-! ## NOP and CLEAR (40_command_protocol.md R168, R169) -/

/-- R168: NOP completes with no other effect; its example from reset; and a word 0xXXXXXX00 with RSVD ≠ 0 is no NOP but
completes with IllegalCommand. -/
def Obligations.NopCompletes : Prop :=
  (∀ s : State, exec .nop s = .next { s with seq := .idle, done := true, errcode := 0, errpos := 0 }) ∧
    decode 0x00000000#32 = .ok .nop ∧
    (∀ (w : Word) (s : State), w.extractLsb' 0 8 = 0 → w.extractLsb' 8 24 ≠ 0 →
      decode w = .error .reservedBitsSet ∧ ∃ t, runWord w s = .next t ∧ t.errcode = 8) ∧
    ∀ c : Config.Caps, ∃ t,
      runWord 0x00000000 (hostStep (.write 0x18 4 0x00000000) { State.resetOf c with ctrlIe := true }) = .next t ∧
        t.status = 0x00000002 ∧ t.irq = true

/-- R169: CLEAR empties the tables, TREE and the result registers and leaves everything else; CLEAR after CLEAR changes
nothing. -/
def Obligations.ClearEmptiesTheCore : Prop :=
  ∀ s : State, ∃ t, exec .clear s = .next t ∧
    t = { s with
          seq := .idle, done := true, errcode := 0, errpos := 0
          freq := t.freq, codeLen := t.codeLen, codeBits := t.codeBits, codesValid := false, tree := none
          outLen := 0, symcount := 0, treeLen := 0, nsym := 0, payloadLen := 0 } ∧
    (∀ b, freqOf t.freq b = 0 ∧ t.lenOf b = 0 ∧ t.entryOf b = 0) ∧
    t.status.getLsbD 16 = false ∧ t.status.getLsbD 17 = false ∧ t.status.getLsbD 18 = false ∧
    exec .clear t = .next t

/-! ## COUNT (41_frequency_model.md R181, R182) -/

/-- R181: COUNT writes every FREQ entry with the number of occurrences of its symbol and NSYM with the number of distinct symbols,
and nothing else; an input over IN_CAP is ResourceLimit; an input byte never written is the model fault. -/
def Obligations.CountCompletes : Prop :=
  ∀ (s : State) (bytes : List Byte), s.CapsLegal →
    (s.HasInput bytes →
      ∃ t, exec .count s = .next t ∧
        t = { s with seq := .idle, done := true, errcode := 0, errpos := 0, freq := t.freq, nsym := t.nsym } ∧
        (∀ b, (freqOf t.freq b).toNat = bytes.count b) ∧ t.nsym.toNat = bytes.dedup.length) ∧
    (s.caps.inCap < s.inLen.toNat → exec .count s = .next (s.failed .resourceLimit 0)) ∧
    (s.inLen.toNat ≤ s.caps.inCap → HoldsAt s.inbuf 0 bytes → bytes.length < s.inLen.toNat →
      s.inbuf.read bytes.length = none → exec .count s = .next (s.faulted bytes.length))

/-- R182: after a successful COUNT the entries sum to IN_LEN, they are non-zero exactly for the bytes of the input, and NSYM is at
most 256 and 0 exactly when IN_LEN is 0. -/
def Obligations.CountTotals : Prop :=
  ∀ (s t : State) (bytes : List Byte), s.CapsLegal → s.HasInput bytes → exec .count s = .next t →
    (allBytes.map fun b => (freqOf t.freq b).toNat).sum = s.inLen.toNat ∧
    (∀ b, freqOf t.freq b ≠ 0 ↔ b ∈ bytes) ∧
    t.nsym.toNat ≤ 256 ∧ (t.nsym = 0 ↔ s.inLen = 0)

/-! ## BUILD (42_tree_builder.md R190 to R195) -/

/-- R191 to R193: BUILD stores the tree of the table (Wrap for one symbol, Merge for more) with its length and symbol count, clears
the code table and changes nothing else; with no symbol it is EmptyInput. -/
def Obligations.BuildCompletes : Prop :=
  ∀ s : State,
    (∀ b, b ∈ symbolsOf s.freq ↔ freqOf s.freq b ≠ 0) ∧
    ((∃ b, freqOf s.freq b ≠ 0) →
      ∃ t, TreeOf s.freq t ∧
        exec .build s = .next
          { s with
            seq := .idle, done := true, errcode := 0, errpos := 0
            tree := some (.built, t)
            treeLen := BitVec.ofNat 32 t.ser.length
            nsym := BitVec.ofNat 32 (symbolsOf s.freq).length
            codesValid := false
            codeLen := Vector.replicate 256 0
            codeBits := Vector.replicate 256 0 }) ∧
    ((∀ b, freqOf s.freq b = 0) → exec .build s = .next (s.failed .emptyInput 0))

/-- R194, R195, R223: the tree BUILD stores is the only tree of the table; its leaves are the table's symbols, each once; with N ≥ 2
symbols it has N − 1 Internal nodes, no Sentinel, leaf depths 1 to N − 1 and a header of 4N − 1 bytes; with one it is the
wrapper, of 6 bytes. -/
def Obligations.BuiltTreeIsDeterminedAndShaped : Prop :=
  ∀ s u : State, (∃ b, freqOf s.freq b ≠ 0) → exec .build s = .next u →
    ∃ t, u.tree = some (.built, t) ∧ (∀ t', TreeOf s.freq t' → t' = t) ∧
      t.leaves.Perm ((symbolsOf s.freq).map fun b => [b]) ∧
      (2 ≤ (symbolsOf s.freq).length →
        t.plain = true ∧ t.internals + 1 = (symbolsOf s.freq).length ∧
        (∀ p sym, t.follow p = some (.leaf sym) → 1 ≤ p.length ∧ p.length + 1 ≤ (symbolsOf s.freq).length) ∧
        u.treeLen.toNat + 1 = 4 * (symbolsOf s.freq).length) ∧
      ((symbolsOf s.freq).length = 1 → ∃ b, t = .internal (.leaf [b]) .sentinel ∧ u.treeLen = 6)

/-! ## DERIVE (43_code_table.md R210 to R212) -/

/-- R210, R211: DERIVE gives every symbol on a leaf of the Built tree the path to that leaf as its code, zeros after it, every other
symbol none, sets CODES_VALID and changes nothing else; without a Built tree it is SequenceError. -/
def Obligations.DeriveCompletes : Prop :=
  ∀ s : State,
    (∀ t, s.tree = some (.built, t) → t.builtShape →
      ∃ u, exec .derive s = .next u ∧
        u = { s with
              seq := .idle, done := true, errcode := 0, errpos := 0
              codesValid := true, codeLen := u.codeLen, codeBits := u.codeBits } ∧
        (∀ b p, t.follow p = some (.leaf [b]) →
          u.lenOf b = p.length ∧ 1 ≤ p.length ∧ p.length ≤ 255 ∧ u.codeOf b = p ∧
          ∀ j, p.length ≤ j → j < 256 → byteBit (codeByte (u.entryOf b) (j / 8)) (j % 8) = false) ∧
        (∀ b, (∀ p, t.follow p ≠ some (.leaf [b])) → u.lenOf b = 0 ∧ u.entryOf b = 0)) ∧
    ((∀ t, s.tree ≠ some (.built, t)) → exec .derive s = .next (s.failed .sequenceError 0))

/-- R212: after DERIVE the coded symbols are exactly the leaves' symbols, no code is the beginning of another, and the code lengths
sum to 1 (in units of 2^-256) for a tree without Sentinel, to 1/2 for the wrapper. -/
def Obligations.DerivedCodesArePrefixFreeAndComplete : Prop :=
  ∀ (s u : State) (t : Node), s.tree = some (.built, t) → t.builtShape → exec .derive s = .next u →
    (∀ b, u.lenOf b ≠ 0 ↔ [b] ∈ t.leaves) ∧
    (allBytes.filter fun b => u.lenOf b ≠ 0).length = t.leaves.length ∧
    (∀ b c, b ≠ c → u.lenOf b ≠ 0 → u.lenOf c ≠ 0 → ¬(u.codeOf b <+: u.codeOf c)) ∧
    ((allBytes.filter fun b => u.lenOf b ≠ 0).map fun b => 2 ^ (256 - u.lenOf b)).sum =
      if t.plain = true then 2 ^ 256 else 2 ^ 255

/-! ## SERIALIZE and DESERIALIZE (44_tree_codec.md R220 to R236) -/

/-- R221: SERIALIZE writes `Ser` of the stored tree, of either origin, from OUT[0], sets OUT_LEN to its length and changes nothing
else; a header longer than OUT is ResourceLimit, and no tree is SequenceError. -/
def Obligations.SerializeCompletes : Prop :=
  ∀ (s : State) (o : Origin) (t : Node), s.CapsLegal →
    (s.tree = some (o, t) → t.ser.length ≤ s.caps.outCap →
      ∃ u, exec .serialize s = .next u ∧
        u = { s with
              seq := .idle, done := true, errcode := 0, errpos := 0, outbuf := u.outbuf, outLen := u.outLen } ∧
        u.outLen.toNat = t.ser.length ∧ HoldsAt u.outbuf 0 t.ser ∧
        ∀ i, t.ser.length ≤ i → u.outbuf.read i = s.outbuf.read i) ∧
    (s.tree = some (o, t) → s.caps.outCap < t.ser.length → exec .serialize s = .next (s.failedOut .resourceLimit 0)) ∧
    (s.tree = none → exec .serialize s = .next (s.failedOut .sequenceError 0))

/-- R222: `Ser` is injective and no serialization is a proper beginning of another. -/
def Obligations.SerializationIsSelfDelimiting : Prop :=
  ∀ (t t' : Node) (r r' : List Byte), t.wellFormed = true → t'.wellFormed = true →
    t.ser ++ r = t'.ser ++ r' → t = t' ∧ r = r'

/-- R235, R236: where IN holds a serialized node at IN_OFF, whatever is behind it, DESERIALIZE stores that node, moves IN_OFF past it,
sets TREE_LEN and NSYM, clears the code table and changes nothing else; a SERIALIZE after it copies the header byte for byte. -/
def Obligations.DeserializeCompletes : Prop :=
  ∀ (s : State) (t : Node), s.CapsLegal → s.inLen.toNat ≤ s.caps.inCap → t.wellFormed = true →
    HoldsAt s.inbuf s.inOff.toNat t.ser → s.inOff.toNat + t.ser.length ≤ s.inLen.toNat →
    t.ser.length ≤ s.caps.hdrCap →
    ∃ u, exec .deserialize s = .next u ∧
      u = { s with
            seq := .idle, done := true, errcode := 0, errpos := 0
            tree := some (.loaded, t)
            treeLen := BitVec.ofNat 32 t.ser.length
            inOff := BitVec.ofNat 32 (s.inOff.toNat + t.ser.length)
            nsym := BitVec.ofNat 32 t.leaves.length
            codesValid := false
            codeLen := Vector.replicate 256 0
            codeBits := Vector.replicate 256 0 } ∧
      (t.ser.length ≤ s.caps.outCap →
        ∃ v, exec .serialize u = .next v ∧ v.outLen = u.treeLen ∧
          ∀ k, k < t.ser.length → v.outbuf.read k = s.inbuf.read (s.inOff.toNat + k))

/-- R230: a DESERIALIZE that succeeds has read exactly one serialized node at IN_OFF, within the input and HDR_CAP, and stored it. -/
def Obligations.DeserializeAcceptsOnlySerializedTrees : Prop :=
  ∀ s u : State, s.CapsLegal → exec .deserialize s = .next u → u.errcode = 0 → u.fault = none →
    ∃ t, u.tree = some (.loaded, t) ∧ t.wellFormed = true ∧ HoldsAt s.inbuf s.inOff.toNat t.ser ∧
      s.inOff.toNat + t.ser.length ≤ s.inLen.toNat ∧ t.ser.length ≤ s.caps.hdrCap ∧
      u.treeLen.toNat = t.ser.length ∧ u.inOff.toNat = s.inOff.toNat + t.ser.length

/-- R230, R234, R297: a header whose next byte is at or behind IN_LEN is MalformedTree there; one whose next byte would be number
HDR_CAP + 1 is ResourceLimit there; for DESERIALIZE, which parses from IN_OFF, and for DECOMPRESS, from 0. -/
def Obligations.HeaderCutShortOrTooLong : Prop :=
  ∀ (s : State) (k : Nat), s.inLen.toNat ≤ s.caps.inCap →
    (s.AtHeaderByte s.inOff.toNat k →
      (s.inLen.toNat ≤ k → exec .deserialize s = .next (s.failed .malformedTree k)) ∧
      (k < s.inLen.toNat → k = s.inOff.toNat + s.caps.hdrCap →
        exec .deserialize s = .next (s.failed .resourceLimit k))) ∧
    (s.AtHeaderByte 0 k →
      (s.inLen.toNat ≤ k → exec .decompress s = .next (s.failedOut .malformedTree k)) ∧
      (k < s.inLen.toNat → k = s.caps.hdrCap → exec .decompress s = .next (s.failedOut .resourceLimit k)))

/-- R231, R297: a tag byte other than 0x00 and 0x01, at any place where a node's encoding begins, is MalformedTree at that byte; for
DESERIALIZE, which parses from IN_OFF, and for DECOMPRESS, from 0. -/
def Obligations.BadTagIsMalformedTree : Prop :=
  ∀ (s : State) (t : Node) (k : Nat) (bad : Byte), s.inLen.toNat ≤ s.caps.inCap → t.wellFormed = true →
    k ∈ t.tagOffsets → bad ≠ 0x00 → bad ≠ 0x01 → k < s.caps.hdrCap →
    (HoldsAt s.inbuf s.inOff.toNat (t.ser.take k ++ [bad]) → s.inOff.toNat + k < s.inLen.toNat →
      exec .deserialize s = .next (s.failed .malformedTree (s.inOff.toNat + k))) ∧
    (HoldsAt s.inbuf 0 (t.ser.take k ++ [bad]) → k < s.inLen.toNat →
      exec .decompress s = .next (s.failedOut .malformedTree k))

/-! ## PACK (45_bitstream_writer.md R250 to R252) -/

/-- R250, R251: PACK appends at OUT_LEN the big-endian count and the packed codes of the input in order, sets OUT_LEN, SYMCOUNT and
PAYLOAD_LEN and changes nothing else, no other byte of OUT among it. -/
def Obligations.PackCompletes : Prop :=
  ∀ (s : State) (bytes : List Byte), s.CapsLegal → s.HasInput bytes → s.codesValid = true →
    (∀ b ∈ bytes, s.lenOf b ≠ 0) →
    s.outLen.toNat + 4 + ceil8 (bytes.flatMap s.codeOf).length ≤ s.caps.outCap →
    ∃ u, exec .pack s = .next u ∧
      u = { s with
            seq := .idle, done := true, errcode := 0, errpos := 0, outbuf := u.outbuf
            outLen := BitVec.ofNat 32 (s.outLen.toNat + 4 + ceil8 (bytes.flatMap s.codeOf).length)
            symcount := s.inLen
            payloadLen := BitVec.ofNat 32 (ceil8 (bytes.flatMap s.codeOf).length) } ∧
      HoldsAt u.outbuf s.outLen.toNat (be32 s.inLen ++ packed (bytes.flatMap s.codeOf)) ∧
      ∀ i, i < s.outLen.toNat ∨ s.outLen.toNat + 4 + ceil8 (bytes.flatMap s.codeOf).length ≤ i →
        u.outbuf.read i = s.outbuf.read i

/-- R250, R317: PACK's own errors, each at the first input byte that fails, whatever is behind it: no room for the count field, a byte
without a code (at its index), or codes that outgrow OUT. -/
def Obligations.PackErrors : Prop :=
  ∀ (s : State) (bytes : List Byte) (x : Byte), s.codesValid = true → s.inLen.toNat ≤ s.caps.inCap →
    (s.caps.outCap < s.outLen.toNat + 4 → exec .pack s = .next (s.failedOut .resourceLimit 0)) ∧
    (HoldsAt s.inbuf 0 (bytes ++ [x]) → bytes.length < s.inLen.toNat → (∀ b ∈ bytes, s.lenOf b ≠ 0) → s.lenOf x = 0 →
      s.outLen.toNat + 4 + ceil8 (bytes.flatMap s.codeOf).length ≤ s.caps.outCap →
      exec .pack s = .next (s.failedOut .uncodedSymbol bytes.length)) ∧
    (HoldsAt s.inbuf 0 bytes → bytes.length ≤ s.inLen.toNat → (∀ b ∈ bytes, s.lenOf b ≠ 0) →
      s.caps.outCap < s.outLen.toNat + 4 + ceil8 (bytes.flatMap s.codeOf).length →
      exec .pack s = .next (s.failedOut .resourceLimit 0))

/-- R252: the packed string has `ceil8(|bits|)` bytes, byte `k` is `Σ_j bit(8k + j) · 2^(7−j)`, and the bits past the end are 0. -/
def Obligations.PackedBitsAreMsbFirst : Prop :=
  ∀ bits : List Bool, (packed bits).length = ceil8 bits.length ∧
    ∀ k, k < ceil8 bits.length →
      (packed bits)[k]? = some (BitVec.ofNat 8
        ((List.range 8).map fun j => (bits.getD (8 * k + j) false).toNat * 2 ^ (7 - j)).sum)

/-! ## UNPACK (46_bitstream_decoder.md R270 to R278) -/

/-- R270, R272, R273, R276, R277: where IN holds at IN_OFF a count n and then bits that begin with n paths from the root to leaves,
UNPACK writes those leaves' symbols to OUT from 0, sets OUT_LEN, SYMCOUNT, PAYLOAD_LEN and IN_OFF, and changes nothing else;
padding bits and bytes behind the payload may be anything. -/
def Obligations.UnpackCompletes : Prop :=
  ∀ (s : State) (o : Origin) (t : Node) (n : Word) (paths : List (List Bool)) (syms : List (List Byte)),
    s.CapsLegal → s.inLen.toNat ≤ s.caps.inCap → s.tree = some (o, t) →
    HoldsAt s.inbuf s.inOff.toNat (be32 n) → paths.length = n.toNat → Spells t paths syms →
    HasBits s.inbuf (s.inOff.toNat + 4) paths.flatten →
    s.inOff.toNat + 4 + ceil8 paths.flatten.length ≤ s.inLen.toNat → syms.flatten.length ≤ s.caps.outCap →
    ∃ u, exec .unpack s = .next u ∧
      u = { s with
            seq := .idle, done := true, errcode := 0, errpos := 0, outbuf := u.outbuf
            outLen := BitVec.ofNat 32 syms.flatten.length
            symcount := n
            payloadLen := BitVec.ofNat 32 (ceil8 paths.flatten.length)
            inOff := BitVec.ofNat 32 (s.inOff.toNat + 4 + ceil8 paths.flatten.length) } ∧
      HoldsAt u.outbuf 0 syms.flatten ∧
      ∀ i, syms.flatten.length ≤ i → u.outbuf.read i = s.outbuf.read i

/-- R271, R275, R278, R297: a count field or a payload that ends before the declared count is reached is TruncatedStream at the first
missing byte, for UNPACK from IN_OFF with the stored tree and for DECOMPRESS behind the header it parsed; so an artifact cut
anywhere behind its header is TruncatedStream at the cut, "never a silently wrong decode". -/
def Obligations.UnpackTruncated : Prop :=
  ∀ (s : State) (t : Node), s.CapsLegal → s.inLen.toNat ≤ s.caps.inCap →
    (∀ k, s.inLen.toNat ≤ k →
      (∀ o, s.tree = some (o, t) → s.AtStreamByte t s.inOff.toNat k →
        exec .unpack s = .next (s.failedOut .truncatedStream k)) ∧
      (s.HasHeader t → s.AtStreamByte t t.ser.length k →
        exec .decompress s = .next (s.failedOut .truncatedStream k))) ∧
    ∀ bytes : List Byte, TreeOf (countTable bytes) t → bytes.length ≤ s.caps.outCap →
      HoldsAt s.inbuf 0 ((artifactOf t bytes).take s.inLen.toNat) →
      t.ser.length ≤ s.inLen.toNat → s.inLen.toNat < (artifactOf t bytes).length →
      exec .decompress s = .next (s.failedOut .truncatedStream s.inLen.toNat)

/-- R272, R274, R297: a bit read where the cursor has no child for it, or that selects a Sentinel, is CorruptTree at the byte that holds
it; a symbol that would go past OUT_CAP is ResourceLimit; for UNPACK from IN_OFF with the stored tree, and for DECOMPRESS
behind the header it parsed. -/
def Obligations.UnpackStopsAtBadNodeOrFullOutput : Prop :=
  ∀ (s : State) (t : Node) (q : Nat) (paths : List (List Bool)) (syms : List (List Byte)),
    s.inLen.toNat ≤ s.caps.inCap →
    (∀ (part : List Bool) (bit : Bool) (m : Node), CursorAt t part m →
      (m.child bit = none ∨ m.child bit = some .sentinel) → s.StreamBegins t q paths syms (part ++ [bit]) →
      (∀ o, s.tree = some (o, t) → q = s.inOff.toNat →
        exec .unpack s = .next (s.failedOut .corruptTree (q + 4 + (paths.flatten ++ part).length / 8))) ∧
      (s.HasHeader t → q = t.ser.length →
        exec .decompress s = .next (s.failedOut .corruptTree (q + 4 + (paths.flatten ++ part).length / 8)))) ∧
    (∀ (p : List Bool) (sym : List Byte), p ≠ [] → t.follow p = some (.leaf sym) →
      s.caps.outCap < syms.flatten.length + sym.length → s.StreamBegins t q paths syms p →
      (∀ o, s.tree = some (o, t) → q = s.inOff.toNat →
        exec .unpack s = .next (s.failedOut .resourceLimit 0)) ∧
      (s.HasHeader t → q = t.ser.length → exec .decompress s = .next (s.failedOut .resourceLimit 0)))

/-! ## COMPRESS and DECOMPRESS (47_entry_points.md R290 to R299) -/

/-- R290, R292: COMPRESS of a non-empty input whose artifact fits in OUT leaves the counts, the Built tree, its code table and the
artifact `Ser(t) ++ BE32(IN_LEN) ++ Packed(bits)` from OUT[0], all committed at once, and changes nothing else. -/
def Obligations.CompressCompletes : Prop :=
  ∀ (s : State) (bytes : List Byte) (t : Node), s.CapsLegal → s.HasInput bytes → bytes ≠ [] →
    TreeOf (countTable bytes) t → (artifactOf t bytes).length ≤ s.caps.outCap →
    ∃ u, exec .compress s = .next u ∧
      u = { s with
            seq := .idle, done := true, errcode := 0, errpos := 0
            freq := u.freq, nsym := u.nsym, tree := some (.built, t), treeLen := u.treeLen
            codesValid := true, codeLen := u.codeLen, codeBits := u.codeBits
            outbuf := u.outbuf, outLen := u.outLen, symcount := s.inLen, payloadLen := u.payloadLen } ∧
      (∀ b, (freqOf u.freq b).toNat = bytes.count b) ∧ u.nsym.toNat = bytes.dedup.length ∧
      u.treeLen.toNat = t.ser.length ∧
      (∀ b p, t.follow p = some (.leaf [b]) → u.codeOf b = p ∧ u.lenOf b = p.length) ∧
      (∀ b, b ∉ bytes → u.lenOf b = 0 ∧ u.entryOf b = 0) ∧
      HoldsAt u.outbuf 0 (artifactOf t bytes) ∧ u.outLen.toNat = (artifactOf t bytes).length ∧
      u.outLen.toNat = u.treeLen.toNat + 4 + u.payloadLen.toNat ∧
      u.payloadLen.toNat = ceil8 (allBytes.map fun b => (freqOf u.freq b).toNat * u.lenOf b).sum ∧
      ∀ i, (artifactOf t bytes).length ≤ i → u.outbuf.read i = s.outbuf.read i

/-- R290, R291: COMPRESS of an empty input is EmptyInput, before any capacity of OUT is looked at; an artifact that does not fit is
ResourceLimit at 0. -/
def Obligations.CompressErrors : Prop :=
  ∀ (s : State) (bytes : List Byte) (t : Node),
    (s.inLen = 0 → exec .compress s = .next (s.failedOut .emptyInput 0)) ∧
    (s.HasInput bytes → bytes ≠ [] → s.CapsLegal → TreeOf (countTable bytes) t →
      s.caps.outCap < (artifactOf t bytes).length →
      exec .compress s = .next (s.failedOut .resourceLimit 0))

/-- R254, R290: a COMPRESS that succeeds leaves the very state that COUNT, BUILD, DERIVE, SERIALIZE and PACK leave one after the
other. -/
def Obligations.CompressIsTheFiveCommandsInOrder : Prop :=
  ∀ (s c : State) (bytes : List Byte), s.CapsLegal → s.HasInput bytes → bytes ≠ [] →
    exec .compress s = .next c → c.errcode = 0 →
    ∃ s1 s2 s3 s4, exec .count s = .next s1 ∧ exec .build s1 = .next s2 ∧ exec .derive s2 = .next s3 ∧
      exec .serialize s3 = .next s4 ∧ exec .pack s4 = .next c

/-- R295, R296: where IN holds from IN[0] a serialized node, a count n and bits that begin with n paths to leaves, DECOMPRESS, whatever
IN_OFF held, stores the node as Loaded, writes the leaves' symbols to OUT from 0, leaves IN_OFF behind the payload, clears the
code table and changes nothing else. -/
def Obligations.DecompressCompletes : Prop :=
  ∀ (s : State) (t : Node) (n : Word) (paths : List (List Bool)) (syms : List (List Byte)),
    s.CapsLegal → s.inLen.toNat ≤ s.caps.inCap → t.wellFormed = true → t.ser.length ≤ s.caps.hdrCap →
    HoldsAt s.inbuf 0 (t.ser ++ be32 n) → paths.length = n.toNat → Spells t paths syms →
    HasBits s.inbuf (t.ser.length + 4) paths.flatten →
    t.ser.length + 4 + ceil8 paths.flatten.length ≤ s.inLen.toNat → syms.flatten.length ≤ s.caps.outCap →
    ∃ u, exec .decompress s = .next u ∧
      u = { s with
            seq := .idle, done := true, errcode := 0, errpos := 0
            tree := some (.loaded, t)
            treeLen := BitVec.ofNat 32 t.ser.length
            nsym := BitVec.ofNat 32 t.leaves.length
            codesValid := false
            codeLen := Vector.replicate 256 0
            codeBits := Vector.replicate 256 0
            outbuf := u.outbuf
            outLen := BitVec.ofNat 32 syms.flatten.length
            symcount := n
            payloadLen := BitVec.ofNat 32 (ceil8 paths.flatten.length)
            inOff := BitVec.ofNat 32 (t.ser.length + 4 + ceil8 paths.flatten.length) } ∧
      HoldsAt u.outbuf 0 syms.flatten ∧
      ∀ i, syms.flatten.length ≤ i → u.outbuf.read i = s.outbuf.read i

/-- R298: the round trip. Where a COMPRESS of `bytes` succeeded, and another run's IN holds the artifact it left in OUT, with IN_LEN its
length, DECOMPRESS gives `bytes` back. -/
def Obligations.DecompressOfCompressIsTheInput : Prop :=
  ∀ (s c d : State) (bytes : List Byte), s.CapsLegal → d.CapsLegal → s.HasInput bytes → bytes ≠ [] →
    exec .compress s = .next c → c.errcode = 0 →
    d.inLen = c.outLen → c.outLen.toNat ≤ d.caps.inCap →
    (∀ i, i < c.outLen.toNat → d.inbuf.read i = c.outbuf.read i) → bytes.length ≤ d.caps.outCap →
    ∃ u, exec .decompress d = .next u ∧ u.errcode = 0 ∧ u.fault = d.fault ∧ u.outLen.toNat = bytes.length ∧
      HoldsAt u.outbuf 0 bytes

/-- R299: the result of COMPRESS, and that of DECOMPRESS, is a function of IN[0 .. IN_LEN − 1] and the capacities alone: two blocks
that agree on nothing else end alike, in every register the command writes and every byte of its output. -/
def Obligations.EntryPointsDependOnTheInputAlone : Prop :=
  ∀ (s s' u u' : State) (bytes : List Byte), s'.caps = s.caps → s.HasInput bytes → s'.HasInput bytes →
    (exec .compress s = .next u → exec .compress s' = .next u' →
      u.errcode = u'.errcode ∧ u.errpos = u'.errpos ∧ u.outLen = u'.outLen ∧
      (u.errcode = 0 →
        u.freq = u'.freq ∧ u.nsym = u'.nsym ∧ u.tree = u'.tree ∧ u.treeLen = u'.treeLen ∧
        u.codesValid = u'.codesValid ∧ u.codeLen = u'.codeLen ∧ u.codeBits = u'.codeBits ∧
        u.symcount = u'.symcount ∧ u.payloadLen = u'.payloadLen ∧
        ∀ i, i < u.outLen.toNat → u.outbuf.read i = u'.outbuf.read i)) ∧
    (exec .decompress s = .next u → exec .decompress s' = .next u' →
      u.errcode = u'.errcode ∧ u.errpos = u'.errpos ∧ u.outLen = u'.outLen ∧
      (u.errcode = 0 →
        u.inOff = u'.inOff ∧ u.nsym = u'.nsym ∧ u.tree = u'.tree ∧ u.treeLen = u'.treeLen ∧
        u.codesValid = u'.codesValid ∧ u.codeLen = u'.codeLen ∧ u.codeBits = u'.codeBits ∧
        u.symcount = u'.symcount ∧ u.payloadLen = u'.payloadLen ∧
        ∀ i, i < u.outLen.toNat → u.outbuf.read i = u'.outbuf.read i))

/-! ## Invariants, kept by every step from every state that has them -/

/-- R58, R10: the state at power-on, of every block with legal capacities, has all the invariants. -/
def Obligations.PowerOnHasTheInvariants : Prop :=
  State.reset.Inv ∧ ∀ c : Config.Caps, c.Legal → (State.resetOf c).Inv

/-- R10, R54, R94: the buffers stay in canonical form and inside their capacities. -/
def Obligations.StepKeepsTheBuffersCanonical : Prop :=
  ∀ s t : State, s.CapsLegal → s.BuffersInv → step s = .next t → t.CapsLegal ∧ t.BuffersInv

/-- R38, R120, R161: while Busy, CMD is the word being run and DONE, ERRCODE and ERRPOS are 0; ERRCODE is never 9 to 15; and ERRPOS is 0
after a success. -/
def Obligations.StepKeepsTheProtocol : Prop :=
  ∀ s t : State, s.ProtocolInv → step s = .next t → t.ProtocolInv

/-- R41: OUT_LEN counts bytes of OUT that a command wrote, at most OUT_CAP. -/
def Obligations.StepKeepsOutLenValid : Prop :=
  ∀ s t : State, s.CapsLegal → s.OutInv → step s = .next t → t.OutInv

/-- R43, R51, R52, R223: TREE_LEN is the serialized length of the stored tree or 0; a Built tree has the shape of R51; a Loaded one is
a node the deserializer can produce. -/
def Obligations.StepKeepsTreeAndItsLength : Prop :=
  ∀ s t : State, s.CapsLegal → s.TreeInv → step s = .next t → t.TreeInv

/-- R48, R49: with CODES_VALID = 1 the code table is that of the Built tree in TREE; with 0 it is all zeros. -/
def Obligations.StepKeepsCodesMatchingTheTree : Prop :=
  ∀ s t : State, s.CodesInv → step s = .next t → t.CodesInv
end

