-- ==== Sys2Proof/Laws/State.lean ====
section
/-! SUPPORT. What each named update of the state does to each field, true by rfl: later proofs cite these and unfold no
record update. One lemma per field per update; `<update>_<field>`. -/

namespace Sys2Proof.Machine

@[simp] theorem issue_caps (w : Word) (s : State) : (issue w s).caps = s.caps := rfl
@[simp] theorem issue_seq (w : Word) (s : State) : (issue w s).seq = .busy w := rfl
@[simp] theorem issue_ctrlIe (w : Word) (s : State) : (issue w s).ctrlIe = s.ctrlIe := rfl
@[simp] theorem issue_cmd (w : Word) (s : State) : (issue w s).cmd = w := rfl
@[simp] theorem issue_done (w : Word) (s : State) : (issue w s).done = false := rfl
@[simp] theorem issue_errcode (w : Word) (s : State) : (issue w s).errcode = 0 := rfl
@[simp] theorem issue_berr (w : Word) (s : State) : (issue w s).berr = s.berr := rfl
@[simp] theorem issue_busywr (w : Word) (s : State) : (issue w s).busywr = s.busywr := rfl
@[simp] theorem issue_errpos (w : Word) (s : State) : (issue w s).errpos = 0 := rfl
@[simp] theorem issue_inLen (w : Word) (s : State) : (issue w s).inLen = s.inLen := rfl
@[simp] theorem issue_inOff (w : Word) (s : State) : (issue w s).inOff = s.inOff := rfl
@[simp] theorem issue_outLen (w : Word) (s : State) : (issue w s).outLen = s.outLen := rfl
@[simp] theorem issue_symcount (w : Word) (s : State) : (issue w s).symcount = s.symcount := rfl
@[simp] theorem issue_treeLen (w : Word) (s : State) : (issue w s).treeLen = s.treeLen := rfl
@[simp] theorem issue_nsym (w : Word) (s : State) : (issue w s).nsym = s.nsym := rfl
@[simp] theorem issue_payloadLen (w : Word) (s : State) : (issue w s).payloadLen = s.payloadLen := rfl
@[simp] theorem issue_freq (w : Word) (s : State) : (issue w s).freq = s.freq := rfl
@[simp] theorem issue_codeLen (w : Word) (s : State) : (issue w s).codeLen = s.codeLen := rfl
@[simp] theorem issue_codeBits (w : Word) (s : State) : (issue w s).codeBits = s.codeBits := rfl
@[simp] theorem issue_codesValid (w : Word) (s : State) : (issue w s).codesValid = s.codesValid := rfl
@[simp] theorem issue_tree (w : Word) (s : State) : (issue w s).tree = s.tree := rfl
@[simp] theorem issue_inbuf (w : Word) (s : State) : (issue w s).inbuf = s.inbuf := rfl
@[simp] theorem issue_outbuf (w : Word) (s : State) : (issue w s).outbuf = s.outbuf := rfl
@[simp] theorem issue_fault (w : Word) (s : State) : (issue w s).fault = s.fault := rfl
@[simp] theorem issue_agenda (w : Word) (s : State) : (issue w s).agenda = s.agenda := rfl
@[simp] theorem issue_rdata (w : Word) (s : State) : (issue w s).rdata = s.rdata := rfl
@[simp] theorem issue_draws (w : Word) (s : State) : (issue w s).draws = s.draws := rfl

@[simp] theorem finish_caps (s : State) : (finish s).caps = s.caps := rfl
@[simp] theorem finish_seq (s : State) : (finish s).seq = .idle := rfl
@[simp] theorem finish_ctrlIe (s : State) : (finish s).ctrlIe = s.ctrlIe := rfl
@[simp] theorem finish_cmd (s : State) : (finish s).cmd = s.cmd := rfl
@[simp] theorem finish_done (s : State) : (finish s).done = true := rfl
@[simp] theorem finish_errcode (s : State) : (finish s).errcode = s.errcode := rfl
@[simp] theorem finish_berr (s : State) : (finish s).berr = s.berr := rfl
@[simp] theorem finish_busywr (s : State) : (finish s).busywr = s.busywr := rfl
@[simp] theorem finish_errpos (s : State) : (finish s).errpos = s.errpos := rfl
@[simp] theorem finish_inLen (s : State) : (finish s).inLen = s.inLen := rfl
@[simp] theorem finish_inOff (s : State) : (finish s).inOff = s.inOff := rfl
@[simp] theorem finish_outLen (s : State) : (finish s).outLen = s.outLen := rfl
@[simp] theorem finish_symcount (s : State) : (finish s).symcount = s.symcount := rfl
@[simp] theorem finish_treeLen (s : State) : (finish s).treeLen = s.treeLen := rfl
@[simp] theorem finish_nsym (s : State) : (finish s).nsym = s.nsym := rfl
@[simp] theorem finish_payloadLen (s : State) : (finish s).payloadLen = s.payloadLen := rfl
@[simp] theorem finish_freq (s : State) : (finish s).freq = s.freq := rfl
@[simp] theorem finish_codeLen (s : State) : (finish s).codeLen = s.codeLen := rfl
@[simp] theorem finish_codeBits (s : State) : (finish s).codeBits = s.codeBits := rfl
@[simp] theorem finish_codesValid (s : State) : (finish s).codesValid = s.codesValid := rfl
@[simp] theorem finish_tree (s : State) : (finish s).tree = s.tree := rfl
@[simp] theorem finish_inbuf (s : State) : (finish s).inbuf = s.inbuf := rfl
@[simp] theorem finish_outbuf (s : State) : (finish s).outbuf = s.outbuf := rfl
@[simp] theorem finish_fault (s : State) : (finish s).fault = s.fault := rfl
@[simp] theorem finish_agenda (s : State) : (finish s).agenda = s.agenda := rfl
@[simp] theorem finish_rdata (s : State) : (finish s).rdata = s.rdata := rfl
@[simp] theorem finish_draws (s : State) : (finish s).draws = s.draws := rfl

@[simp] theorem errCommit_caps (c : Bool) (e : ErrKind) (p : Nat) (s : State) : (errCommit c e p s).caps = s.caps := rfl
@[simp] theorem errCommit_seq (c : Bool) (e : ErrKind) (p : Nat) (s : State) : (errCommit c e p s).seq = s.seq := rfl
@[simp] theorem errCommit_ctrlIe (c : Bool) (e : ErrKind) (p : Nat) (s : State) : (errCommit c e p s).ctrlIe = s.ctrlIe := rfl
@[simp] theorem errCommit_cmd (c : Bool) (e : ErrKind) (p : Nat) (s : State) : (errCommit c e p s).cmd = s.cmd := rfl
@[simp] theorem errCommit_done (c : Bool) (e : ErrKind) (p : Nat) (s : State) : (errCommit c e p s).done = s.done := rfl
@[simp] theorem errCommit_errcode (c : Bool) (e : ErrKind) (p : Nat) (s : State) : (errCommit c e p s).errcode = e.code := rfl
@[simp] theorem errCommit_berr (c : Bool) (e : ErrKind) (p : Nat) (s : State) : (errCommit c e p s).berr = s.berr := rfl
@[simp] theorem errCommit_busywr (c : Bool) (e : ErrKind) (p : Nat) (s : State) : (errCommit c e p s).busywr = s.busywr := rfl
@[simp] theorem errCommit_errpos (c : Bool) (e : ErrKind) (p : Nat) (s : State) : (errCommit c e p s).errpos = BitVec.ofNat 32 p := rfl
@[simp] theorem errCommit_inLen (c : Bool) (e : ErrKind) (p : Nat) (s : State) : (errCommit c e p s).inLen = s.inLen := rfl
@[simp] theorem errCommit_inOff (c : Bool) (e : ErrKind) (p : Nat) (s : State) : (errCommit c e p s).inOff = s.inOff := rfl
@[simp] theorem errCommit_outLen (c : Bool) (e : ErrKind) (p : Nat) (s : State) : (errCommit c e p s).outLen = if c then 0 else s.outLen := rfl
@[simp] theorem errCommit_symcount (c : Bool) (e : ErrKind) (p : Nat) (s : State) : (errCommit c e p s).symcount = s.symcount := rfl
@[simp] theorem errCommit_treeLen (c : Bool) (e : ErrKind) (p : Nat) (s : State) : (errCommit c e p s).treeLen = s.treeLen := rfl
@[simp] theorem errCommit_nsym (c : Bool) (e : ErrKind) (p : Nat) (s : State) : (errCommit c e p s).nsym = s.nsym := rfl
@[simp] theorem errCommit_payloadLen (c : Bool) (e : ErrKind) (p : Nat) (s : State) : (errCommit c e p s).payloadLen = s.payloadLen := rfl
@[simp] theorem errCommit_freq (c : Bool) (e : ErrKind) (p : Nat) (s : State) : (errCommit c e p s).freq = s.freq := rfl
@[simp] theorem errCommit_codeLen (c : Bool) (e : ErrKind) (p : Nat) (s : State) : (errCommit c e p s).codeLen = s.codeLen := rfl
@[simp] theorem errCommit_codeBits (c : Bool) (e : ErrKind) (p : Nat) (s : State) : (errCommit c e p s).codeBits = s.codeBits := rfl
@[simp] theorem errCommit_codesValid (c : Bool) (e : ErrKind) (p : Nat) (s : State) : (errCommit c e p s).codesValid = s.codesValid := rfl
@[simp] theorem errCommit_tree (c : Bool) (e : ErrKind) (p : Nat) (s : State) : (errCommit c e p s).tree = s.tree := rfl
@[simp] theorem errCommit_inbuf (c : Bool) (e : ErrKind) (p : Nat) (s : State) : (errCommit c e p s).inbuf = s.inbuf := rfl
@[simp] theorem errCommit_outbuf (c : Bool) (e : ErrKind) (p : Nat) (s : State) : (errCommit c e p s).outbuf = s.outbuf := rfl
@[simp] theorem errCommit_fault (c : Bool) (e : ErrKind) (p : Nat) (s : State) : (errCommit c e p s).fault = s.fault := rfl
@[simp] theorem errCommit_agenda (c : Bool) (e : ErrKind) (p : Nat) (s : State) : (errCommit c e p s).agenda = s.agenda := rfl
@[simp] theorem errCommit_rdata (c : Bool) (e : ErrKind) (p : Nat) (s : State) : (errCommit c e p s).rdata = s.rdata := rfl
@[simp] theorem errCommit_draws (c : Bool) (e : ErrKind) (p : Nat) (s : State) : (errCommit c e p s).draws = s.draws := rfl

@[simp] theorem busError_caps (s : State) : (busError s).caps = s.caps := rfl
@[simp] theorem busError_seq (s : State) : (busError s).seq = s.seq := rfl
@[simp] theorem busError_ctrlIe (s : State) : (busError s).ctrlIe = s.ctrlIe := rfl
@[simp] theorem busError_cmd (s : State) : (busError s).cmd = s.cmd := rfl
@[simp] theorem busError_done (s : State) : (busError s).done = s.done := rfl
@[simp] theorem busError_errcode (s : State) : (busError s).errcode = s.errcode := rfl
@[simp] theorem busError_berr (s : State) : (busError s).berr = true := rfl
@[simp] theorem busError_busywr (s : State) : (busError s).busywr = s.busywr := rfl
@[simp] theorem busError_errpos (s : State) : (busError s).errpos = s.errpos := rfl
@[simp] theorem busError_inLen (s : State) : (busError s).inLen = s.inLen := rfl
@[simp] theorem busError_inOff (s : State) : (busError s).inOff = s.inOff := rfl
@[simp] theorem busError_outLen (s : State) : (busError s).outLen = s.outLen := rfl
@[simp] theorem busError_symcount (s : State) : (busError s).symcount = s.symcount := rfl
@[simp] theorem busError_treeLen (s : State) : (busError s).treeLen = s.treeLen := rfl
@[simp] theorem busError_nsym (s : State) : (busError s).nsym = s.nsym := rfl
@[simp] theorem busError_payloadLen (s : State) : (busError s).payloadLen = s.payloadLen := rfl
@[simp] theorem busError_freq (s : State) : (busError s).freq = s.freq := rfl
@[simp] theorem busError_codeLen (s : State) : (busError s).codeLen = s.codeLen := rfl
@[simp] theorem busError_codeBits (s : State) : (busError s).codeBits = s.codeBits := rfl
@[simp] theorem busError_codesValid (s : State) : (busError s).codesValid = s.codesValid := rfl
@[simp] theorem busError_tree (s : State) : (busError s).tree = s.tree := rfl
@[simp] theorem busError_inbuf (s : State) : (busError s).inbuf = s.inbuf := rfl
@[simp] theorem busError_outbuf (s : State) : (busError s).outbuf = s.outbuf := rfl
@[simp] theorem busError_fault (s : State) : (busError s).fault = s.fault := rfl
@[simp] theorem busError_agenda (s : State) : (busError s).agenda = s.agenda := rfl
@[simp] theorem busError_rdata (s : State) : (busError s).rdata = s.rdata := rfl
@[simp] theorem busError_draws (s : State) : (busError s).draws = s.draws := rfl

@[simp] theorem writeStatus_caps (s : State) (v : Word) : (s.writeStatus v).caps = s.caps := rfl
@[simp] theorem writeStatus_seq (s : State) (v : Word) : (s.writeStatus v).seq = s.seq := rfl
@[simp] theorem writeStatus_ctrlIe (s : State) (v : Word) : (s.writeStatus v).ctrlIe = s.ctrlIe := rfl
@[simp] theorem writeStatus_cmd (s : State) (v : Word) : (s.writeStatus v).cmd = s.cmd := rfl
@[simp] theorem writeStatus_done (s : State) (v : Word) : (s.writeStatus v).done = (s.done && !v.getLsbD 1) := rfl
@[simp] theorem writeStatus_errcode (s : State) (v : Word) : (s.writeStatus v).errcode = s.errcode := rfl
@[simp] theorem writeStatus_berr (s : State) (v : Word) : (s.writeStatus v).berr = (s.berr && !v.getLsbD 8) := rfl
@[simp] theorem writeStatus_busywr (s : State) (v : Word) : (s.writeStatus v).busywr = (s.busywr && !v.getLsbD 9) := rfl
@[simp] theorem writeStatus_errpos (s : State) (v : Word) : (s.writeStatus v).errpos = s.errpos := rfl
@[simp] theorem writeStatus_inLen (s : State) (v : Word) : (s.writeStatus v).inLen = s.inLen := rfl
@[simp] theorem writeStatus_inOff (s : State) (v : Word) : (s.writeStatus v).inOff = s.inOff := rfl
@[simp] theorem writeStatus_outLen (s : State) (v : Word) : (s.writeStatus v).outLen = s.outLen := rfl
@[simp] theorem writeStatus_symcount (s : State) (v : Word) : (s.writeStatus v).symcount = s.symcount := rfl
@[simp] theorem writeStatus_treeLen (s : State) (v : Word) : (s.writeStatus v).treeLen = s.treeLen := rfl
@[simp] theorem writeStatus_nsym (s : State) (v : Word) : (s.writeStatus v).nsym = s.nsym := rfl
@[simp] theorem writeStatus_payloadLen (s : State) (v : Word) : (s.writeStatus v).payloadLen = s.payloadLen := rfl
@[simp] theorem writeStatus_freq (s : State) (v : Word) : (s.writeStatus v).freq = s.freq := rfl
@[simp] theorem writeStatus_codeLen (s : State) (v : Word) : (s.writeStatus v).codeLen = s.codeLen := rfl
@[simp] theorem writeStatus_codeBits (s : State) (v : Word) : (s.writeStatus v).codeBits = s.codeBits := rfl
@[simp] theorem writeStatus_codesValid (s : State) (v : Word) : (s.writeStatus v).codesValid = s.codesValid := rfl
@[simp] theorem writeStatus_tree (s : State) (v : Word) : (s.writeStatus v).tree = s.tree := rfl
@[simp] theorem writeStatus_inbuf (s : State) (v : Word) : (s.writeStatus v).inbuf = s.inbuf := rfl
@[simp] theorem writeStatus_outbuf (s : State) (v : Word) : (s.writeStatus v).outbuf = s.outbuf := rfl
@[simp] theorem writeStatus_fault (s : State) (v : Word) : (s.writeStatus v).fault = s.fault := rfl
@[simp] theorem writeStatus_agenda (s : State) (v : Word) : (s.writeStatus v).agenda = s.agenda := rfl
@[simp] theorem writeStatus_rdata (s : State) (v : Word) : (s.writeStatus v).rdata = s.rdata := rfl
@[simp] theorem writeStatus_draws (s : State) (v : Word) : (s.writeStatus v).draws = s.draws := rfl

@[simp] theorem clearCodes_caps (s : State) : s.clearCodes.caps = s.caps := rfl
@[simp] theorem clearCodes_seq (s : State) : s.clearCodes.seq = s.seq := rfl
@[simp] theorem clearCodes_ctrlIe (s : State) : s.clearCodes.ctrlIe = s.ctrlIe := rfl
@[simp] theorem clearCodes_cmd (s : State) : s.clearCodes.cmd = s.cmd := rfl
@[simp] theorem clearCodes_done (s : State) : s.clearCodes.done = s.done := rfl
@[simp] theorem clearCodes_errcode (s : State) : s.clearCodes.errcode = s.errcode := rfl
@[simp] theorem clearCodes_berr (s : State) : s.clearCodes.berr = s.berr := rfl
@[simp] theorem clearCodes_busywr (s : State) : s.clearCodes.busywr = s.busywr := rfl
@[simp] theorem clearCodes_errpos (s : State) : s.clearCodes.errpos = s.errpos := rfl
@[simp] theorem clearCodes_inLen (s : State) : s.clearCodes.inLen = s.inLen := rfl
@[simp] theorem clearCodes_inOff (s : State) : s.clearCodes.inOff = s.inOff := rfl
@[simp] theorem clearCodes_outLen (s : State) : s.clearCodes.outLen = s.outLen := rfl
@[simp] theorem clearCodes_symcount (s : State) : s.clearCodes.symcount = s.symcount := rfl
@[simp] theorem clearCodes_treeLen (s : State) : s.clearCodes.treeLen = s.treeLen := rfl
@[simp] theorem clearCodes_nsym (s : State) : s.clearCodes.nsym = s.nsym := rfl
@[simp] theorem clearCodes_payloadLen (s : State) : s.clearCodes.payloadLen = s.payloadLen := rfl
@[simp] theorem clearCodes_freq (s : State) : s.clearCodes.freq = s.freq := rfl
@[simp] theorem clearCodes_codeLen (s : State) : s.clearCodes.codeLen = Vector.replicate 256 0 := rfl
@[simp] theorem clearCodes_codeBits (s : State) : s.clearCodes.codeBits = Vector.replicate 256 0 := rfl
@[simp] theorem clearCodes_codesValid (s : State) : s.clearCodes.codesValid = false := rfl
@[simp] theorem clearCodes_tree (s : State) : s.clearCodes.tree = s.tree := rfl
@[simp] theorem clearCodes_inbuf (s : State) : s.clearCodes.inbuf = s.inbuf := rfl
@[simp] theorem clearCodes_outbuf (s : State) : s.clearCodes.outbuf = s.outbuf := rfl
@[simp] theorem clearCodes_fault (s : State) : s.clearCodes.fault = s.fault := rfl
@[simp] theorem clearCodes_agenda (s : State) : s.clearCodes.agenda = s.agenda := rfl
@[simp] theorem clearCodes_rdata (s : State) : s.clearCodes.rdata = s.rdata := rfl
@[simp] theorem clearCodes_draws (s : State) : s.clearCodes.draws = s.draws := rfl

@[simp] theorem setTree_caps (s : State) (o : Origin) (t : Node) (l c : Nat) : (s.setTree o t l c).caps = s.caps := rfl
@[simp] theorem setTree_seq (s : State) (o : Origin) (t : Node) (l c : Nat) : (s.setTree o t l c).seq = s.seq := rfl
@[simp] theorem setTree_ctrlIe (s : State) (o : Origin) (t : Node) (l c : Nat) : (s.setTree o t l c).ctrlIe = s.ctrlIe := rfl
@[simp] theorem setTree_cmd (s : State) (o : Origin) (t : Node) (l c : Nat) : (s.setTree o t l c).cmd = s.cmd := rfl
@[simp] theorem setTree_done (s : State) (o : Origin) (t : Node) (l c : Nat) : (s.setTree o t l c).done = s.done := rfl
@[simp] theorem setTree_errcode (s : State) (o : Origin) (t : Node) (l c : Nat) : (s.setTree o t l c).errcode = s.errcode := rfl
@[simp] theorem setTree_berr (s : State) (o : Origin) (t : Node) (l c : Nat) : (s.setTree o t l c).berr = s.berr := rfl
@[simp] theorem setTree_busywr (s : State) (o : Origin) (t : Node) (l c : Nat) : (s.setTree o t l c).busywr = s.busywr := rfl
@[simp] theorem setTree_errpos (s : State) (o : Origin) (t : Node) (l c : Nat) : (s.setTree o t l c).errpos = s.errpos := rfl
@[simp] theorem setTree_inLen (s : State) (o : Origin) (t : Node) (l c : Nat) : (s.setTree o t l c).inLen = s.inLen := rfl
@[simp] theorem setTree_inOff (s : State) (o : Origin) (t : Node) (l c : Nat) : (s.setTree o t l c).inOff = s.inOff := rfl
@[simp] theorem setTree_outLen (s : State) (o : Origin) (t : Node) (l c : Nat) : (s.setTree o t l c).outLen = s.outLen := rfl
@[simp] theorem setTree_symcount (s : State) (o : Origin) (t : Node) (l c : Nat) : (s.setTree o t l c).symcount = s.symcount := rfl
@[simp] theorem setTree_treeLen (s : State) (o : Origin) (t : Node) (l c : Nat) : (s.setTree o t l c).treeLen = BitVec.ofNat 32 l := rfl
@[simp] theorem setTree_nsym (s : State) (o : Origin) (t : Node) (l c : Nat) : (s.setTree o t l c).nsym = BitVec.ofNat 32 c := rfl
@[simp] theorem setTree_payloadLen (s : State) (o : Origin) (t : Node) (l c : Nat) : (s.setTree o t l c).payloadLen = s.payloadLen := rfl
@[simp] theorem setTree_freq (s : State) (o : Origin) (t : Node) (l c : Nat) : (s.setTree o t l c).freq = s.freq := rfl
@[simp] theorem setTree_codeLen (s : State) (o : Origin) (t : Node) (l c : Nat) : (s.setTree o t l c).codeLen = Vector.replicate 256 0 := rfl
@[simp] theorem setTree_codeBits (s : State) (o : Origin) (t : Node) (l c : Nat) : (s.setTree o t l c).codeBits = Vector.replicate 256 0 := rfl
@[simp] theorem setTree_codesValid (s : State) (o : Origin) (t : Node) (l c : Nat) : (s.setTree o t l c).codesValid = false := rfl
@[simp] theorem setTree_tree (s : State) (o : Origin) (t : Node) (l c : Nat) : (s.setTree o t l c).tree = some (o, t) := rfl
@[simp] theorem setTree_inbuf (s : State) (o : Origin) (t : Node) (l c : Nat) : (s.setTree o t l c).inbuf = s.inbuf := rfl
@[simp] theorem setTree_outbuf (s : State) (o : Origin) (t : Node) (l c : Nat) : (s.setTree o t l c).outbuf = s.outbuf := rfl
@[simp] theorem setTree_fault (s : State) (o : Origin) (t : Node) (l c : Nat) : (s.setTree o t l c).fault = s.fault := rfl
@[simp] theorem setTree_agenda (s : State) (o : Origin) (t : Node) (l c : Nat) : (s.setTree o t l c).agenda = s.agenda := rfl
@[simp] theorem setTree_rdata (s : State) (o : Origin) (t : Node) (l c : Nat) : (s.setTree o t l c).rdata = s.rdata := rfl
@[simp] theorem setTree_draws (s : State) (o : Origin) (t : Node) (l c : Nat) : (s.setTree o t l c).draws = s.draws := rfl

@[simp] theorem setCodes_caps (s : State) (cs : List (Byte × List Bool)) : (s.setCodes cs).caps = s.caps := rfl
@[simp] theorem setCodes_seq (s : State) (cs : List (Byte × List Bool)) : (s.setCodes cs).seq = s.seq := rfl
@[simp] theorem setCodes_ctrlIe (s : State) (cs : List (Byte × List Bool)) : (s.setCodes cs).ctrlIe = s.ctrlIe := rfl
@[simp] theorem setCodes_cmd (s : State) (cs : List (Byte × List Bool)) : (s.setCodes cs).cmd = s.cmd := rfl
@[simp] theorem setCodes_done (s : State) (cs : List (Byte × List Bool)) : (s.setCodes cs).done = s.done := rfl
@[simp] theorem setCodes_errcode (s : State) (cs : List (Byte × List Bool)) : (s.setCodes cs).errcode = s.errcode := rfl
@[simp] theorem setCodes_berr (s : State) (cs : List (Byte × List Bool)) : (s.setCodes cs).berr = s.berr := rfl
@[simp] theorem setCodes_busywr (s : State) (cs : List (Byte × List Bool)) : (s.setCodes cs).busywr = s.busywr := rfl
@[simp] theorem setCodes_errpos (s : State) (cs : List (Byte × List Bool)) : (s.setCodes cs).errpos = s.errpos := rfl
@[simp] theorem setCodes_inLen (s : State) (cs : List (Byte × List Bool)) : (s.setCodes cs).inLen = s.inLen := rfl
@[simp] theorem setCodes_inOff (s : State) (cs : List (Byte × List Bool)) : (s.setCodes cs).inOff = s.inOff := rfl
@[simp] theorem setCodes_outLen (s : State) (cs : List (Byte × List Bool)) : (s.setCodes cs).outLen = s.outLen := rfl
@[simp] theorem setCodes_symcount (s : State) (cs : List (Byte × List Bool)) : (s.setCodes cs).symcount = s.symcount := rfl
@[simp] theorem setCodes_treeLen (s : State) (cs : List (Byte × List Bool)) : (s.setCodes cs).treeLen = s.treeLen := rfl
@[simp] theorem setCodes_nsym (s : State) (cs : List (Byte × List Bool)) : (s.setCodes cs).nsym = s.nsym := rfl
@[simp] theorem setCodes_payloadLen (s : State) (cs : List (Byte × List Bool)) : (s.setCodes cs).payloadLen = s.payloadLen := rfl
@[simp] theorem setCodes_freq (s : State) (cs : List (Byte × List Bool)) : (s.setCodes cs).freq = s.freq := rfl
@[simp] theorem setCodes_codeLen (s : State) (cs : List (Byte × List Bool)) : (s.setCodes cs).codeLen = lenTable cs := rfl
@[simp] theorem setCodes_codeBits (s : State) (cs : List (Byte × List Bool)) : (s.setCodes cs).codeBits = entryTable cs := rfl
@[simp] theorem setCodes_codesValid (s : State) (cs : List (Byte × List Bool)) : (s.setCodes cs).codesValid = true := rfl
@[simp] theorem setCodes_tree (s : State) (cs : List (Byte × List Bool)) : (s.setCodes cs).tree = s.tree := rfl
@[simp] theorem setCodes_inbuf (s : State) (cs : List (Byte × List Bool)) : (s.setCodes cs).inbuf = s.inbuf := rfl
@[simp] theorem setCodes_outbuf (s : State) (cs : List (Byte × List Bool)) : (s.setCodes cs).outbuf = s.outbuf := rfl
@[simp] theorem setCodes_fault (s : State) (cs : List (Byte × List Bool)) : (s.setCodes cs).fault = s.fault := rfl
@[simp] theorem setCodes_agenda (s : State) (cs : List (Byte × List Bool)) : (s.setCodes cs).agenda = s.agenda := rfl
@[simp] theorem setCodes_rdata (s : State) (cs : List (Byte × List Bool)) : (s.setCodes cs).rdata = s.rdata := rfl
@[simp] theorem setCodes_draws (s : State) (cs : List (Byte × List Bool)) : (s.setCodes cs).draws = s.draws := rfl

@[simp] theorem setFreq_caps (s : State) (f : Vector Word 256) : (s.setFreq f).caps = s.caps := rfl
@[simp] theorem setFreq_seq (s : State) (f : Vector Word 256) : (s.setFreq f).seq = s.seq := rfl
@[simp] theorem setFreq_ctrlIe (s : State) (f : Vector Word 256) : (s.setFreq f).ctrlIe = s.ctrlIe := rfl
@[simp] theorem setFreq_cmd (s : State) (f : Vector Word 256) : (s.setFreq f).cmd = s.cmd := rfl
@[simp] theorem setFreq_done (s : State) (f : Vector Word 256) : (s.setFreq f).done = s.done := rfl
@[simp] theorem setFreq_errcode (s : State) (f : Vector Word 256) : (s.setFreq f).errcode = s.errcode := rfl
@[simp] theorem setFreq_berr (s : State) (f : Vector Word 256) : (s.setFreq f).berr = s.berr := rfl
@[simp] theorem setFreq_busywr (s : State) (f : Vector Word 256) : (s.setFreq f).busywr = s.busywr := rfl
@[simp] theorem setFreq_errpos (s : State) (f : Vector Word 256) : (s.setFreq f).errpos = s.errpos := rfl
@[simp] theorem setFreq_inLen (s : State) (f : Vector Word 256) : (s.setFreq f).inLen = s.inLen := rfl
@[simp] theorem setFreq_inOff (s : State) (f : Vector Word 256) : (s.setFreq f).inOff = s.inOff := rfl
@[simp] theorem setFreq_outLen (s : State) (f : Vector Word 256) : (s.setFreq f).outLen = s.outLen := rfl
@[simp] theorem setFreq_symcount (s : State) (f : Vector Word 256) : (s.setFreq f).symcount = s.symcount := rfl
@[simp] theorem setFreq_treeLen (s : State) (f : Vector Word 256) : (s.setFreq f).treeLen = s.treeLen := rfl
@[simp] theorem setFreq_nsym (s : State) (f : Vector Word 256) : (s.setFreq f).nsym = BitVec.ofNat 32 (symbolsOf f).length := rfl
@[simp] theorem setFreq_payloadLen (s : State) (f : Vector Word 256) : (s.setFreq f).payloadLen = s.payloadLen := rfl
@[simp] theorem setFreq_freq (s : State) (f : Vector Word 256) : (s.setFreq f).freq = f := rfl
@[simp] theorem setFreq_codeLen (s : State) (f : Vector Word 256) : (s.setFreq f).codeLen = s.codeLen := rfl
@[simp] theorem setFreq_codeBits (s : State) (f : Vector Word 256) : (s.setFreq f).codeBits = s.codeBits := rfl
@[simp] theorem setFreq_codesValid (s : State) (f : Vector Word 256) : (s.setFreq f).codesValid = s.codesValid := rfl
@[simp] theorem setFreq_tree (s : State) (f : Vector Word 256) : (s.setFreq f).tree = s.tree := rfl
@[simp] theorem setFreq_inbuf (s : State) (f : Vector Word 256) : (s.setFreq f).inbuf = s.inbuf := rfl
@[simp] theorem setFreq_outbuf (s : State) (f : Vector Word 256) : (s.setFreq f).outbuf = s.outbuf := rfl
@[simp] theorem setFreq_fault (s : State) (f : Vector Word 256) : (s.setFreq f).fault = s.fault := rfl
@[simp] theorem setFreq_agenda (s : State) (f : Vector Word 256) : (s.setFreq f).agenda = s.agenda := rfl
@[simp] theorem setFreq_rdata (s : State) (f : Vector Word 256) : (s.setFreq f).rdata = s.rdata := rfl
@[simp] theorem setFreq_draws (s : State) (f : Vector Word 256) : (s.setFreq f).draws = s.draws := rfl

@[simp] theorem writeOut_caps (s : State) (b : Nat) (bs : List Byte) : (s.writeOut b bs).caps = s.caps := rfl
@[simp] theorem writeOut_seq (s : State) (b : Nat) (bs : List Byte) : (s.writeOut b bs).seq = s.seq := rfl
@[simp] theorem writeOut_ctrlIe (s : State) (b : Nat) (bs : List Byte) : (s.writeOut b bs).ctrlIe = s.ctrlIe := rfl
@[simp] theorem writeOut_cmd (s : State) (b : Nat) (bs : List Byte) : (s.writeOut b bs).cmd = s.cmd := rfl
@[simp] theorem writeOut_done (s : State) (b : Nat) (bs : List Byte) : (s.writeOut b bs).done = s.done := rfl
@[simp] theorem writeOut_errcode (s : State) (b : Nat) (bs : List Byte) : (s.writeOut b bs).errcode = s.errcode := rfl
@[simp] theorem writeOut_berr (s : State) (b : Nat) (bs : List Byte) : (s.writeOut b bs).berr = s.berr := rfl
@[simp] theorem writeOut_busywr (s : State) (b : Nat) (bs : List Byte) : (s.writeOut b bs).busywr = s.busywr := rfl
@[simp] theorem writeOut_errpos (s : State) (b : Nat) (bs : List Byte) : (s.writeOut b bs).errpos = s.errpos := rfl
@[simp] theorem writeOut_inLen (s : State) (b : Nat) (bs : List Byte) : (s.writeOut b bs).inLen = s.inLen := rfl
@[simp] theorem writeOut_inOff (s : State) (b : Nat) (bs : List Byte) : (s.writeOut b bs).inOff = s.inOff := rfl
@[simp] theorem writeOut_outLen (s : State) (b : Nat) (bs : List Byte) : (s.writeOut b bs).outLen = s.outLen := rfl
@[simp] theorem writeOut_symcount (s : State) (b : Nat) (bs : List Byte) : (s.writeOut b bs).symcount = s.symcount := rfl
@[simp] theorem writeOut_treeLen (s : State) (b : Nat) (bs : List Byte) : (s.writeOut b bs).treeLen = s.treeLen := rfl
@[simp] theorem writeOut_nsym (s : State) (b : Nat) (bs : List Byte) : (s.writeOut b bs).nsym = s.nsym := rfl
@[simp] theorem writeOut_payloadLen (s : State) (b : Nat) (bs : List Byte) : (s.writeOut b bs).payloadLen = s.payloadLen := rfl
@[simp] theorem writeOut_freq (s : State) (b : Nat) (bs : List Byte) : (s.writeOut b bs).freq = s.freq := rfl
@[simp] theorem writeOut_codeLen (s : State) (b : Nat) (bs : List Byte) : (s.writeOut b bs).codeLen = s.codeLen := rfl
@[simp] theorem writeOut_codeBits (s : State) (b : Nat) (bs : List Byte) : (s.writeOut b bs).codeBits = s.codeBits := rfl
@[simp] theorem writeOut_codesValid (s : State) (b : Nat) (bs : List Byte) : (s.writeOut b bs).codesValid = s.codesValid := rfl
@[simp] theorem writeOut_tree (s : State) (b : Nat) (bs : List Byte) : (s.writeOut b bs).tree = s.tree := rfl
@[simp] theorem writeOut_inbuf (s : State) (b : Nat) (bs : List Byte) : (s.writeOut b bs).inbuf = s.inbuf := rfl
@[simp] theorem writeOut_outbuf (s : State) (b : Nat) (bs : List Byte) : (s.writeOut b bs).outbuf = s.outbuf.writeBytes b bs := rfl
@[simp] theorem writeOut_fault (s : State) (b : Nat) (bs : List Byte) : (s.writeOut b bs).fault = s.fault := rfl
@[simp] theorem writeOut_agenda (s : State) (b : Nat) (bs : List Byte) : (s.writeOut b bs).agenda = s.agenda := rfl
@[simp] theorem writeOut_rdata (s : State) (b : Nat) (bs : List Byte) : (s.writeOut b bs).rdata = s.rdata := rfl
@[simp] theorem writeOut_draws (s : State) (b : Nat) (bs : List Byte) : (s.writeOut b bs).draws = s.draws := rfl

@[simp] theorem clearBody_caps (s : State) : (clearBody s).caps = s.caps := rfl
@[simp] theorem clearBody_seq (s : State) : (clearBody s).seq = s.seq := rfl
@[simp] theorem clearBody_ctrlIe (s : State) : (clearBody s).ctrlIe = s.ctrlIe := rfl
@[simp] theorem clearBody_cmd (s : State) : (clearBody s).cmd = s.cmd := rfl
@[simp] theorem clearBody_done (s : State) : (clearBody s).done = s.done := rfl
@[simp] theorem clearBody_errcode (s : State) : (clearBody s).errcode = s.errcode := rfl
@[simp] theorem clearBody_berr (s : State) : (clearBody s).berr = s.berr := rfl
@[simp] theorem clearBody_busywr (s : State) : (clearBody s).busywr = s.busywr := rfl
@[simp] theorem clearBody_errpos (s : State) : (clearBody s).errpos = s.errpos := rfl
@[simp] theorem clearBody_inLen (s : State) : (clearBody s).inLen = s.inLen := rfl
@[simp] theorem clearBody_inOff (s : State) : (clearBody s).inOff = s.inOff := rfl
@[simp] theorem clearBody_outLen (s : State) : (clearBody s).outLen = 0 := rfl
@[simp] theorem clearBody_symcount (s : State) : (clearBody s).symcount = 0 := rfl
@[simp] theorem clearBody_treeLen (s : State) : (clearBody s).treeLen = 0 := rfl
@[simp] theorem clearBody_nsym (s : State) : (clearBody s).nsym = 0 := rfl
@[simp] theorem clearBody_payloadLen (s : State) : (clearBody s).payloadLen = 0 := rfl
@[simp] theorem clearBody_freq (s : State) : (clearBody s).freq = Vector.replicate 256 0 := rfl
@[simp] theorem clearBody_codeLen (s : State) : (clearBody s).codeLen = Vector.replicate 256 0 := rfl
@[simp] theorem clearBody_codeBits (s : State) : (clearBody s).codeBits = Vector.replicate 256 0 := rfl
@[simp] theorem clearBody_codesValid (s : State) : (clearBody s).codesValid = false := rfl
@[simp] theorem clearBody_tree (s : State) : (clearBody s).tree = none := rfl
@[simp] theorem clearBody_inbuf (s : State) : (clearBody s).inbuf = s.inbuf := rfl
@[simp] theorem clearBody_outbuf (s : State) : (clearBody s).outbuf = s.outbuf := rfl
@[simp] theorem clearBody_fault (s : State) : (clearBody s).fault = s.fault := rfl
@[simp] theorem clearBody_agenda (s : State) : (clearBody s).agenda = s.agenda := rfl
@[simp] theorem clearBody_rdata (s : State) : (clearBody s).rdata = s.rdata := rfl
@[simp] theorem clearBody_draws (s : State) : (clearBody s).draws = s.draws := rfl

@[simp] theorem resetEvent_caps (s : State) : (resetEvent s).caps = s.caps := rfl
@[simp] theorem resetEvent_seq (s : State) : (resetEvent s).seq = .idle := rfl
@[simp] theorem resetEvent_ctrlIe (s : State) : (resetEvent s).ctrlIe = false := rfl
@[simp] theorem resetEvent_cmd (s : State) : (resetEvent s).cmd = 0 := rfl
@[simp] theorem resetEvent_done (s : State) : (resetEvent s).done = false := rfl
@[simp] theorem resetEvent_errcode (s : State) : (resetEvent s).errcode = 0 := rfl
@[simp] theorem resetEvent_berr (s : State) : (resetEvent s).berr = false := rfl
@[simp] theorem resetEvent_busywr (s : State) : (resetEvent s).busywr = false := rfl
@[simp] theorem resetEvent_errpos (s : State) : (resetEvent s).errpos = 0 := rfl
@[simp] theorem resetEvent_inLen (s : State) : (resetEvent s).inLen = 0 := rfl
@[simp] theorem resetEvent_inOff (s : State) : (resetEvent s).inOff = 0 := rfl
@[simp] theorem resetEvent_outLen (s : State) : (resetEvent s).outLen = 0 := rfl
@[simp] theorem resetEvent_symcount (s : State) : (resetEvent s).symcount = 0 := rfl
@[simp] theorem resetEvent_treeLen (s : State) : (resetEvent s).treeLen = 0 := rfl
@[simp] theorem resetEvent_nsym (s : State) : (resetEvent s).nsym = 0 := rfl
@[simp] theorem resetEvent_payloadLen (s : State) : (resetEvent s).payloadLen = 0 := rfl
@[simp] theorem resetEvent_freq (s : State) : (resetEvent s).freq = Vector.replicate 256 0 := rfl
@[simp] theorem resetEvent_codeLen (s : State) : (resetEvent s).codeLen = Vector.replicate 256 0 := rfl
@[simp] theorem resetEvent_codeBits (s : State) : (resetEvent s).codeBits = Vector.replicate 256 0 := rfl
@[simp] theorem resetEvent_codesValid (s : State) : (resetEvent s).codesValid = false := rfl
@[simp] theorem resetEvent_tree (s : State) : (resetEvent s).tree = none := rfl
@[simp] theorem resetEvent_inbuf (s : State) : (resetEvent s).inbuf = [] := rfl
@[simp] theorem resetEvent_outbuf (s : State) : (resetEvent s).outbuf = [] := rfl
@[simp] theorem resetEvent_fault (s : State) : (resetEvent s).fault = s.fault := rfl
@[simp] theorem resetEvent_agenda (s : State) : (resetEvent s).agenda = s.agenda := rfl
@[simp] theorem resetEvent_rdata (s : State) : (resetEvent s).rdata = s.rdata := rfl
@[simp] theorem resetEvent_draws (s : State) : (resetEvent s).draws = s.draws := rfl

@[simp] theorem takeDraw_caps (s : State) (n : Nat) : (s.takeDraw n).caps = s.caps := rfl
@[simp] theorem takeDraw_seq (s : State) (n : Nat) : (s.takeDraw n).seq = s.seq := rfl
@[simp] theorem takeDraw_ctrlIe (s : State) (n : Nat) : (s.takeDraw n).ctrlIe = s.ctrlIe := rfl
@[simp] theorem takeDraw_cmd (s : State) (n : Nat) : (s.takeDraw n).cmd = s.cmd := rfl
@[simp] theorem takeDraw_done (s : State) (n : Nat) : (s.takeDraw n).done = s.done := rfl
@[simp] theorem takeDraw_errcode (s : State) (n : Nat) : (s.takeDraw n).errcode = s.errcode := rfl
@[simp] theorem takeDraw_berr (s : State) (n : Nat) : (s.takeDraw n).berr = s.berr := rfl
@[simp] theorem takeDraw_busywr (s : State) (n : Nat) : (s.takeDraw n).busywr = s.busywr := rfl
@[simp] theorem takeDraw_errpos (s : State) (n : Nat) : (s.takeDraw n).errpos = s.errpos := rfl
@[simp] theorem takeDraw_inLen (s : State) (n : Nat) : (s.takeDraw n).inLen = s.inLen := rfl
@[simp] theorem takeDraw_inOff (s : State) (n : Nat) : (s.takeDraw n).inOff = s.inOff := rfl
@[simp] theorem takeDraw_outLen (s : State) (n : Nat) : (s.takeDraw n).outLen = s.outLen := rfl
@[simp] theorem takeDraw_symcount (s : State) (n : Nat) : (s.takeDraw n).symcount = s.symcount := rfl
@[simp] theorem takeDraw_treeLen (s : State) (n : Nat) : (s.takeDraw n).treeLen = s.treeLen := rfl
@[simp] theorem takeDraw_nsym (s : State) (n : Nat) : (s.takeDraw n).nsym = s.nsym := rfl
@[simp] theorem takeDraw_payloadLen (s : State) (n : Nat) : (s.takeDraw n).payloadLen = s.payloadLen := rfl
@[simp] theorem takeDraw_freq (s : State) (n : Nat) : (s.takeDraw n).freq = s.freq := rfl
@[simp] theorem takeDraw_codeLen (s : State) (n : Nat) : (s.takeDraw n).codeLen = s.codeLen := rfl
@[simp] theorem takeDraw_codeBits (s : State) (n : Nat) : (s.takeDraw n).codeBits = s.codeBits := rfl
@[simp] theorem takeDraw_codesValid (s : State) (n : Nat) : (s.takeDraw n).codesValid = s.codesValid := rfl
@[simp] theorem takeDraw_tree (s : State) (n : Nat) : (s.takeDraw n).tree = s.tree := rfl
@[simp] theorem takeDraw_inbuf (s : State) (n : Nat) : (s.takeDraw n).inbuf = s.inbuf := rfl
@[simp] theorem takeDraw_outbuf (s : State) (n : Nat) : (s.takeDraw n).outbuf = s.outbuf := rfl
@[simp] theorem takeDraw_fault (s : State) (n : Nat) : (s.takeDraw n).fault = s.fault := rfl
@[simp] theorem takeDraw_agenda (s : State) (n : Nat) : (s.takeDraw n).agenda = s.agenda := rfl
@[simp] theorem takeDraw_rdata (s : State) (n : Nat) : (s.takeDraw n).rdata = drawn n s.draws := rfl
@[simp] theorem takeDraw_draws (s : State) (n : Nat) : (s.takeDraw n).draws = s.draws + 1 := rfl

@[simp] theorem completed_caps (s : State) : s.completed.caps = s.caps := rfl
@[simp] theorem completed_seq (s : State) : s.completed.seq = .idle := rfl
@[simp] theorem completed_ctrlIe (s : State) : s.completed.ctrlIe = s.ctrlIe := rfl
@[simp] theorem completed_cmd (s : State) : s.completed.cmd = s.cmd := rfl
@[simp] theorem completed_done (s : State) : s.completed.done = true := rfl
@[simp] theorem completed_errcode (s : State) : s.completed.errcode = 0 := rfl
@[simp] theorem completed_berr (s : State) : s.completed.berr = s.berr := rfl
@[simp] theorem completed_busywr (s : State) : s.completed.busywr = s.busywr := rfl
@[simp] theorem completed_errpos (s : State) : s.completed.errpos = 0 := rfl
@[simp] theorem completed_inLen (s : State) : s.completed.inLen = s.inLen := rfl
@[simp] theorem completed_inOff (s : State) : s.completed.inOff = s.inOff := rfl
@[simp] theorem completed_outLen (s : State) : s.completed.outLen = s.outLen := rfl
@[simp] theorem completed_symcount (s : State) : s.completed.symcount = s.symcount := rfl
@[simp] theorem completed_treeLen (s : State) : s.completed.treeLen = s.treeLen := rfl
@[simp] theorem completed_nsym (s : State) : s.completed.nsym = s.nsym := rfl
@[simp] theorem completed_payloadLen (s : State) : s.completed.payloadLen = s.payloadLen := rfl
@[simp] theorem completed_freq (s : State) : s.completed.freq = s.freq := rfl
@[simp] theorem completed_codeLen (s : State) : s.completed.codeLen = s.codeLen := rfl
@[simp] theorem completed_codeBits (s : State) : s.completed.codeBits = s.codeBits := rfl
@[simp] theorem completed_codesValid (s : State) : s.completed.codesValid = s.codesValid := rfl
@[simp] theorem completed_tree (s : State) : s.completed.tree = s.tree := rfl
@[simp] theorem completed_inbuf (s : State) : s.completed.inbuf = s.inbuf := rfl
@[simp] theorem completed_outbuf (s : State) : s.completed.outbuf = s.outbuf := rfl
@[simp] theorem completed_fault (s : State) : s.completed.fault = s.fault := rfl
@[simp] theorem completed_agenda (s : State) : s.completed.agenda = s.agenda := rfl
@[simp] theorem completed_rdata (s : State) : s.completed.rdata = s.rdata := rfl
@[simp] theorem completed_draws (s : State) : s.completed.draws = s.draws := rfl

@[simp] theorem failed_caps (s : State) (e : ErrKind) (p : Nat) : (s.failed e p).caps = s.caps := rfl
@[simp] theorem failed_seq (s : State) (e : ErrKind) (p : Nat) : (s.failed e p).seq = .idle := rfl
@[simp] theorem failed_ctrlIe (s : State) (e : ErrKind) (p : Nat) : (s.failed e p).ctrlIe = s.ctrlIe := rfl
@[simp] theorem failed_cmd (s : State) (e : ErrKind) (p : Nat) : (s.failed e p).cmd = s.cmd := rfl
@[simp] theorem failed_done (s : State) (e : ErrKind) (p : Nat) : (s.failed e p).done = true := rfl
@[simp] theorem failed_errcode (s : State) (e : ErrKind) (p : Nat) : (s.failed e p).errcode = e.code := rfl
@[simp] theorem failed_berr (s : State) (e : ErrKind) (p : Nat) : (s.failed e p).berr = s.berr := rfl
@[simp] theorem failed_busywr (s : State) (e : ErrKind) (p : Nat) : (s.failed e p).busywr = s.busywr := rfl
@[simp] theorem failed_errpos (s : State) (e : ErrKind) (p : Nat) : (s.failed e p).errpos = BitVec.ofNat 32 p := rfl
@[simp] theorem failed_inLen (s : State) (e : ErrKind) (p : Nat) : (s.failed e p).inLen = s.inLen := rfl
@[simp] theorem failed_inOff (s : State) (e : ErrKind) (p : Nat) : (s.failed e p).inOff = s.inOff := rfl
@[simp] theorem failed_outLen (s : State) (e : ErrKind) (p : Nat) : (s.failed e p).outLen = s.outLen := rfl
@[simp] theorem failed_symcount (s : State) (e : ErrKind) (p : Nat) : (s.failed e p).symcount = s.symcount := rfl
@[simp] theorem failed_treeLen (s : State) (e : ErrKind) (p : Nat) : (s.failed e p).treeLen = s.treeLen := rfl
@[simp] theorem failed_nsym (s : State) (e : ErrKind) (p : Nat) : (s.failed e p).nsym = s.nsym := rfl
@[simp] theorem failed_payloadLen (s : State) (e : ErrKind) (p : Nat) : (s.failed e p).payloadLen = s.payloadLen := rfl
@[simp] theorem failed_freq (s : State) (e : ErrKind) (p : Nat) : (s.failed e p).freq = s.freq := rfl
@[simp] theorem failed_codeLen (s : State) (e : ErrKind) (p : Nat) : (s.failed e p).codeLen = s.codeLen := rfl
@[simp] theorem failed_codeBits (s : State) (e : ErrKind) (p : Nat) : (s.failed e p).codeBits = s.codeBits := rfl
@[simp] theorem failed_codesValid (s : State) (e : ErrKind) (p : Nat) : (s.failed e p).codesValid = s.codesValid := rfl
@[simp] theorem failed_tree (s : State) (e : ErrKind) (p : Nat) : (s.failed e p).tree = s.tree := rfl
@[simp] theorem failed_inbuf (s : State) (e : ErrKind) (p : Nat) : (s.failed e p).inbuf = s.inbuf := rfl
@[simp] theorem failed_outbuf (s : State) (e : ErrKind) (p : Nat) : (s.failed e p).outbuf = s.outbuf := rfl
@[simp] theorem failed_fault (s : State) (e : ErrKind) (p : Nat) : (s.failed e p).fault = s.fault := rfl
@[simp] theorem failed_agenda (s : State) (e : ErrKind) (p : Nat) : (s.failed e p).agenda = s.agenda := rfl
@[simp] theorem failed_rdata (s : State) (e : ErrKind) (p : Nat) : (s.failed e p).rdata = s.rdata := rfl
@[simp] theorem failed_draws (s : State) (e : ErrKind) (p : Nat) : (s.failed e p).draws = s.draws := rfl

@[simp] theorem failedOut_caps (s : State) (e : ErrKind) (p : Nat) : (s.failedOut e p).caps = s.caps := rfl
@[simp] theorem failedOut_seq (s : State) (e : ErrKind) (p : Nat) : (s.failedOut e p).seq = .idle := rfl
@[simp] theorem failedOut_ctrlIe (s : State) (e : ErrKind) (p : Nat) : (s.failedOut e p).ctrlIe = s.ctrlIe := rfl
@[simp] theorem failedOut_cmd (s : State) (e : ErrKind) (p : Nat) : (s.failedOut e p).cmd = s.cmd := rfl
@[simp] theorem failedOut_done (s : State) (e : ErrKind) (p : Nat) : (s.failedOut e p).done = true := rfl
@[simp] theorem failedOut_errcode (s : State) (e : ErrKind) (p : Nat) : (s.failedOut e p).errcode = e.code := rfl
@[simp] theorem failedOut_berr (s : State) (e : ErrKind) (p : Nat) : (s.failedOut e p).berr = s.berr := rfl
@[simp] theorem failedOut_busywr (s : State) (e : ErrKind) (p : Nat) : (s.failedOut e p).busywr = s.busywr := rfl
@[simp] theorem failedOut_errpos (s : State) (e : ErrKind) (p : Nat) : (s.failedOut e p).errpos = BitVec.ofNat 32 p := rfl
@[simp] theorem failedOut_inLen (s : State) (e : ErrKind) (p : Nat) : (s.failedOut e p).inLen = s.inLen := rfl
@[simp] theorem failedOut_inOff (s : State) (e : ErrKind) (p : Nat) : (s.failedOut e p).inOff = s.inOff := rfl
@[simp] theorem failedOut_outLen (s : State) (e : ErrKind) (p : Nat) : (s.failedOut e p).outLen = 0 := rfl
@[simp] theorem failedOut_symcount (s : State) (e : ErrKind) (p : Nat) : (s.failedOut e p).symcount = s.symcount := rfl
@[simp] theorem failedOut_treeLen (s : State) (e : ErrKind) (p : Nat) : (s.failedOut e p).treeLen = s.treeLen := rfl
@[simp] theorem failedOut_nsym (s : State) (e : ErrKind) (p : Nat) : (s.failedOut e p).nsym = s.nsym := rfl
@[simp] theorem failedOut_payloadLen (s : State) (e : ErrKind) (p : Nat) : (s.failedOut e p).payloadLen = s.payloadLen := rfl
@[simp] theorem failedOut_freq (s : State) (e : ErrKind) (p : Nat) : (s.failedOut e p).freq = s.freq := rfl
@[simp] theorem failedOut_codeLen (s : State) (e : ErrKind) (p : Nat) : (s.failedOut e p).codeLen = s.codeLen := rfl
@[simp] theorem failedOut_codeBits (s : State) (e : ErrKind) (p : Nat) : (s.failedOut e p).codeBits = s.codeBits := rfl
@[simp] theorem failedOut_codesValid (s : State) (e : ErrKind) (p : Nat) : (s.failedOut e p).codesValid = s.codesValid := rfl
@[simp] theorem failedOut_tree (s : State) (e : ErrKind) (p : Nat) : (s.failedOut e p).tree = s.tree := rfl
@[simp] theorem failedOut_inbuf (s : State) (e : ErrKind) (p : Nat) : (s.failedOut e p).inbuf = s.inbuf := rfl
@[simp] theorem failedOut_outbuf (s : State) (e : ErrKind) (p : Nat) : (s.failedOut e p).outbuf = s.outbuf := rfl
@[simp] theorem failedOut_fault (s : State) (e : ErrKind) (p : Nat) : (s.failedOut e p).fault = s.fault := rfl
@[simp] theorem failedOut_agenda (s : State) (e : ErrKind) (p : Nat) : (s.failedOut e p).agenda = s.agenda := rfl
@[simp] theorem failedOut_rdata (s : State) (e : ErrKind) (p : Nat) : (s.failedOut e p).rdata = s.rdata := rfl
@[simp] theorem failedOut_draws (s : State) (e : ErrKind) (p : Nat) : (s.failedOut e p).draws = s.draws := rfl

@[simp] theorem faulted_caps (s : State) (i : Nat) : (s.faulted i).caps = s.caps := rfl
@[simp] theorem faulted_seq (s : State) (i : Nat) : (s.faulted i).seq = .idle := rfl
@[simp] theorem faulted_ctrlIe (s : State) (i : Nat) : (s.faulted i).ctrlIe = s.ctrlIe := rfl
@[simp] theorem faulted_cmd (s : State) (i : Nat) : (s.faulted i).cmd = s.cmd := rfl
@[simp] theorem faulted_done (s : State) (i : Nat) : (s.faulted i).done = true := rfl
@[simp] theorem faulted_errcode (s : State) (i : Nat) : (s.faulted i).errcode = s.errcode := rfl
@[simp] theorem faulted_berr (s : State) (i : Nat) : (s.faulted i).berr = s.berr := rfl
@[simp] theorem faulted_busywr (s : State) (i : Nat) : (s.faulted i).busywr = s.busywr := rfl
@[simp] theorem faulted_errpos (s : State) (i : Nat) : (s.faulted i).errpos = s.errpos := rfl
@[simp] theorem faulted_inLen (s : State) (i : Nat) : (s.faulted i).inLen = s.inLen := rfl
@[simp] theorem faulted_inOff (s : State) (i : Nat) : (s.faulted i).inOff = s.inOff := rfl
@[simp] theorem faulted_outLen (s : State) (i : Nat) : (s.faulted i).outLen = s.outLen := rfl
@[simp] theorem faulted_symcount (s : State) (i : Nat) : (s.faulted i).symcount = s.symcount := rfl
@[simp] theorem faulted_treeLen (s : State) (i : Nat) : (s.faulted i).treeLen = s.treeLen := rfl
@[simp] theorem faulted_nsym (s : State) (i : Nat) : (s.faulted i).nsym = s.nsym := rfl
@[simp] theorem faulted_payloadLen (s : State) (i : Nat) : (s.faulted i).payloadLen = s.payloadLen := rfl
@[simp] theorem faulted_freq (s : State) (i : Nat) : (s.faulted i).freq = s.freq := rfl
@[simp] theorem faulted_codeLen (s : State) (i : Nat) : (s.faulted i).codeLen = s.codeLen := rfl
@[simp] theorem faulted_codeBits (s : State) (i : Nat) : (s.faulted i).codeBits = s.codeBits := rfl
@[simp] theorem faulted_codesValid (s : State) (i : Nat) : (s.faulted i).codesValid = s.codesValid := rfl
@[simp] theorem faulted_tree (s : State) (i : Nat) : (s.faulted i).tree = s.tree := rfl
@[simp] theorem faulted_inbuf (s : State) (i : Nat) : (s.faulted i).inbuf = s.inbuf := rfl
@[simp] theorem faulted_outbuf (s : State) (i : Nat) : (s.faulted i).outbuf = s.outbuf := rfl
@[simp] theorem faulted_fault (s : State) (i : Nat) : (s.faulted i).fault = some (.uninitRead i) := rfl
@[simp] theorem faulted_agenda (s : State) (i : Nat) : (s.faulted i).agenda = s.agenda := rfl
@[simp] theorem faulted_rdata (s : State) (i : Nat) : (s.faulted i).rdata = s.rdata := rfl
@[simp] theorem faulted_draws (s : State) (i : Nat) : (s.faulted i).draws = s.draws := rfl

end Sys2Proof.Machine
end

