-- ==== Sys2Proof/Laws/Ops.lean ====
section
/-! SUPPORT. The laws of the byte buffers, of a command rule's checks, and of the completion step. -/

namespace Sys2Proof.Machine

/-! ## The byte buffers (10_state.md R54) -/

@[simp] theorem Memory.read_nil (i : Nat) : Memory.read [] i = none := rfl

/-- A read after a write gives the byte written at its index and what was there before everywhere else. -/
theorem Memory.read_write (m : Memory) (i j : Nat) (b : Byte) :
    (m.write i b).read j = if j = i then some b else m.read j := by
  induction m with
  | nil => simp only [Memory.write, Memory.read]
  | cons c rest ih =>
    obtain ⟨k, c⟩ := c
    rw [Memory.write]
    by_cases h1 : i < k
    · rw [if_pos h1, Memory.read]
    · rw [if_neg h1]
      by_cases h2 : i = k
      · subst h2
        rw [if_pos rfl, Memory.read, Memory.read]
        split_ifs <;> rfl
      · rw [if_neg h2, Memory.read, Memory.read, ih]
        split_ifs <;> first | rfl | omega

@[simp] theorem Memory.read_write_same (m : Memory) (i : Nat) (b : Byte) : (m.write i b).read i = some b := by
  simp [Memory.read_write]

theorem Memory.read_write_other (m : Memory) {i j : Nat} (b : Byte) (h : j ≠ i) :
    (m.write i b).read j = m.read j := by
  simp [Memory.read_write, h]

/-- The indices a write leaves listed: the old ones and the one written. -/
theorem Memory.mem_write {m : Memory} {i : Nat} {b : Byte} {c : Host.Cell} (h : c ∈ m.write i b) :
    c = (i, b) ∨ c ∈ m := by
  induction m with
  | nil => simpa [Memory.write] using h
  | cons d rest ih =>
    obtain ⟨k, d⟩ := d
    simp only [Memory.write] at h
    split_ifs at h <;> simp only [List.mem_cons] at h ⊢ <;> tauto

/-- A write keeps the canonical form. -/
theorem Memory.wf_write {m : Memory} (h : m.wf) (i : Nat) (b : Byte) : (m.write i b).wf := by
  induction m with
  | nil => simp [Memory.write, Memory.wf]
  | cons c rest ih =>
    obtain ⟨k, c⟩ := c
    simp only [Memory.wf, List.map_cons, List.pairwise_cons, List.mem_map, forall_exists_index, and_imp,
      forall_apply_eq_imp_iff₂] at h ih ⊢
    simp only [Memory.write]
    split_ifs with h1 h2
    · simp only [List.map_cons, List.pairwise_cons, List.mem_cons, List.mem_map]
      refine ⟨?_, ?_, h.2⟩
      · rintro a (rfl | ⟨x, hx, rfl⟩)
        · exact h1
        · exact h1.trans (h.1 x hx)
      · rintro a ⟨x, hx, rfl⟩; exact h.1 x hx
    · subst h2
      simp only [List.map_cons, List.pairwise_cons, List.mem_map]
      exact ⟨by rintro a ⟨x, hx, rfl⟩; exact h.1 x hx, h.2⟩
    · simp only [List.map_cons, List.pairwise_cons, List.mem_map]
      refine ⟨?_, ih h.2⟩
      rintro a ⟨x, hx, rfl⟩
      rcases Memory.mem_write hx with rfl | hx
      · simp only; omega
      · exact h.1 x hx

theorem Memory.wf_writeBytes {m : Memory} (h : m.wf) (base : Nat) (bs : List Byte) : (m.writeBytes base bs).wf := by
  induction bs generalizing m base with
  | nil => exact h
  | cons b bs ih => exact ih (Memory.wf_write h base b) (base + 1)

theorem Memory.mem_writeBytes {m : Memory} {base : Nat} {bs : List Byte} {c : Host.Cell}
    (h : c ∈ m.writeBytes base bs) : c ∈ m ∨ (base ≤ c.1 ∧ c.1 < base + bs.length) := by
  induction bs generalizing m base with
  | nil => exact .inl h
  | cons b bs ih =>
    rcases ih h with h | h
    · rcases Memory.mem_write h with rfl | h
      · right; simp
      · exact .inl h
    · right; simp only [List.length_cons]; omega

/-- Reading after writing a byte string: the string's bytes inside it, the old ones outside. -/
theorem Memory.read_writeBytes (m : Memory) (base : Nat) (bs : List Byte) (i : Nat) :
    (m.writeBytes base bs).read i =
      if base ≤ i ∧ i < base + bs.length then bs[i - base]? else m.read i := by
  induction bs generalizing m base with
  | nil => simp [Memory.writeBytes]
  | cons b bs ih =>
    simp only [Memory.writeBytes, ih, Memory.read_write, List.length_cons]
    by_cases h : i = base
    · subst h; simp
    · by_cases h2 : base + 1 ≤ i ∧ i < base + 1 + bs.length
      · rw [if_pos h2, if_pos (by omega), show i - base = (i - (base + 1)) + 1 by omega, List.getElem?_cons_succ]
      · rw [if_neg h2, if_neg h, if_neg (by omega)]

/-- A stretch of writes leaves every index outside it alone. -/
theorem Memory.read_writeBytes_outside (m : Memory) {base : Nat} {bs : List Byte} {i : Nat}
    (h : i < base ∨ base + bs.length ≤ i) : (m.writeBytes base bs).read i = m.read i := by
  rw [Memory.read_writeBytes, if_neg (by omega)]

theorem Memory.writeBytes_holds (m : Memory) (base : Nat) (bs : List Byte) : HoldsAt (m.writeBytes base bs) base bs := by
  intro k b h
  have hk : k < bs.length := (List.getElem?_eq_some_iff.1 h).1
  rw [Memory.read_writeBytes, if_pos (by omega), Nat.add_sub_cancel_left, h]

theorem Memory.writeBytes_append (m : Memory) (base : Nat) (xs ys : List Byte) :
    m.writeBytes base (xs ++ ys) = (m.writeBytes base xs).writeBytes (base + xs.length) ys := by
  induction xs generalizing m base with
  | nil => rfl
  | cons x xs ih =>
    simp only [List.cons_append, Memory.writeBytes, ih, List.length_cons]
    rw [show base + 1 + xs.length = base + (xs.length + 1) by omega]

/-- Where a buffer in canonical form lists an index, its read is the byte listed there. -/
theorem Memory.read_isSome_mem {m : Memory} {i : Nat} {b : Byte} (h : m.read i = some b) : (i, b) ∈ m := by
  induction m with
  | nil => simp at h
  | cons c rest ih =>
    obtain ⟨k, c⟩ := c
    simp only [Memory.read] at h
    split_ifs at h with h1
    · simp_all
    · exact List.mem_cons_of_mem _ (ih h)

/-! ## Byte strings in a buffer -/

@[simp] theorem HoldsAt.nil (m : Memory) (base : Nat) : HoldsAt m base [] := by
  intro k b h; simp at h

theorem HoldsAt.cons {m : Memory} {base : Nat} {b : Byte} {bs : List Byte} :
    HoldsAt m base (b :: bs) ↔ m.read base = some b ∧ HoldsAt m (base + 1) bs := by
  constructor
  · intro h
    refine ⟨by simpa using h 0 b (by simp), fun k c hk => ?_⟩
    have := h (k + 1) c (by simpa using hk)
    rwa [show base + (k + 1) = base + 1 + k by omega] at this
  · rintro ⟨h0, h⟩ k c hk
    cases k with
    | zero => simp_all
    | succ k =>
      have := h k c (by simpa using hk)
      rwa [show base + 1 + k = base + (k + 1) by omega] at this

theorem HoldsAt.append {m : Memory} {base : Nat} {xs ys : List Byte} :
    HoldsAt m base (xs ++ ys) ↔ HoldsAt m base xs ∧ HoldsAt m (base + xs.length) ys := by
  induction xs generalizing base with
  | nil => simp
  | cons x xs ih =>
    simp only [List.cons_append, HoldsAt.cons, ih, List.length_cons, and_assoc]
    rw [show base + 1 + xs.length = base + (xs.length + 1) by omega]

/-- Two byte strings of one length at one place are the same. -/
theorem HoldsAt.unique {m : Memory} {base : Nat} {xs ys : List Byte} (hx : HoldsAt m base xs) (hy : HoldsAt m base ys)
    (h : xs.length = ys.length) : xs = ys := by
  apply List.ext_getElem h
  intro i h1 h2
  have a := hx i _ (List.getElem?_eq_getElem h1)
  have b := hy i _ (List.getElem?_eq_getElem h2)
  exact Option.some.inj (a.symm.trans b)

/-! ## Command rules -/

/-- A rule goes on with `f` exactly when its first part did not stop. -/
theorem bind_eq_ok {α β : Type} {x : Except Stop α} {f : α → Except Stop β} {b : β} :
    (x >>= f) = .ok b ↔ ∃ a, x = .ok a ∧ f a = .ok b := by
  cases x with
  | ok a => simp [bind, Except.bind]
  | error e => simp [bind, Except.bind]

@[simp] theorem ok_bind {α β : Type} (a : α) (f : α → Except Stop β) : ((.ok a : Except Stop α) >>= f) = f a := rfl

@[simp] theorem raise_bind {α β : Type} (e : ErrKind) (p : Nat) (f : α → Except Stop β) :
    ((raise e p : Except Stop α) >>= f) = raise e p := rfl

@[simp] theorem error_bind {α β : Type} (e : Stop) (f : α → Except Stop β) :
    ((.error e : Except Stop α) >>= f) = .error e := rfl

@[simp] theorem raise_ne_ok {α : Type} (e : ErrKind) (p : Nat) (a : α) : (raise e p : Except Stop α) ≠ .ok a := by
  simp [raise]

theorem ensure_pos {p : Prop} [Decidable p] (h : p) (e : ErrKind) (pos : Nat) : ensure p e pos = .ok () := if_pos h

theorem ensure_neg {p : Prop} [Decidable p] (h : ¬p) (e : ErrKind) (pos : Nat) : ensure p e pos = raise e pos :=
  if_neg h

@[simp] theorem ensure_eq_ok {p : Prop} [Decidable p] {e : ErrKind} {pos : Nat} {u : Unit} :
    ensure p e pos = .ok u ↔ p := by
  by_cases h : p <;> simp [ensure, h]

/-! ## The completion step (40_command_protocol.md R162 to R165) -/

theorem complete_ok (c : Bool) (s t : State) : complete c s (.ok t) = t.completed := rfl

theorem complete_raise (c : Bool) (s : State) (e : ErrKind) (p : Nat) :
    complete c s (raise e p) = if c then s.failedOut e p else s.failed e p := by
  cases c <;> rfl

theorem complete_fault (c : Bool) (s : State) (i : Nat) :
    complete c s (.error (.fault (.uninitRead i))) = s.faulted i := rfl

/-- Everything a completion can be: a success, an error commit or the fault mark. -/
theorem complete_cases (c : Bool) (s : State) (r : Except Stop State) :
    (∃ t, r = .ok t ∧ complete c s r = t.completed) ∨
      (∃ e p, r = raise e p ∧ complete c s r = if c then s.failedOut e p else s.failed e p) ∨
      (∃ i, r = .error (.fault (.uninitRead i)) ∧ complete c s r = s.faulted i) := by
  match r with
  | .ok t => exact .inl ⟨t, rfl, rfl⟩
  | .error (.err e p) => exact .inr (.inl ⟨e, p, rfl, complete_raise c s e p⟩)
  | .error (.fault (.uninitRead i)) => exact .inr (.inr ⟨i, rfl, rfl⟩)

/-- An illegal word's completion changes the error fields alone (30_encoding.md R111). -/
theorem illegalCommand_eq (s : State) : illegalCommand s = s.failed .illegalCommand 0 := rfl

@[simp] theorem ErrKind.code_ne_zero (e : ErrKind) : e.code ≠ 0 := by cases e <;> decide

theorem ErrKind.code_le (e : ErrKind) : e.code.toNat ≤ 8 := by cases e <;> decide

end Sys2Proof.Machine
end

