-- ==== Sys2Proof/Laws/Operands.lean ====
section
/-! SUPPORT. The laws of the commands' operands: reading IN, bit strings and their packing, and the tables. -/

namespace Sys2Proof.Machine

/-! ## Reading IN -/

@[simp] theorem inByte_eq_ok {s : State} {i : Nat} {b : Byte} : inByte s i = .ok b ↔ s.inbuf.read i = some b := by
  unfold inByte; split <;> simp_all

theorem inByte_of_read {s : State} {i : Nat} {b : Byte} (h : s.inbuf.read i = some b) : inByte s i = .ok b :=
  inByte_eq_ok.2 h

theorem inByte_of_unwritten {s : State} {i : Nat} (h : s.inbuf.read i = none) :
    inByte s i = .error (.fault (.uninitRead i)) := by
  simp [inByte, h]

/-- Reading a stretch of IN gives exactly the bytes it holds. -/
theorem inBytes_eq_ok {s : State} {i k : Nat} {bs : List Byte} :
    inBytes s i k = .ok bs ↔ bs.length = k ∧ HoldsAt s.inbuf i bs := by
  induction k generalizing i bs with
  | zero => cases bs <;> simp [inBytes]
  | succ k ih =>
    simp only [inBytes, bind_eq_ok, inByte_eq_ok, ih]
    constructor
    · rintro ⟨b, hb, rest, ⟨hl, hr⟩, h⟩
      obtain rfl : b :: rest = bs := by simpa using h
      exact ⟨by simp [hl], HoldsAt.cons.2 ⟨hb, hr⟩⟩
    · rintro ⟨hl, h⟩
      cases bs with
      | nil => simp at hl
      | cons b rest =>
        obtain ⟨hb, hr⟩ := HoldsAt.cons.1 h
        exact ⟨b, hb, rest, ⟨by simpa using hl, hr⟩, rfl⟩

theorem inBytes_of_holds {s : State} {i : Nat} {bs : List Byte} (h : HoldsAt s.inbuf i bs) :
    inBytes s i bs.length = .ok bs := inBytes_eq_ok.2 ⟨rfl, h⟩

/-- Reading a stretch of IN stops only at a byte that was never written, the first one. -/
theorem inBytes_unwritten {s : State} {i k : Nat} {bs : List Byte} (h : HoldsAt s.inbuf i bs) (hk : bs.length < k)
    (hu : s.inbuf.read (i + bs.length) = none) :
    inBytes s i k = .error (.fault (.uninitRead (i + bs.length))) := by
  induction bs generalizing i k with
  | nil =>
    cases k with
    | zero => simp at hk
    | succ k => simp only [inBytes]; rw [inByte_of_unwritten (by simpa using hu)]; rfl
  | cons b bs ih =>
    obtain ⟨hb, hr⟩ := HoldsAt.cons.1 h
    cases k with
    | zero => simp at hk
    | succ k =>
      simp only [inBytes, inByte_of_read hb, ok_bind]
      have e : i + (b :: bs).length = i + 1 + bs.length := by simp only [List.length_cons]; omega
      rw [e] at hu ⊢
      rw [ih hr (by simpa using hk) hu]; rfl

theorem checkInLen_ok {s : State} (h : s.inLen.toNat ≤ s.caps.inCap) : checkInLen s = .ok () := ensure_pos h _ _

theorem checkInLen_raise {s : State} (h : s.caps.inCap < s.inLen.toNat) :
    checkInLen s = raise .resourceLimit 0 := ensure_neg (by omega) _ _

theorem State.HasInput.bound {s : State} {bytes : List Byte} (h : s.HasInput bytes) : s.inLen.toNat ≤ s.caps.inCap := by
  obtain ⟨h1, h2, -⟩ := h; omega

/-! ## Bit strings (00_scope.md R16, R17; 45_bitstream_writer.md R252) -/

theorem msbNat_lt (w : Nat) (bits : List Bool) : msbNat w bits < 2 ^ w := by
  induction w generalizing bits with
  | zero => simp [msbNat]
  | succ w ih =>
    cases bits with
    | nil => simp [msbNat]
    | cons b bits =>
      have := ih bits
      simp only [msbNat, pow_succ]
      cases b <;> simp <;> omega

/-- Bit `w-1-j` of the number is bit `j` of the string, 0 past its end. -/
theorem testBit_msbNat {w j : Nat} (bits : List Bool) (h : j < w) :
    (msbNat w bits).testBit (w - 1 - j) = bits.getD j false := by
  induction w generalizing bits j with
  | zero => omega
  | succ w ih =>
    cases bits with
    | nil => simp [msbNat]
    | cons b bits =>
      simp only [msbNat]
      have hlt := msbNat_lt w bits
      cases j with
      | zero =>
        simp only [Nat.add_sub_cancel, Nat.sub_zero, List.getD_cons_zero]
        rw [Nat.mul_comm, Nat.testBit_two_pow_mul_add _ hlt, if_neg (lt_irrefl w), Nat.sub_self]
        cases b <;> rfl
      | succ j =>
        have e : w + 1 - 1 - (j + 1) = w - 1 - j := by omega
        rw [e, List.getD_cons_succ, Nat.mul_comm, Nat.testBit_two_pow_mul_add _ hlt, if_pos (by omega), ih bits (by omega)]

theorem ceil8_mul (k : Nat) : ceil8 (8 * k) = k := by unfold ceil8; omega

theorem ceil8_mono {m n : Nat} (h : m ≤ n) : ceil8 m ≤ ceil8 n := by unfold ceil8; omega

/-- Bit `j` of a byte made from eight bits. -/
theorem byteBit_msbNat (bits : List Bool) {j : Nat} (h : j < 8) :
    byteBit (BitVec.ofNat 8 (msbNat 8 bits)) j = bits.getD j false := by
  rw [byteBit, BitVec.getLsbD_ofNat, ← testBit_msbNat bits h]
  simp; omega

@[simp] theorem length_packBytes (k : Nat) (bits : List Bool) : (packBytes k bits).length = k := by
  induction k generalizing bits with
  | zero => rfl
  | succ k ih => simp [packBytes, ih]

theorem length_packed (bits : List Bool) : (packed bits).length = ceil8 bits.length := length_packBytes _ _

theorem packBytes_bit (k : Nat) (bits : List Bool) (j : Nat) (h : j < 8 * k) :
    ∃ byte, (packBytes k bits)[j / 8]? = some byte ∧ byteBit byte (j % 8) = bits.getD j false := by
  induction k generalizing bits j with
  | zero => omega
  | succ k ih =>
    by_cases h8 : j < 8
    · refine ⟨_, by rw [Nat.div_eq_of_lt h8]; rfl, ?_⟩
      rw [Nat.mod_eq_of_lt h8, byteBit_msbNat bits h8]
    · obtain ⟨byte, h1, h2⟩ := ih (bits.drop 8) (j - 8) (by omega)
      refine ⟨byte, ?_, ?_⟩
      · rw [show j / 8 = (j - 8) / 8 + 1 by omega]; exact h1
      · rw [show j % 8 = (j - 8) % 8 by omega, h2]
        simp [List.getD_eq_getElem?_getD, List.getElem?_drop, show 8 + (j - 8) = j by omega]

/-- Bit `j` of the packed string is bit `j` of the bits, and 0 in the padding. -/
theorem packed_bit (bits : List Bool) (j : Nat) (h : j < 8 * (packed bits).length) :
    ∃ byte, (packed bits)[j / 8]? = some byte ∧ byteBit byte (j % 8) = bits.getD j false :=
  packBytes_bit _ bits j (by rwa [length_packed] at h)

/-- A buffer that holds a packed string has its bits. -/
theorem HoldsAt.hasBits {m : Memory} {p0 : Nat} {bits : List Bool} (h : HoldsAt m p0 (packed bits)) :
    HasBits m p0 bits := by
  intro j b hj
  have hlt : j < bits.length := (List.getElem?_eq_some_iff.1 hj).1
  obtain ⟨byte, h1, h2⟩ := packed_bit bits j (by rw [length_packed]; unfold ceil8; omega)
  refine ⟨byte, h _ _ h1, ?_⟩
  rw [h2, List.getD_eq_getElem?_getD, hj]; rfl

/-- A buffer that holds the first `k` bytes of a packed string has its first `8 k` bits. -/
theorem HoldsAt.hasBits_take {m : Memory} {p0 k : Nat} {bits : List Bool} (h : HoldsAt m p0 ((packed bits).take k)) :
    HasBits m p0 (bits.take (8 * k)) := by
  intro j b hj
  rw [List.getElem?_take] at hj
  split_ifs at hj with hk
  have hlt : j < bits.length := (List.getElem?_eq_some_iff.1 hj).1
  obtain ⟨byte, h1, h2⟩ := packed_bit bits j (by rw [length_packed]; unfold ceil8; omega)
  refine ⟨byte, h _ _ ?_, ?_⟩
  · rw [List.getElem?_take, if_pos (by omega), h1]
  · rw [h2, List.getD_eq_getElem?_getD, hj]; rfl

theorem HasBits.append {m : Memory} {p0 : Nat} {xs ys : List Bool} (h : HasBits m p0 (xs ++ ys)) :
    HasBits m p0 xs := by
  intro j b hj
  have hlt : j < xs.length := (List.getElem?_eq_some_iff.1 hj).1
  exact h j b (by rw [List.getElem?_append_left hlt]; exact hj)

/-! ## The count field (30_encoding.md R141) -/

theorem unBE32_extract (v : Word) :
    unBE32 (v.extractLsb' 24 8) (v.extractLsb' 16 8) (v.extractLsb' 8 8) (v.extractLsb' 0 8) = v := by
  apply BitVec.eq_of_getLsbD_eq
  intro i hi
  simp only [unBE32, BitVec.getLsbD_append, BitVec.getLsbD_extractLsb']
  split_ifs
  · rw [decide_eq_true (by omega), Bool.true_and, show 0 + i = i by omega]
  · rw [decide_eq_true (by omega), Bool.true_and, show 8 + (i - 8) = i by omega]
  · rw [decide_eq_true (by omega), Bool.true_and, show 16 + (i - 8 - 8) = i by omega]
  · rw [decide_eq_true (by omega), Bool.true_and, show 24 + (i - 8 - 8 - 8) = i by omega]

@[simp] theorem length_be32 (v : Word) : (be32 v).length = 4 := rfl

/-! ## The tables (10_state.md R46 to R48) -/

/-- A byte is the symbol its number names. -/
@[simp] theorem ofNat_toNat_byte (b : Byte) : BitVec.ofNat 8 b.toNat = b := by simp

@[simp] theorem getElem_tabulate {α : Type} (f : Byte → α) (b : Byte) : (tabulate f)[b.toNat]'b.isLt = f b := by
  simp [tabulate, allBytes]

theorem freqOf_countTable (bytes : List Byte) (b : Byte) :
    freqOf (countTable bytes) b = BitVec.ofNat 32 (bytes.count b) := by
  simp only [freqOf, countTable, getElem_tabulate]

theorem lenOf_of_table {s : State} {codes : List (Byte × List Bool)} (h : s.codeLen = lenTable codes) (b : Byte) :
    s.lenOf b = (codeFor codes b).length % 256 := by
  simp only [State.lenOf, h, lenTable, getElem_tabulate, BitVec.toNat_ofNat, Nat.reducePow]

theorem entryOf_of_table {s : State} {codes : List (Byte × List Bool)} (h : s.codeBits = entryTable codes)
    (b : Byte) : s.entryOf b = codeEntry (codeFor codes b) := by
  simp only [State.entryOf, h, entryTable, getElem_tabulate]

/-- Bit `j` of a CODE_BITS entry, as R48 numbers it. -/
theorem codeEntry_bit (code : List Bool) {j : Nat} (h : j < 256) :
    byteBit (codeByte (codeEntry code) (j / 8)) (j % 8) = code.getD j false := by
  rw [byteBit, codeByte, BitVec.getLsbD_extractLsb', codeEntry, BitVec.getLsbD_ofNat, ← testBit_msbNat code h]
  rw [show 248 - 8 * (j / 8) + (7 - j % 8) = 256 - 1 - j by omega]
  rw [decide_eq_true (by omega), decide_eq_true (by omega), Bool.true_and, Bool.true_and]

/-- The code the table gives back is the code that was put in. -/
theorem codeOf_of_table {s : State} {codes : List (Byte × List Bool)} (hl : s.codeLen = lenTable codes)
    (hb : s.codeBits = entryTable codes) {b : Byte} (h : (codeFor codes b).length < 256) :
    s.lenOf b = (codeFor codes b).length ∧ s.codeOf b = codeFor codes b := by
  have hlen : s.lenOf b = (codeFor codes b).length := by rw [lenOf_of_table hl, Nat.mod_eq_of_lt h]
  refine ⟨hlen, ?_⟩
  rw [State.codeOf, hlen, entryOf_of_table hb]
  apply List.ext_getElem (by simp)
  intro j h1 h2
  simp only [List.getElem_map, List.getElem_range]
  rw [codeEntry_bit _ (by omega), List.getD_eq_getElem _ _ h2]

/-! ## Symbols (00_scope.md R9) -/

@[simp] theorem mem_allBytes (b : Byte) : b ∈ allBytes := by
  simp only [allBytes, List.mem_map, List.mem_range]
  exact ⟨b.toNat, b.isLt, by simp⟩

theorem nodup_allBytes : allBytes.Nodup := by
  refine List.Nodup.map_on ?_ List.nodup_range
  intro x hx y hy h
  have := congrArg BitVec.toNat h
  simp only [BitVec.toNat_ofNat, List.mem_range] at this hx hy
  omega

@[simp] theorem length_allBytes : allBytes.length = 256 := by simp [allBytes]

theorem mem_symbolsOf {f : Vector Word 256} {b : Byte} : b ∈ symbolsOf f ↔ freqOf f b ≠ 0 := by
  simp [symbolsOf]

theorem nodup_symbolsOf (f : Vector Word 256) : (symbolsOf f).Nodup := nodup_allBytes.filter _

theorem length_symbolsOf_le (f : Vector Word 256) : (symbolsOf f).length ≤ 256 := by
  have h := List.length_filter_le (fun b => freqOf f b != 0) allBytes
  rwa [length_allBytes] at h

end Sys2Proof.Machine
end

