-- ==== Sys2Proof/Laws/Bus.lean ====
section
/-! SUPPORT. The address map (20_memory.md R82 to R87): which access reaches which target, and that every access that
reaches none is off the map, of the wrong width or misaligned. -/

namespace Sys2Proof.Machine

theorem wordTarget_freq (b : Byte) : wordTarget (0x400 + 4 * b.toNat) = some (.freq b) := by
  have := b.isLt
  rw [wordTarget, if_neg (by omega), if_neg (by omega), if_pos (by omega),
    show (0x400 + 4 * b.toNat - 0x400) / 4 = b.toNat by omega, ofNat_toNat_byte]

theorem byteTarget_codeLen (c : Config.Caps) (b : Byte) : byteTarget c (0x800 + b.toNat) = some (.codeLen b) := by
  have := b.isLt
  rw [byteTarget, if_pos (by omega), Nat.add_sub_cancel_left, ofNat_toNat_byte]

theorem byteTarget_codeBits (c : Config.Caps) (b : Byte) {k : Nat} (h : k < 32) :
    byteTarget c (0x2000 + 32 * b.toNat + k) = some (.codeBits b k) := by
  have := b.isLt
  rw [byteTarget, if_neg (by omega), if_pos (by omega),
    show (0x2000 + 32 * b.toNat + k - 0x2000) / 32 = b.toNat by omega,
    show (0x2000 + 32 * b.toNat + k - 0x2000) % 32 = k by omega, ofNat_toNat_byte]

theorem byteTarget_in {c : Config.Caps} {i : Nat} (h : i < c.inCap) :
    byteTarget c (0x40000000 + i) = some (.inByte i) := by
  rw [byteTarget, if_neg (by omega), if_neg (by omega), if_pos (by omega), Nat.add_sub_cancel_left]

theorem byteTarget_out {c : Config.Caps} (hc : c.Legal) {i : Nat} (h : i < c.outCap) :
    byteTarget c (0x80000000 + i) = some (.outByte i) := by
  obtain ⟨⟨-, h1⟩, -, -⟩ := hc
  rw [byteTarget, if_neg (by omega), if_neg (by omega), if_neg (by omega), if_pos (by omega), Nat.add_sub_cancel_left]

/-- The targets of the tables and buffers, at the addresses the host uses. -/
theorem target_freq (c : Config.Caps) (b : Byte) : target c (BitVec.ofNat 32 (0x400 + 4 * b.toNat)) 4 = some (.freq b) := by
  have := b.isLt
  rw [target, if_pos rfl, BitVec.toNat_ofNat, Nat.mod_eq_of_lt (by omega), wordTarget_freq]

theorem target_codeLen (c : Config.Caps) (b : Byte) :
    target c (BitVec.ofNat 32 (0x800 + b.toNat)) 1 = some (.codeLen b) := by
  have := b.isLt
  rw [target, if_neg (by decide), if_pos rfl, BitVec.toNat_ofNat, Nat.mod_eq_of_lt (by omega), byteTarget_codeLen]

theorem target_codeBits (c : Config.Caps) (b : Byte) {k : Nat} (h : k < 32) :
    target c (BitVec.ofNat 32 (0x2000 + 32 * b.toNat + k)) 1 = some (.codeBits b k) := by
  have := b.isLt
  rw [target, if_neg (by decide), if_pos rfl, BitVec.toNat_ofNat, Nat.mod_eq_of_lt (by omega), byteTarget_codeBits c b h]

theorem target_in {c : Config.Caps} (hc : c.Legal) {i : Nat} (h : i < c.inCap) :
    target c (BitVec.ofNat 32 (0x40000000 + i)) 1 = some (.inByte i) := by
  obtain ⟨⟨-, h1⟩, -, -⟩ := hc
  rw [target, if_neg (by decide), if_pos rfl, BitVec.toNat_ofNat, Nat.mod_eq_of_lt (by omega), byteTarget_in h]

theorem target_out {c : Config.Caps} (hc : c.Legal) {i : Nat} (h : i < c.outCap) :
    target c (BitVec.ofNat 32 (0x80000000 + i)) 1 = some (.outByte i) := by
  have hc' := hc
  obtain ⟨-, ⟨-, h1⟩, -⟩ := hc'
  rw [target, if_neg (by decide), if_pos rfl, BitVec.toNat_ofNat, Nat.mod_eq_of_lt (by omega), byteTarget_out hc h]

theorem regAt_isSome {i : Nat} : (regAt i).isSome = true ↔ i < 16 := by
  constructor
  · intro h
    unfold regAt at h
    split at h <;> first | omega | simp at h
  · intro h
    interval_cases i <;> rfl

/-- An access reaches a target exactly when it is legal (R84 to R87). -/
theorem target_isSome_iff {c : Config.Caps} {addr : Word} {n : Nat} :
    (target c addr n).isSome = true ↔ LegalAccess c addr n := by
  unfold target LegalAccess
  split_ifs with h4 h1
  · subst h4
    simp only [true_and, OfNat.ofNat_ne_one, false_and, or_false]
    unfold wordTarget
    split_ifs with ha hp hf
    · simp [ha]
    · simp only [Option.isSome_map, regAt_isSome]; omega
    · simp only [Option.isSome_some, true_iff]; omega
    · simp only [Option.isSome_none, Bool.false_eq_true, false_iff]; omega
  · subst h1
    simp only [OfNat.one_ne_ofNat, false_and, true_and, false_or]
    unfold byteTarget
    split_ifs <;> simp <;> omega
  · simp [h4, h1]

theorem target_eq_none_iff {c : Config.Caps} {addr : Word} {n : Nat} :
    target c addr n = none ↔ ¬LegalAccess c addr n := by
  rw [← target_isSome_iff, Bool.not_eq_true, Option.isSome_eq_false_iff, Option.isNone_iff_eq_none]

/-- A legal access to a read-only region reaches a target that ignores writes. -/
theorem target_readOnly {c : Config.Caps} (hc : c.Legal) {addr : Word}
    (h : (0x800 ≤ addr.toNat ∧ addr.toNat < 0x900) ∨ (0x2000 ≤ addr.toNat ∧ addr.toNat < 0x4000) ∨
      (0x80000000 ≤ addr.toNat ∧ addr.toNat < 0x80000000 + c.outCap)) :
    ∃ t, target c addr 1 = some t ∧ ∀ s v, State.writeTarget s v t = s := by
  obtain ⟨⟨-, h1⟩, -, -⟩ := hc
  rw [target, if_neg (by decide), if_pos rfl, byteTarget]
  split_ifs with a b d e
  · exact ⟨_, rfl, fun _ _ => rfl⟩
  · exact ⟨_, rfl, fun _ _ => rfl⟩
  · omega
  · exact ⟨_, rfl, fun _ _ => rfl⟩
  · omega

/-- The target of a read-only register's offset. -/
theorem target_readOnlyReg {c : Config.Caps} {addr : Word} (h : ReadOnlyReg addr) :
    ∃ r, target c addr 4 = some (.reg r) ∧ ∀ s v, State.writeReg s v r = s := by
  simp only [ReadOnlyReg, List.mem_cons, List.not_mem_nil, or_false] at h
  rcases h with rfl | rfl | rfl | rfl | rfl | rfl | rfl | rfl | rfl | rfl | rfl <;>
    exact ⟨_, rfl, fun _ _ => rfl⟩

/-- The target of a command's input. -/
theorem target_input {c : Config.Caps} {addr : Word} {n : Nat} (h : InputAccess c addr n) :
    ∃ t, target c addr n = some t ∧
      ∀ s v, State.busy s = true → State.writeTarget s v t = { s with busywr := true } := by
  rcases h with ⟨rfl, rfl | rfl | rfl | ⟨ha, h1, h2⟩⟩ | ⟨rfl, h1, h2⟩
  · exact ⟨_, rfl, fun s v h => by simp [State.writeTarget, State.writeReg, State.inputWrite, h]⟩
  · exact ⟨_, rfl, fun s v h => by simp [State.writeTarget, State.writeReg, State.inputWrite, h]⟩
  · exact ⟨_, rfl, fun s v h => by simp [State.writeTarget, State.writeReg, State.inputWrite, h]⟩
  · refine ⟨_, by rw [target, if_pos rfl, wordTarget, if_neg (by omega), if_neg (by omega), if_pos (by omega)],
      fun s v h => by simp [State.writeTarget, State.inputWrite, h]⟩
  · refine ⟨_, by rw [target, if_neg (by decide), if_pos rfl, byteTarget, if_neg (by omega), if_neg (by omega),
      if_pos (by omega)], fun s v h => by simp [State.writeTarget, State.inputWrite, h]⟩

/-- A legal access to result state reaches result state. -/
theorem target_result {c : Config.Caps} (hc : c.Legal) {addr : Word} {n : Nat} (hl : LegalAccess c addr n)
    (hr : ResultAddr addr) : ∃ t, target c addr n = some t ∧ t.isResult = true := by
  obtain ⟨⟨-, h1⟩, -, -⟩ := hc
  obtain ⟨t, ht⟩ := Option.isSome_iff_exists.1 (target_isSome_iff.2 hl)
  refine ⟨t, ht, ?_⟩
  unfold target at ht
  split_ifs at ht with h4 h1'
  · subst h4
    rcases hr with rfl | rfl | rfl | rfl | rfl | rfl | h | h
    · obtain rfl := Option.some.inj ht; rfl
    · obtain rfl := Option.some.inj ht; rfl
    · obtain rfl := Option.some.inj ht; rfl
    · obtain rfl := Option.some.inj ht; rfl
    · obtain rfl := Option.some.inj ht; rfl
    · obtain rfl := Option.some.inj ht; rfl
    · unfold wordTarget at ht
      split_ifs at ht
      · omega
      · obtain rfl := Option.some.inj ht; rfl
    · unfold wordTarget at ht
      split_ifs at ht <;> omega
  · unfold byteTarget at ht
    split_ifs at ht with a b d e
    · obtain rfl := Option.some.inj ht; rfl
    · obtain rfl := Option.some.inj ht; rfl
    · exfalso
      rcases hr with rfl | rfl | rfl | rfl | rfl | rfl | h | h <;> first | omega | simp at d
    · obtain rfl := Option.some.inj ht; rfl

/-! ## What a transaction does -/

theorem hostWrite_of_target {addr v : Word} {n : Nat} {s : State} {t : Target} (h : target s.caps addr n = some t) :
    hostStep (.write addr n v) s = s.writeTarget v t := by
  simp only [hostStep, hostWrite, h]

theorem hostWrite_illegal {addr v : Word} {n : Nat} {s : State} (h : ¬LegalAccess s.caps addr n) :
    hostStep (.write addr n v) s = { s with berr := true } := by
  simp only [hostStep, hostWrite, target_eq_none_iff.2 h]; rfl

theorem hostRead_illegal {addr : Word} {n : Nat} {s : State} (h : ¬LegalAccess s.caps addr n) :
    hostStep (.read addr n) s = { s with berr := true, rdata := 0 } := by
  simp only [hostStep, hostRead, target_eq_none_iff.2 h]; rfl

/-- A read of state that is no result state, or that is read while Idle, returns the stored value. -/
theorem hostRead_stored {addr v : Word} {n : Nat} {s : State} {t : Target} (h : target s.caps addr n = some t)
    (hb : (s.busy && t.isResult) = false) (hv : s.stored t = some v) :
    hostStep (.read addr n) s = { s with rdata := v } := by
  simp only [hostStep, hostRead, h, hb, hv]; rfl

/-- A read of result state while Busy, or of a byte not written since reset, takes a draw. -/
theorem hostRead_draws {addr : Word} {n : Nat} {s : State} {t : Target} (h : target s.caps addr n = some t)
    (hd : (s.busy && t.isResult) = true ∨ s.stored t = none) : hostStep (.read addr n) s = s.takeDraw n := by
  simp only [hostStep, hostRead, h]
  rcases hd with hd | hd
  · rw [if_pos hd]
  · split_ifs
    · rfl
    · rw [hd]

@[simp] theorem busy_of_idle {s : State} (h : s.seq = .idle) : s.busy = false := by simp [State.busy, h]

@[simp] theorem busy_of_busy {s : State} {w : Word} (h : s.seq = .busy w) : s.busy = true := by simp [State.busy, h]

theorem drawn_byte_lt (k : Nat) : (drawn 1 k).toNat < 256 := by
  rw [drawn, if_pos rfl, BitVec.toNat_setWidth]
  have := ((Config.draw k).setWidth 8).isLt
  omega

end Sys2Proof.Machine
end

