-- ==== Sys2Proof/Laws/Decoder.lean ====
section
/-! SUPPORT. The laws of the tree walk (46_bitstream_decoder.md R272 to R278): what it does on bits that spell paths to
leaves, and what every answer of it satisfies. -/

namespace Sys2Proof.Machine

/-! ## Paths -/

@[simp] theorem Node.follow_nil (n : Node) : n.follow [] = some n := rfl

theorem Node.follow_cons (n : Node) (b : Bool) (p : List Bool) : n.follow (b :: p) = (n.child b).bind (·.follow p) := by
  simp only [Node.follow]; cases n.child b <;> rfl

@[simp] theorem Node.follow_internal (l r : Node) (b : Bool) (p : List Bool) :
    (Node.internal l r).follow (b :: p) = (if b then r else l).follow p := rfl

/-- Only an Internal node has a path that goes on. -/
theorem Node.internal_of_follow {n m : Node} {b : Bool} {p : List Bool} (h : n.follow (b :: p) = some m) :
    ∃ l r, n = .internal l r := by
  cases n with
  | internal l r => exact ⟨l, r, rfl⟩
  | leaf sym => simp [Node.follow, Node.child] at h
  | sentinel => simp [Node.follow, Node.child] at h

theorem Node.follow_append (n : Node) (p q : List Bool) : n.follow (p ++ q) = (n.follow p).bind (·.follow q) := by
  induction p generalizing n with
  | nil => rfl
  | cons b p ih =>
    rw [List.cons_append, Node.follow_cons, Node.follow_cons]
    cases n.child b with
    | none => rfl
    | some m => simpa using ih m

/-! ## Bits in a buffer -/

/-- The bits stand in the buffer from bit `b` after index `p0`. -/
def BitsAt (m : Memory) (p0 b : Nat) (bits : List Bool) : Prop :=
  ∀ j x, bits[j]? = some x → ∃ byte, m.read (p0 + (b + j) / 8) = some byte ∧ byteBit byte ((b + j) % 8) = x

theorem bitsAt_zero {m : Memory} {p0 : Nat} {bits : List Bool} : BitsAt m p0 0 bits ↔ HasBits m p0 bits := by
  simp [BitsAt, HasBits]

theorem BitsAt.cons {m : Memory} {p0 b : Nat} {x : Bool} {bits : List Bool} :
    BitsAt m p0 b (x :: bits) ↔
      (∃ byte, m.read (p0 + b / 8) = some byte ∧ byteBit byte (b % 8) = x) ∧ BitsAt m p0 (b + 1) bits := by
  constructor
  · intro h
    refine ⟨by simpa using h 0 x rfl, fun j y hj => ?_⟩
    have := h (j + 1) y (by simpa using hj)
    rwa [show b + (j + 1) = b + 1 + j by omega] at this
  · rintro ⟨h0, h⟩ j y hj
    cases j with
    | zero => simp_all
    | succ j =>
      have := h j y (by simpa using hj)
      rwa [show b + 1 + j = b + (j + 1) by omega] at this

theorem BitsAt.append {m : Memory} {p0 b : Nat} {xs ys : List Bool} :
    BitsAt m p0 b (xs ++ ys) ↔ BitsAt m p0 b xs ∧ BitsAt m p0 (b + xs.length) ys := by
  induction xs generalizing b with
  | nil => simp [BitsAt]
  | cons x xs ih =>
    simp only [List.cons_append, BitsAt.cons, ih, List.length_cons, and_assoc]
    rw [show b + 1 + xs.length = b + (xs.length + 1) by omega]

/-! ## The walk on bits that spell paths -/

theorem walkFrom_stop (s : State) (root cur : Node) (n p0 fuel b len : Nat) :
    walkFrom s root n p0 fuel cur b n len = .ok ([], b) := by
  cases fuel <;> simp [walkFrom]

/-- One bit read. -/
theorem walkFrom_bit {s : State} {root cur : Node} {n p0 fuel b emitted len : Nat} {byte : Byte} (hn : emitted ≠ n)
    (hb : p0 + b / 8 < s.inLen.toNat) (hr : s.inbuf.read (p0 + b / 8) = some byte) :
    walkFrom s root n p0 (fuel + 1) cur b emitted len =
      (match cur.child (byteBit byte (b % 8)) with
      | none => raise .corruptTree (p0 + b / 8)
      | some .sentinel => raise .corruptTree (p0 + b / 8)
      | some (.internal l r) => walkFrom s root n p0 fuel (.internal l r) (b + 1) emitted len
      | some (.leaf sym) => do
        ensure (len + sym.length ≤ s.caps.outCap) .resourceLimit 0
        let (out, last) ← walkFrom s root n p0 fuel root (b + 1) (emitted + 1) (len + sym.length)
        .ok (sym ++ out, last)) := by
  rw [walkFrom, if_neg hn, ensure_pos hb, ok_bind, inByte_of_read hr, ok_bind] <;> rfl

/-- A byte of the count field or the payload at or behind IN_LEN is TruncatedStream (R271, R275). -/
theorem countByte_exhausted {s : State} {p : Nat} (h : s.inLen.toNat ≤ p) : countByte s p = raise .truncatedStream p := by
  rw [countByte, ensure_neg (by omega), raise_bind]

theorem countByte_unwritten {s : State} {p : Nat} (h : p < s.inLen.toNat) (hu : s.inbuf.read p = none) :
    countByte s p = .error (.fault (.uninitRead p)) := by
  rw [countByte, ensure_pos h, ok_bind, inByte_of_unwritten hu]

/-- The walk needs a bit of a byte it cannot have: it stops with the error that byte gives (R275). With no fuel there is
no byte left. -/
theorem walkFrom_stops {s : State} {root cur : Node} {n p0 fuel b emitted len : Nat} {x : Stop} (hn : emitted ≠ n)
    (hc : countByte s (p0 + b / 8) = .error x) (hfuel : fuel = 0 → s.inLen.toNat ≤ p0 + b / 8) :
    walkFrom s root n p0 fuel cur b emitted len = .error x := by
  cases fuel with
  | zero =>
    rw [countByte_exhausted (hfuel rfl)] at hc
    rw [walkFrom, if_neg hn, ← Except.error.inj hc, raise]
  | succ fuel =>
    rw [walkFrom, if_neg hn]
    unfold countByte at hc
    cases he : ensure (p0 + b / 8 < s.inLen.toNat) .truncatedStream (p0 + b / 8) with
    | error e => rw [he, error_bind] at hc; rw [error_bind, Except.error.inj hc]
    | ok u => rw [he, ok_bind] at hc; rw [ok_bind, hc, error_bind]

/-- Bits that lead to an Internal node move the cursor there. -/
theorem walkFrom_part {s : State} {root cur m : Node} {n p0 fuel b emitted len : Nat} {part : List Bool}
    (hn : emitted ≠ n) (hf : cur.follow part = some m) (hm : part = [] ∨ ∃ l r, m = .internal l r)
    (hbits : BitsAt s.inbuf p0 b part) (hin : b + part.length ≤ 8 * (s.inLen.toNat - p0)) :
    walkFrom s root n p0 (fuel + part.length) cur b emitted len =
      walkFrom s root n p0 fuel m (b + part.length) emitted len := by
  induction part generalizing cur b with
  | nil => simp at hf; simp [hf]
  | cons x part ih =>
    obtain ⟨l, r, rfl⟩ := Node.internal_of_follow hf
    obtain ⟨⟨byte, hr, hx⟩, hbits⟩ := BitsAt.cons.1 hbits
    simp only [List.length_cons] at hin ⊢
    obtain ⟨l2, r2, rfl⟩ : ∃ l r, m = .internal l r := by simpa using hm
    have hnext : ∃ l' r', (if x then r else l) = .internal l' r' := by
      rw [Node.follow_internal] at hf
      cases part with
      | nil => exact ⟨l2, r2, by simpa using hf⟩
      | cons y part => exact Node.internal_of_follow hf
    obtain ⟨l', r', hnext⟩ := hnext
    rw [Node.follow_internal, hnext] at hf
    rw [show fuel + (part.length + 1) = fuel + part.length + 1 by omega, walkFrom_bit hn (by omega) hr, hx]
    simp only [Node.child, hnext]
    rw [ih hf (by right; exact ⟨_, _, rfl⟩) hbits (by omega), show b + 1 + part.length = b + (part.length + 1) by omega]

/-- Bits that lead to a Leaf emit its symbol and send the cursor back to the root. -/
theorem walkFrom_symbol {s : State} {root cur : Node} {n p0 fuel b emitted len : Nat} {p : List Bool}
    {sym : List Byte} (hn : emitted ≠ n) (hp : p ≠ []) (hf : cur.follow p = some (.leaf sym))
    (hbits : BitsAt s.inbuf p0 b p) (hin : b + p.length ≤ 8 * (s.inLen.toNat - p0)) :
    walkFrom s root n p0 (fuel + p.length) cur b emitted len = (do
      ensure (len + sym.length ≤ s.caps.outCap) .resourceLimit 0
      let (out, last) ← walkFrom s root n p0 fuel root (b + p.length) (emitted + 1) (len + sym.length)
      .ok (sym ++ out, last)) := by
  obtain ⟨part, x, rfl⟩ : ∃ part x, p = part ++ [x] := ⟨p.dropLast, p.getLast hp, (List.dropLast_append_getLast hp).symm⟩
  rw [Node.follow_append] at hf
  cases hm : cur.follow part with
  | none => simp [hm] at hf
  | some m =>
    simp only [hm, Option.bind_some] at hf
    obtain ⟨l, r, rfl⟩ := Node.internal_of_follow hf
    obtain ⟨hb1, hb2⟩ := BitsAt.append.1 hbits
    obtain ⟨⟨byte, hr, hx⟩, -⟩ := BitsAt.cons.1 hb2
    simp only [List.length_append, List.length_singleton] at hin ⊢
    rw [show fuel + (part.length + 1) = fuel + 1 + part.length by omega,
      walkFrom_part hn hm (by right; exact ⟨_, _, rfl⟩) hb1 (by omega), walkFrom_bit hn (by omega) hr, hx]
    have hc : (Node.internal l r).child x = some (.leaf sym) := by
      simpa [Node.follow_internal, Node.child] using hf
    simp only [hc, Nat.add_assoc]

/-- Bits that spell symbols emit them all, within the count and the output capacity. -/
theorem walkFrom_spells {s : State} {root : Node} {n p0 : Nat} {paths : List (List Bool)} {syms : List (List Byte)}
    (hs : Spells root paths syms) {fuel b emitted len : Nat} (hn : emitted + paths.length ≤ n)
    (hbits : BitsAt s.inbuf p0 b paths.flatten) (hin : b + paths.flatten.length ≤ 8 * (s.inLen.toNat - p0))
    (hout : len + syms.flatten.length ≤ s.caps.outCap) :
    walkFrom s root n p0 (fuel + paths.flatten.length) root b emitted len = (do
      let (out, last) ← walkFrom s root n p0 fuel root (b + paths.flatten.length) (emitted + paths.length)
        (len + syms.flatten.length)
      .ok (syms.flatten ++ out, last)) := by
  induction hs generalizing b emitted len with
  | nil =>
    simp only [List.flatten_nil, List.length_nil, Nat.add_zero, List.nil_append]
    cases walkFrom s root n p0 fuel root b emitted len <;> rfl
  | @cons p sym paths syms hp hps ih =>
    simp only [List.flatten_cons, List.length_append, List.length_cons] at hbits hin hout hn ⊢
    obtain ⟨hb1, hb2⟩ := BitsAt.append.1 hbits
    rw [show fuel + (p.length + paths.flatten.length) = fuel + paths.flatten.length + p.length by omega,
      walkFrom_symbol (by omega) hp.1 hp.2 hb1 (by omega), ensure_pos (by omega), ok_bind,
      ih (by omega) hb2 (by omega) (by omega),
      show b + p.length + paths.flatten.length = b + (p.length + paths.flatten.length) by omega,
      show emitted + 1 + paths.length = emitted + (paths.length + 1) by omega,
      show len + sym.length + syms.flatten.length = len + (sym.length + syms.flatten.length) by omega]
    cases walkFrom s root n p0 fuel root _ _ _ with
    | error e => rfl
    | ok x => obtain ⟨out, last⟩ := x; simp

/-- Spelled paths cut after `c` bits: whole paths, and then the cursor inside the next. -/
theorem Spells.split {root : Node} {paths : List (List Bool)} {syms : List (List Byte)} (h : Spells root paths syms)
    {c : Nat} (hc : c < paths.flatten.length) :
    ∃ (paths' : List (List Bool)) (syms' : List (List Byte)) (part : List Bool) (m : Node),
      paths'.length < paths.length ∧ Spells root paths' syms' ∧ CursorAt root part m ∧
      paths.flatten.take c = paths'.flatten ++ part ∧ syms'.flatten.length ≤ syms.flatten.length := by
  induction h generalizing c with
  | nil => simp at hc
  | @cons p sym paths syms hp hps ih =>
    rw [List.flatten_cons, List.length_append] at hc
    by_cases h : c < p.length
    · have hf := hp.2
      rw [← List.take_append_drop c p, Node.follow_append] at hf
      cases hm : root.follow (p.take c) with
      | none => simp [hm] at hf
      | some m =>
        rw [hm, Option.bind_some, List.drop_eq_getElem_cons h] at hf
        refine ⟨[], [], p.take c, m, by simp, .nil, ⟨hm, .inr (Node.internal_of_follow hf)⟩, ?_, by simp⟩
        rw [List.flatten_cons, List.take_append_of_le_length (by omega)]; rfl
    · obtain ⟨paths', syms', part, m, h1, h2, h3, h4, h5⟩ := ih (c := c - p.length) (by omega)
      refine ⟨p :: paths', sym :: syms', part, m, by simpa using h1, .cons hp h2, h3, ?_, ?_⟩
      · rw [List.flatten_cons, List.take_append, List.take_of_length_le (by omega), h4, List.flatten_cons, List.append_assoc]
      · simp only [List.flatten_cons, List.length_append]; omega

/-! ## What every answer satisfies -/

/-- The walk's output fits, its bit counter only grows, and the bytes it touched are in the input (R276). -/
theorem walkFrom_ok {s : State} {root cur : Node} {n p0 fuel b emitted len last : Nat} {out : List Byte}
    (h : walkFrom s root n p0 fuel cur b emitted len = .ok (out, last)) :
    (len ≤ s.caps.outCap → len + out.length ≤ s.caps.outCap) ∧ b ≤ last ∧
      (p0 + ceil8 b ≤ s.inLen.toNat → p0 + ceil8 last ≤ s.inLen.toNat) := by
  induction fuel generalizing cur b emitted len out with
  | zero =>
    rw [walkFrom] at h
    split_ifs at h
    · obtain ⟨rfl, rfl⟩ : [] = out ∧ b = last := by simpa using h
      simp
    · simp at h
  | succ fuel ih =>
    rw [walkFrom] at h
    split_ifs at h
    · obtain ⟨rfl, rfl⟩ : [] = out ∧ b = last := by simpa using h
      simp
    · simp only [bind_eq_ok, ensure_eq_ok, inByte_eq_ok] at h
      obtain ⟨-, hb, byte, -, h⟩ := h
      have hc : p0 + ceil8 (b + 1) ≤ s.inLen.toNat := by unfold ceil8; omega
      split at h
      · simp at h
      · simp at h
      · obtain ⟨h1, h2, h3⟩ := ih h
        exact ⟨h1, by omega, fun _ => h3 hc⟩
      · simp only [bind_eq_ok, ensure_eq_ok, Prod.exists] at h
        obtain ⟨-, hcap, out', last', h, heq⟩ := h
        obtain ⟨rfl, rfl⟩ : _ ++ out' = out ∧ last' = last := by simpa using heq
        obtain ⟨h1, h2, h3⟩ := ih h
        refine ⟨fun _ => ?_, by omega, fun _ => h3 hc⟩
        have := h1 hcap
        simp only [List.length_append]; omega

/-! ## The count field (R271) -/

theorem countByte_eq_ok {s : State} {p : Nat} {b : Byte} :
    countByte s p = .ok b ↔ p < s.inLen.toNat ∧ s.inbuf.read p = some b := by
  simp only [countByte, bind_eq_ok, ensure_eq_ok, inByte_eq_ok]
  simp

theorem readCount_of_holds {s : State} {q : Nat} {n : Word} (h : HoldsAt s.inbuf q (be32 n))
    (hin : q + 4 ≤ s.inLen.toNat) : readCount s q = .ok n := by
  simp only [be32, HoldsAt.cons] at h
  obtain ⟨h0, h1, h2, h3, -⟩ := h
  have c0 := countByte_eq_ok.2 ⟨(by omega : q < s.inLen.toNat), h0⟩
  have c1 := countByte_eq_ok.2 ⟨(by omega : q + 1 < s.inLen.toNat), h1⟩
  have c2 := countByte_eq_ok.2 ⟨(by omega : q + 2 < s.inLen.toNat), h2⟩
  have c3 := countByte_eq_ok.2 ⟨(by omega : q + 3 < s.inLen.toNat), h3⟩
  rw [readCount, c0, ok_bind, c1, ok_bind, c2, ok_bind, c3, ok_bind, unBE32_extract]

theorem readCount_ok {s : State} {q : Nat} {n : Word} (h : readCount s q = .ok n) : q + 4 ≤ s.inLen.toNat := by
  simp only [readCount, bind_eq_ok, countByte_eq_ok] at h
  obtain ⟨_, -, _, -, _, -, _, ⟨h, -⟩, -⟩ := h
  omega

/-- The walk on bits that begin with the declared number of paths to leaves (R272, R273). -/
theorem walkTree_spells {s : State} {root : Node} {p0 : Nat} {paths : List (List Bool)} {syms : List (List Byte)}
    (hs : Spells root paths syms) (hb : HasBits s.inbuf p0 paths.flatten)
    (hi : paths.flatten.length ≤ 8 * (s.inLen.toNat - p0)) (ho : syms.flatten.length ≤ s.caps.outCap) :
    walkTree s root paths.length p0 = .ok (syms.flatten, paths.flatten.length) := by
  unfold walkTree
  obtain ⟨fuel, hf⟩ : ∃ f, 8 * (s.inLen.toNat - p0) = f + paths.flatten.length := ⟨_, (Nat.sub_add_cancel hi).symm⟩
  rw [hf]
  have := walkFrom_spells (s := s) (n := paths.length) (p0 := p0) hs (fuel := fuel) (b := 0) (emitted := 0) (len := 0) (by omega) (bitsAt_zero.2 hb) (by omega) (by omega)
  rw [this, Nat.zero_add, Nat.zero_add, Nat.zero_add, walkFrom_stop]
  simp

/-- A count field of which only the bytes `bs` can be read (R271). -/
theorem readCount_stops {s : State} {q : Nat} {bs : List Byte} {x : Stop} (hl : bs.length < 4) (hs : HoldsAt s.inbuf q bs)
    (hin : bs = [] ∨ q + bs.length ≤ s.inLen.toNat) (hc : countByte s (q + bs.length) = .error x) :
    readCount s q = .error x := by
  have ok : ∀ k b, bs[k]? = some b → countByte s (q + k) = .ok b := by
    intro k b h
    have hk : k < bs.length := (List.getElem?_eq_some_iff.1 h).1
    refine countByte_eq_ok.2 ⟨?_, hs k b h⟩
    rcases hin with rfl | hin
    · simp at hk
    · omega
  match bs, hl with
  | [], _ => rw [readCount, show countByte s q = .error x from hc, error_bind]
  | [b0], _ => rw [readCount, show countByte s q = .ok b0 from ok 0 b0 rfl, ok_bind, show countByte s (q + 1) = .error x from hc,
      error_bind]
  | [b0, b1], _ => rw [readCount, show countByte s q = .ok b0 from ok 0 b0 rfl, ok_bind, ok 1 b1 rfl, ok_bind,
      show countByte s (q + 2) = .error x from hc, error_bind]
  | [b0, b1, b2], _ => rw [readCount, show countByte s q = .ok b0 from ok 0 b0 rfl, ok_bind, ok 1 b1 rfl, ok_bind, ok 2 b2 rfl,
      ok_bind, show countByte s (q + 3) = .error x from hc, error_bind]

/-! ## Count and walk together, where they stop (R271 to R275) -/

/-- UNPACK's reading from `q`: the count, then the walk of as many symbols. -/
def readStream (s : State) (t : Node) (q : Nat) : Except Stop (Word × List Byte × Nat) := do
  let n ← readCount s q
  let (out, b) ← walkTree s t n.toNat (q + 4)
  .ok (n, out, b)

/-- UNPACK's rule reads a stream and makes one set of writes (R270). -/
theorem unpackBody_eq {s : State} {o : Origin} {t : Node} (ht : s.tree = some (o, t)) :
    unpackBody s = (do
      let (n, out, b) ← readStream s t s.inOff.toNat
      .ok { s.writeOut 0 out with
            outLen := BitVec.ofNat 32 out.length
            symcount := n
            payloadLen := BitVec.ofNat 32 (ceil8 b)
            inOff := BitVec.ofNat 32 (s.inOff.toNat + 4 + ceil8 b) }) := by
  simp only [unpackBody, ht, readStream]
  cases readCount s s.inOff.toNat with
  | error e => rfl
  | ok n =>
    simp only [ok_bind]
    cases walkTree s t n.toNat (s.inOff.toNat + 4) with
    | error e => rfl
    | ok x => rfl

/-- Where the stream begins with `paths` and goes on with `bits`, the walk arrives behind the paths at the root, with fuel
left for `bits` and the rest. -/
theorem readStream_begins {s : State} {t : Node} {q : Nat} {paths : List (List Bool)} {syms : List (List Byte)}
    {bits : List Bool} (h : s.StreamBegins t q paths syms bits) :
    ∃ n fuel, paths.length ≠ n ∧ BitsAt s.inbuf (q + 4) paths.flatten.length bits ∧
      paths.flatten.length + bits.length + fuel = 8 * (s.inLen.toNat - (q + 4)) ∧
      ∀ x : Stop, walkFrom s t n (q + 4) (fuel + bits.length) t paths.flatten.length paths.length syms.flatten.length =
        .error x → readStream s t q = .error x := by
  obtain ⟨⟨n, hn, hlt⟩, hs, ho, hb, hi⟩ := h
  have hba := BitsAt.append.1 (bitsAt_zero.2 hb)
  rw [Nat.zero_add] at hba
  have h8 := hi
  unfold ceil8 at h8
  rw [List.length_append] at h8
  obtain ⟨fuel, hf⟩ : ∃ f, paths.flatten.length + bits.length + f = 8 * (s.inLen.toNat - (q + 4)) :=
    ⟨8 * (s.inLen.toNat - (q + 4)) - (paths.flatten.length + bits.length), by omega⟩
  refine ⟨n.toNat, fuel, by omega, hba.2, hf, fun x hx => ?_⟩
  have hw : walkTree s t n.toNat (q + 4) = .error x := by
    unfold walkTree
    rw [← hf, show paths.flatten.length + bits.length + fuel = fuel + bits.length + paths.flatten.length by omega,
      walkFrom_spells hs (by omega) hba.1 (by omega) (by omega)]
    simp only [Nat.zero_add]
    rw [hx, error_bind]
  rw [readStream, readCount_of_holds hn (by omega), ok_bind, hw, error_bind]

/-- The next byte of the stream cannot be had (R271, R275). -/
theorem readStream_stops {s : State} {t : Node} {q k : Nat} {x : Stop} (h : s.AtStreamByte t q k)
    (hc : countByte s k = .error x) : readStream s t q = .error x := by
  rcases h with ⟨bs, hl, hs, hin, rfl⟩ | ⟨paths, syms, part, m, j, hb, hcur, hj, rfl⟩
  · rw [readStream, readCount_stops hl hs hin hc, error_bind]
  · obtain ⟨n, fuel, hn, hbits, hf, hstop⟩ := readStream_begins hb
    rw [List.length_append] at hj
    apply hstop
    rw [walkFrom_part hn hcur.1 hcur.2 hbits (by omega)]
    refine walkFrom_stops hn ?_ (by omega)
    rwa [hj, Nat.mul_div_cancel_left j (by omega)]

/-- The next bit selects no node, or a Sentinel (R274). -/
theorem readStream_badNode {s : State} {t m : Node} {q : Nat} {paths : List (List Bool)} {syms : List (List Byte)}
    {part : List Bool} {bit : Bool} (hb : s.StreamBegins t q paths syms (part ++ [bit])) (hcur : CursorAt t part m)
    (hm : m.child bit = none ∨ m.child bit = some .sentinel) :
    readStream s t q = raise .corruptTree (q + 4 + (paths.flatten ++ part).length / 8) := by
  obtain ⟨n, fuel, hn, hbits, hf, hstop⟩ := readStream_begins hb
  obtain ⟨hb1, hb2⟩ := BitsAt.append.1 hbits
  obtain ⟨⟨byte, hr, hbit⟩, -⟩ := BitsAt.cons.1 hb2
  rw [List.length_append, List.length_singleton] at hf
  apply hstop
  rw [List.length_append, List.length_singleton, show fuel + (part.length + 1) = fuel + 1 + part.length by omega,
    walkFrom_part hn hcur.1 hcur.2 hb1 (by omega), walkFrom_bit hn (by omega) hr, hbit, List.length_append]
  rcases hm with hm | hm <;> rw [hm] <;> rfl

/-- The next symbol would go past OUT_CAP (R272). -/
theorem readStream_full {s : State} {t : Node} {q : Nat} {paths : List (List Bool)} {syms : List (List Byte)}
    {p : List Bool} {sym : List Byte} (hb : s.StreamBegins t q paths syms p) (hp : p ≠ [])
    (hf : t.follow p = some (.leaf sym)) (hover : s.caps.outCap < syms.flatten.length + sym.length) :
    readStream s t q = raise .resourceLimit 0 := by
  obtain ⟨n, fuel, hn, hbits, hfu, hstop⟩ := readStream_begins hb
  apply hstop
  rw [walkFrom_symbol hn hp hf hbits (by omega), ensure_neg (by omega), raise_bind]
  rfl

end Sys2Proof.Machine
end

