-- ==== Sys2Proof/Laws/CodeTable.lean ====
section
/-! SUPPORT. The laws of codes: a code is the path to its leaf (43_code_table.md R210), and a Built tree's paths are
short, distinct and prefix-free (R212, 00_scope.md R13). -/

namespace Sys2Proof.Machine

/-- The walk collects exactly the paths to leaves. -/
theorem Node.mem_codes {n : Node} {p q : List Bool} {b : Byte} :
    (b, q) ∈ n.codes p ↔ ∃ r rest, q = p ++ r ∧ n.follow r = some (.leaf (b :: rest)) := by
  induction n generalizing p with
  | leaf sym =>
    cases sym with
    | nil =>
      simp only [Node.codes, List.not_mem_nil, false_iff, not_exists, not_and]
      rintro r rest -
      cases r <;> simp [Node.follow, Node.child]
    | cons c cs =>
      simp only [Node.codes, List.mem_singleton, Prod.mk.injEq]
      constructor
      · rintro ⟨rfl, rfl⟩; exact ⟨[], cs, by simp, rfl⟩
      · rintro ⟨r, rest, rfl, h⟩
        cases r with
        | nil => simp at h; simp [h.1]
        | cons x r => simp [Node.follow, Node.child] at h
  | sentinel =>
    simp only [Node.codes, List.not_mem_nil, false_iff, not_exists, not_and]
    rintro r rest -
    cases r <;> simp [Node.follow, Node.child]
  | internal l r ihl ihr =>
    simp only [Node.codes, List.mem_append, ihl, ihr]
    constructor
    · rintro (⟨u, rest, rfl, h⟩ | ⟨u, rest, rfl, h⟩)
      · exact ⟨false :: u, rest, by simp, by simpa using h⟩
      · exact ⟨true :: u, rest, by simp, by simpa using h⟩
    · rintro ⟨u, rest, rfl, h⟩
      cases u with
      | nil => simp at h
      | cons x u =>
        cases x
        · exact .inl ⟨u, rest, by simp, by simpa using h⟩
        · exact .inr ⟨u, rest, by simp, by simpa using h⟩

/-- The symbols the walk meets are the first bytes of the leaves, in preorder. -/
theorem Node.codes_keys {n : Node} (h : n.plain = true) (p : List Bool) :
    (n.codes p).map (fun c => [c.1]) = n.leaves := by
  induction n generalizing p with
  | leaf sym =>
    simp only [Node.plain, beq_iff_eq, List.length_eq_one_iff] at h
    obtain ⟨b, rfl⟩ := h
    rfl
  | sentinel => simp [Node.plain] at h
  | internal l r ihl ihr =>
    simp only [Node.plain, Bool.and_eq_true] at h
    simp [Node.codes, Node.leaves, ihl h.1, ihr h.2]

theorem Node.plain_leaves_pos {n : Node} (h : n.plain = true) : 1 ≤ n.leaves.length := by
  induction n with
  | leaf sym => simp [Node.leaves]
  | sentinel => simp [Node.plain] at h
  | internal l r ihl ihr =>
    simp only [Node.plain, Bool.and_eq_true] at h
    have := ihl h.1
    simp only [Node.leaves, List.length_append]; omega

/-- Every leaf of a plain tree holds one byte. -/
theorem Node.plain_leaf {n : Node} {p : List Bool} {sym : List Byte} (h : n.plain = true)
    (hf : n.follow p = some (.leaf sym)) : ∃ b, sym = [b] := by
  induction p generalizing n with
  | nil =>
    simp at hf; subst hf
    simpa [Node.plain, List.length_eq_one_iff] using h
  | cons x p ih =>
    obtain ⟨l, r, rfl⟩ := Node.internal_of_follow hf
    simp only [Node.plain, Bool.and_eq_true] at h
    rw [Node.follow_internal] at hf
    cases x
    · exact ih h.1 (by simpa using hf)
    · exact ih h.2 (by simpa using hf)

/-- "A leaf is at depth at most N − 1" (00_scope.md R13). -/
theorem Node.depth_lt_leaves {n m : Node} {p : List Bool} (h : n.plain = true) (hf : n.follow p = some m) :
    p.length < n.leaves.length := by
  induction p generalizing n with
  | nil => exact Node.plain_leaves_pos h
  | cons x p ih =>
    obtain ⟨l, r, rfl⟩ := Node.internal_of_follow hf
    simp only [Node.plain, Bool.and_eq_true] at h
    rw [Node.follow_internal] at hf
    have hl := Node.plain_leaves_pos h.1
    have hr := Node.plain_leaves_pos h.2
    simp only [Node.leaves, List.length_append, List.length_cons]
    cases x
    · have := ih h.1 (by simpa using hf); omega
    · have := ih h.2 (by simpa using hf); omega

theorem nodup_keys {codes : List (Byte × List Bool)} (h : (codes.map fun c => [c.1]).Nodup) :
    (codes.map Prod.fst).Nodup := by
  have e : codes.map (fun c => [c.1]) = (codes.map Prod.fst).map fun b => [b] := by simp
  rw [e] at h
  exact h.of_map

/-- A plain tree with no symbol twice has at most 256 leaves. -/
theorem Node.leaves_le {n : Node} (h : n.plain = true) (hd : n.leaves.Nodup) : n.leaves.length ≤ 256 := by
  rw [← Node.codes_keys h []] at hd ⊢
  have hd' : ((n.codes []).map Prod.fst).Nodup := by
    exact nodup_keys hd
  have := (hd'.subperm (fun b _ => mem_allBytes b)).length_le
  simpa using this

theorem lookup_of_mem {codes : List (Byte × List Bool)} {b : Byte} {q : List Bool} (hd : (codes.map Prod.fst).Nodup)
    (h : (b, q) ∈ codes) : codes.lookup b = some q := by
  induction codes with
  | nil => simp at h
  | cons c codes ih =>
    obtain ⟨x, y⟩ := c
    simp only [List.map_cons, List.nodup_cons] at hd
    rw [List.lookup_cons]
    rcases List.mem_cons.1 h with h | h
    · obtain ⟨rfl, rfl⟩ := Prod.mk.inj h; simp
    · have hne : b ≠ x := fun e => hd.1 (List.mem_map.2 ⟨(b, q), h, e⟩)
      rw [beq_false_of_ne hne]; exact ih hd.2 h

theorem lookup_none {codes : List (Byte × List Bool)} {b : Byte} (h : ∀ q, (b, q) ∉ codes) : codes.lookup b = none := by
  induction codes with
  | nil => rfl
  | cons c codes ih =>
    obtain ⟨x, y⟩ := c
    have hne : b ≠ x := by rintro rfl; exact h y (List.mem_cons_self ..)
    rw [List.lookup_cons, beq_false_of_ne hne]
    exact ih (fun q hq => h q (List.mem_cons_of_mem _ hq))

/-! ## Built trees -/

theorem Node.builtShape.keys_nodup {t : Node} (h : t.builtShape) : ((t.codes []).map Prod.fst).Nodup := by
  rcases h with ⟨b, rfl⟩ | ⟨hp, -, hd⟩
  · simp [Node.codes]
  · rw [← Node.codes_keys hp []] at hd
    exact nodup_keys hd

/-- Every path to a leaf of a Built tree is 1 to 255 bits long (00_scope.md R13). -/
theorem Node.builtShape.path_length {t : Node} (h : t.builtShape) {p : List Bool} {sym : List Byte}
    (hf : t.follow p = some (.leaf sym)) : 1 ≤ p.length ∧ p.length ≤ 255 := by
  rcases h with ⟨b, rfl⟩ | ⟨hp, h2, hd⟩
  · cases p with
    | nil => simp at hf
    | cons x p =>
      rw [Node.follow_internal] at hf
      cases p with
      | nil => simp
      | cons y p => cases x <;> simp [Node.follow, Node.child] at hf
  · have h1 := Node.depth_lt_leaves hp hf
    have h3 := Node.leaves_le hp hd
    refine ⟨?_, by omega⟩
    cases p with
    | nil => simp at hf; subst hf; simp [Node.leaves] at h2
    | cons x p => simp

/-- Every leaf of a Built tree holds one byte. -/
theorem Node.builtShape.leaf_byte {t : Node} (h : t.builtShape) {p : List Bool} {sym : List Byte}
    (hf : t.follow p = some (.leaf sym)) : ∃ b, sym = [b] := by
  rcases h with ⟨b, rfl⟩ | ⟨hp, -, -⟩
  · cases p with
    | nil => simp at hf
    | cons x p =>
      rw [Node.follow_internal] at hf
      cases p with
      | nil => cases x <;> simp at hf; exact ⟨b, hf.symm⟩
      | cons y p => cases x <;> simp [Node.follow, Node.child] at hf
  · exact Node.plain_leaf hp hf

/-- On a Built tree the code of a symbol is the path to its leaf. -/
theorem Node.builtShape.codeFor_path {t : Node} (h : t.builtShape) {p : List Bool} {b : Byte}
    (hf : t.follow p = some (.leaf [b])) : codeFor (t.codes []) b = p := by
  have hm : (b, p) ∈ t.codes [] := Node.mem_codes.2 ⟨p, [], by simp, hf⟩
  rw [codeFor, lookup_of_mem h.keys_nodup hm]; rfl

/-- A symbol that is on no leaf has no code. -/
theorem Node.builtShape.codeFor_nil {t : Node} (h : t.builtShape) {b : Byte}
    (hf : ∀ p, t.follow p ≠ some (.leaf [b])) : codeFor (t.codes []) b = [] := by
  rw [codeFor, lookup_none]; · rfl
  intro q hq
  obtain ⟨r, rest, -, hr⟩ := Node.mem_codes.1 hq
  obtain ⟨c, hc⟩ := h.leaf_byte hr
  obtain ⟨rfl, rfl⟩ : b = c ∧ rest = [] := by simpa using hc
  exact hf r hr

/-- A code is empty or the path to its symbol's leaf. -/
theorem Node.builtShape.codeFor_cases {t : Node} (h : t.builtShape) (b : Byte) :
    codeFor (t.codes []) b = [] ∨ t.follow (codeFor (t.codes []) b) = some (.leaf [b]) := by
  by_cases hb : ∃ p, t.follow p = some (.leaf [b])
  · obtain ⟨p, hp⟩ := hb
    right; rwa [h.codeFor_path hp]
  · left; exact h.codeFor_nil (by simpa using hb)

theorem Node.builtShape.codeFor_length {t : Node} (h : t.builtShape) (b : Byte) :
    (codeFor (t.codes []) b).length < 256 := by
  rcases h.codeFor_cases b with hb | hb
  · simp [hb]
  · have := (h.path_length hb).2; omega

/-- No path to a leaf is the beginning of a path to another (R212). -/
theorem Node.leaf_paths_prefix_free {t : Node} {p q : List Bool} {x y : List Byte}
    (hp : t.follow p = some (.leaf x)) (hq : t.follow q = some (.leaf y)) (h : p <+: q) : p = q := by
  obtain ⟨r, rfl⟩ := h
  rw [Node.follow_append, hp] at hq
  cases r with
  | nil => simp
  | cons b r => simp [Node.follow, Node.child] at hq

/-- Kraft's equality on a tree without Sentinel, in units of `2 ^ -n` (R212). -/
theorem Node.kraft {t : Node} (hp : t.plain = true) (p : List Bool) {n : Nat}
    (h : ∀ q m, t.follow q = some m → p.length + q.length ≤ n) :
    ((t.codes p).map fun c => 2 ^ (n - c.2.length)).sum = 2 ^ (n - p.length) := by
  induction t generalizing p with
  | leaf sym =>
    simp only [Node.plain, beq_iff_eq, List.length_eq_one_iff] at hp
    obtain ⟨b, rfl⟩ := hp
    simp [Node.codes]
  | sentinel => simp [Node.plain] at hp
  | internal l r ihl ihr =>
    simp only [Node.plain, Bool.and_eq_true] at hp
    rw [Node.codes, List.map_append, List.sum_append, ihl hp.1, ihr hp.2]
    · have := h [true] r rfl
      simp only [List.length_append, List.length_singleton] at this ⊢
      rw [show n - p.length = n - (p.length + 1) + 1 by omega, pow_succ]; omega
    · intro q m hq; have := h (true :: q) m (by simpa using hq); simp at this ⊢; omega
    · intro q m hq; have := h (false :: q) m (by simpa using hq); simp at this ⊢; omega

end Sys2Proof.Machine
end

