-- ==== Sys2Proof/Laws/TreeCodec.lean ====
section
/-! SUPPORT. The laws of the serialized tree: what Parse accepts is exactly what Ser makes (44_tree_codec.md R220 to
R236), and where it stops otherwise. -/

namespace Sys2Proof.Machine

/-- `hlen(n) = |Ser(n)|` (R223). -/
@[simp] theorem length_ser (t : Node) : t.ser.length = t.hlen := by
  induction t with
  | leaf sym => simp [Node.ser, Node.hlen]; omega
  | sentinel => rfl
  | internal l r hl hr => simp [Node.ser, Node.hlen, hl, hr]; omega

theorem two_le_hlen (t : Node) : 2 ≤ t.hlen := by
  cases t with
  | leaf sym => simp [Node.hlen]
  | sentinel => simp [Node.hlen]
  | internal l r => have := two_le_hlen l; simp [Node.hlen]; omega

@[simp] theorem leafOf_cons (b : Byte) (bs : List Byte) : leafOf (b :: bs) = .leaf (b :: bs) := rfl

theorem leafOf_of_ne_nil {sym : List Byte} (h : sym ≠ []) : leafOf sym = .leaf sym := by
  cases sym with
  | nil => exact absurd rfl h
  | cons b bs => rfl

/-- The serialized form of what a leaf encoding becomes, Sentinel or Leaf (R232, R233). -/
theorem ser_leafOf (sym : List Byte) : (leafOf sym).ser = 0x00 :: BitVec.ofNat 8 sym.length :: sym := by
  cases sym <;> rfl

/-! ## Header bytes -/

theorem hdrByte_eq_ok {s : State} {base p : Nat} {b : Byte} :
    hdrByte s base p = .ok b ↔ p < s.inLen.toNat ∧ p - base + 1 ≤ s.caps.hdrCap ∧ s.inbuf.read p = some b := by
  simp only [hdrByte, bind_eq_ok, ensure_eq_ok, inByte_eq_ok]
  simp

theorem hdrByte_exhausted {s : State} {base p : Nat} (h : s.inLen.toNat ≤ p) :
    hdrByte s base p = raise .malformedTree p := by
  rw [hdrByte, ensure_neg (by omega), raise_bind]

theorem hdrByte_over {s : State} {base p : Nat} (h : p < s.inLen.toNat) (h2 : s.caps.hdrCap < p - base + 1) :
    hdrByte s base p = raise .resourceLimit p := by
  rw [hdrByte, ensure_pos h, ok_bind, ensure_neg (by omega), raise_bind]

theorem hdrByte_unwritten {s : State} {base p : Nat} (h : p < s.inLen.toNat) (h2 : p - base + 1 ≤ s.caps.hdrCap)
    (hu : s.inbuf.read p = none) : hdrByte s base p = .error (.fault (.uninitRead p)) := by
  rw [hdrByte, ensure_pos h, ok_bind, ensure_pos h2, ok_bind, inByte_of_unwritten hu]

theorem hdrBytes_eq_ok {s : State} {base p k : Nat} {bs : List Byte} :
    hdrBytes s base p k = .ok bs ↔
      bs.length = k ∧ HoldsAt s.inbuf p bs ∧ ∀ i, i < k → p + i < s.inLen.toNat ∧ p + i - base + 1 ≤ s.caps.hdrCap := by
  induction k generalizing p bs with
  | zero => cases bs <;> simp [hdrBytes]
  | succ k ih =>
    simp only [hdrBytes, bind_eq_ok, hdrByte_eq_ok, ih]
    constructor
    · rintro ⟨b, ⟨h1, h2, hb⟩, rest, ⟨hl, hr, hi⟩, h⟩
      obtain rfl : b :: rest = bs := by simpa using h
      refine ⟨by simp [hl], HoldsAt.cons.2 ⟨hb, hr⟩, fun i hk => ?_⟩
      cases i with
      | zero => exact ⟨h1, h2⟩
      | succ i => have := hi i (by omega); rw [show p + (i + 1) = p + 1 + i by omega]; exact this
    · rintro ⟨hl, h, hi⟩
      cases bs with
      | nil => simp at hl
      | cons b rest =>
        obtain ⟨hb, hr⟩ := HoldsAt.cons.1 h
        have h0 := hi 0 (by omega)
        refine ⟨b, ⟨h0.1, h0.2, hb⟩, rest, ⟨by simpa using hl, hr, fun i hk => ?_⟩, rfl⟩
        have := hi (i + 1) (by omega)
        rwa [show p + (i + 1) = p + 1 + i by omega] at this

/-- Reading header bytes stops where the first byte that cannot be fetched is. -/
theorem hdrBytes_error {s : State} {base p k : Nat} {bs : List Byte} {x : Stop} (h : HoldsAt s.inbuf p bs)
    (hk : bs.length < k) (hi : ∀ i, i < bs.length → p + i < s.inLen.toNat ∧ p + i - base + 1 ≤ s.caps.hdrCap)
    (hf : hdrByte s base (p + bs.length) = .error x) :
    hdrBytes s base p k = .error x := by
  induction bs generalizing p k with
  | nil =>
    cases k with
    | zero => simp at hk
    | succ k =>
      simp only [List.length_nil, Nat.add_zero] at hf
      rw [hdrBytes, hf, error_bind]
  | cons b bs ih =>
    obtain ⟨hb, hr⟩ := HoldsAt.cons.1 h
    cases k with
    | zero => simp at hk
    | succ k =>
      have h0 := hi 0 (by simp)
      have hok : hdrByte s base p = .ok b := hdrByte_eq_ok.2 ⟨h0.1, h0.2, hb⟩
      rw [hdrBytes, hok, ok_bind]
      have e1 : p + (b :: bs).length = p + 1 + bs.length := by simp only [List.length_cons]; omega
      rw [e1] at hf
      rw [ih hr (by simpa using hk) (fun i h => ?_) hf, error_bind]
      have := hi (i + 1) (by simpa using h)
      rwa [show p + (i + 1) = p + 1 + i by omega] at this

/-! ## What Parse accepts -/

/-- One level of `Node(p)` (R230). -/
theorem parseNode_succ (s : State) (base depth p : Nat) :
    parseNode s base (depth + 1) p = (do
      let t ← hdrByte s base p
      if t = 0x01 then do
        let (l, p1) ← parseNode s base depth (p + 1)
        let (r, p2) ← parseNode s base depth p1
        .ok (.internal l r, p2)
      else if t = 0x00 then do
        let len ← hdrByte s base (p + 1)
        let sym ← hdrBytes s base (p + 2) len.toNat
        .ok (leafOf sym, p + 2 + len.toNat)
      else raise .malformedTree p) := rfl

/-- Soundness: a parsed node is well formed, its serialization is what IN holds, and the bounds were met. -/
theorem parseNode_ok {s : State} {base d p p' : Nat} {t : Node} (h : parseNode s base d p = .ok (t, p')) :
    t.wellFormed = true ∧ p' = p + t.hlen ∧ HoldsAt s.inbuf p t.ser ∧ p' ≤ s.inLen.toNat ∧
      (base ≤ p → p' - base ≤ s.caps.hdrCap) := by
  induction d generalizing p p' t with
  | zero => simp [parseNode] at h
  | succ d ih =>
    simp only [parseNode_succ, bind_eq_ok, hdrByte_eq_ok] at h
    obtain ⟨tag, ⟨hp, hc, ht⟩, h⟩ := h
    split_ifs at h with h1 h0
    · subst h1
      simp only [bind_eq_ok, Prod.exists] at h
      obtain ⟨l, p1, hl, r, p2, hr, h⟩ := h
      obtain ⟨rfl, rfl⟩ : Node.internal l r = t ∧ p2 = p' := by simpa using h
      obtain ⟨wl, rfl, al, bl, cl⟩ := ih hl
      obtain ⟨wr, rfl, ar, br, cr⟩ := ih hr
      refine ⟨by simp [Node.wellFormed, wl, wr], by simp only [Node.hlen]; omega, ?_, br, fun h => cr (by omega)⟩
      rw [Node.ser, HoldsAt.cons, HoldsAt.append, length_ser]
      exact ⟨ht, al, ar⟩
    · subst h0
      simp only [bind_eq_ok, hdrByte_eq_ok, hdrBytes_eq_ok] at h
      obtain ⟨len, ⟨hp1, hc1, hlen⟩, sym, ⟨hsl, hsym, hi⟩, h⟩ := h
      obtain ⟨rfl, rfl⟩ : leafOf sym = t ∧ p + 2 + len.toNat = p' := by simpa using h
      have hlt : sym.length < 256 := by rw [hsl]; exact len.isLt
      have hser : HoldsAt s.inbuf p (leafOf sym).ser := by
        rw [ser_leafOf, HoldsAt.cons, HoldsAt.cons, hsl]
        exact ⟨ht, by simpa using hlen, hsym⟩
      refine ⟨?_, ?_, hser, ?_, ?_⟩
      · cases sym with
        | nil => rfl
        | cons b bs =>
          simp only [leafOf_cons, Node.wellFormed, decide_eq_true_eq]
          simp only [List.length_cons] at hlt ⊢
          omega
      · rw [← length_ser, ser_leafOf, ← hsl]; simp only [List.length_cons]; omega
      · by_cases h : len.toNat = 0
        · omega
        · have := hi (len.toNat - 1) (by omega); omega
      · intro hb
        by_cases h : len.toNat = 0
        · omega
        · have := hi (len.toNat - 1) (by omega); omega
    · simp at h

/-- Completeness: Parse reads a serialized node back, whatever follows it (R236). -/
theorem parseNode_ser {s : State} {base p : Nat} {t : Node} (wf : t.wellFormed = true) (hs : HoldsAt s.inbuf p t.ser)
    (hb : base ≤ p) (hi : p + t.hlen ≤ s.inLen.toNat) (hc : p + t.hlen - base ≤ s.caps.hdrCap) :
    ∀ d, t.hlen ≤ d → parseNode s base d p = .ok (t, p + t.hlen) := by
  induction t generalizing p with
  | leaf sym =>
    intro d hd
    simp only [Node.wellFormed, decide_eq_true_eq] at wf
    simp only [Node.hlen] at hi hc hd ⊢
    obtain ⟨d, rfl⟩ : ∃ e, d = e + 1 := ⟨d - 1, by omega⟩
    simp only [Node.ser, HoldsAt.cons] at hs
    obtain ⟨ht, hl, hsym⟩ := hs
    have htag : hdrByte s base p = .ok 0x00 := hdrByte_eq_ok.2 ⟨by omega, by omega, ht⟩
    have hlen : hdrByte s base (p + 1) = .ok (BitVec.ofNat 8 sym.length) :=
      hdrByte_eq_ok.2 ⟨by omega, by omega, hl⟩
    have hn : (BitVec.ofNat 8 sym.length).toNat = sym.length := by simp; omega
    have hbytes : hdrBytes s base (p + 2) sym.length = .ok sym :=
      hdrBytes_eq_ok.2 ⟨rfl, hsym, fun i hk => ⟨by omega, by omega⟩⟩
    simp only [parseNode_succ, htag, ok_bind, hlen, hn, hbytes]
    rw [if_neg (by decide), if_pos trivial, leafOf_of_ne_nil (by intro h; simp [h] at wf)]
    simp [Nat.add_assoc]
  | sentinel =>
    intro d hd
    simp only [Node.hlen] at hi hc hd ⊢
    obtain ⟨d, rfl⟩ : ∃ e, d = e + 1 := ⟨d - 1, by omega⟩
    simp only [Node.ser, HoldsAt.cons] at hs
    obtain ⟨ht, hl, -⟩ := hs
    have htag : hdrByte s base p = .ok 0x00 := hdrByte_eq_ok.2 ⟨by omega, by omega, ht⟩
    have hlen : hdrByte s base (p + 1) = .ok 0x00 := hdrByte_eq_ok.2 ⟨by omega, by omega, hl⟩
    simp only [parseNode_succ, htag, ok_bind, hlen]
    rw [if_neg (by decide), if_pos trivial]
    rfl
  | internal l r ihl ihr =>
    intro d hd
    simp only [Node.wellFormed, Bool.and_eq_true] at wf
    simp only [Node.hlen] at hi hc hd ⊢
    obtain ⟨d, rfl⟩ : ∃ e, d = e + 1 := ⟨d - 1, by omega⟩
    rw [Node.ser, HoldsAt.cons, HoldsAt.append, length_ser] at hs
    obtain ⟨ht, hl, hr⟩ := hs
    have := two_le_hlen l
    have := two_le_hlen r
    have htag : hdrByte s base p = .ok 0x01 := hdrByte_eq_ok.2 ⟨by omega, by omega, ht⟩
    simp only [parseNode_succ, htag, ok_bind, if_true, ihl wf.1 hl (by omega) (by omega) (by omega) d (by omega),
      ihr wf.2 hr (by omega) (by omega) (by omega) d (by omega)]
    rw [show p + 1 + l.hlen + r.hlen = p + (1 + l.hlen + r.hlen) by omega]

/-- The depth bound of `parseTree` is never met: one level more changes nothing (R230). -/
theorem parseNode_depth {s : State} {base d p : Nat} (hb : base ≤ p) (hd : s.caps.hdrCap + 1 ≤ d + (p - base))
    (h1 : 1 ≤ d) : parseNode s base (d + 1) p = parseNode s base d p := by
  induction d generalizing p with
  | zero => omega
  | succ d ih =>
    rw [parseNode_succ s base (d + 1) p, parseNode_succ s base d p]
    cases htag : hdrByte s base p with
    | error e => rfl
    | ok tag =>
      obtain ⟨-, hc, -⟩ := hdrByte_eq_ok.1 htag
      simp only [ok_bind]
      split_ifs with h
      · rw [ih (p := p + 1) (by omega) (by omega) (by omega)]
        cases hl : parseNode s base d (p + 1) with
        | error e => rfl
        | ok x =>
          obtain ⟨l, p1⟩ := x
          obtain ⟨-, rfl, -⟩ := parseNode_ok hl
          simp only [ok_bind]
          rw [ih (p := p + 1 + l.hlen) (by omega) (by omega) (by omega)]
      · rfl
      · rfl

/-- R230's equation for `Node(p)`, with no depth bound in sight. -/
theorem parseTree_eq (s : State) (base : Nat) :
    parseTree s base = parseNode s base (s.caps.hdrCap + 2) base :=
  (parseNode_depth (le_refl _) (by omega) (by omega)).symm

/-- Where the bytes in reach are only the beginning of a serialized node, Parse stops at the first byte out of reach,
with the error that byte gives. -/
theorem parseNode_stops {s : State} {base p : Nat} {t : Node} {bs : List Byte} {x : Stop}
    (wf : t.wellFormed = true) (hs : HoldsAt s.inbuf p bs) (hb : base ≤ p) (hpre : bs <+: t.ser)
    (hlt : bs.length < t.hlen)
    (hi : ∀ i, i < bs.length → p + i < s.inLen.toNat ∧ p + i - base + 1 ≤ s.caps.hdrCap)
    (hf : hdrByte s base (p + bs.length) = .error x) :
    ∀ d, bs.length < d → parseNode s base d p = .error x := by
  induction t generalizing p bs with
  | leaf sym =>
    intro d hd
    obtain ⟨d, rfl⟩ : ∃ e, d = e + 1 := ⟨d - 1, by omega⟩
    simp only [Node.wellFormed, decide_eq_true_eq] at wf
    cases bs with
    | nil =>
      simp only [List.length_nil, Nat.add_zero] at hf
      rw [parseNode_succ, hf, error_bind]
    | cons b bs =>
      rw [Node.ser, List.cons_prefix_cons] at hpre
      obtain ⟨rfl, hpre⟩ := hpre
      obtain ⟨hb0, hs⟩ := HoldsAt.cons.1 hs
      have h0 := hi 0 (by simp)
      have htag : hdrByte s base p = .ok 0x00 := hdrByte_eq_ok.2 ⟨h0.1, h0.2, hb0⟩
      rw [parseNode_succ, htag, ok_bind, if_neg (by decide), if_pos rfl]
      cases bs with
      | nil => rw [show p + 1 = p + [(0x00 : Byte)].length by simp, hf, error_bind]
      | cons b bs =>
        rw [List.cons_prefix_cons] at hpre
        obtain ⟨rfl, hpre⟩ := hpre
        obtain ⟨hb1, hs⟩ := HoldsAt.cons.1 hs
        have h1 := hi 1 (by simp)
        have hlen : hdrByte s base (p + 1) = .ok (BitVec.ofNat 8 sym.length) := hdrByte_eq_ok.2 ⟨h1.1, h1.2, hb1⟩
        have hn : (BitVec.ofNat 8 sym.length).toNat = sym.length := by simp; omega
        rw [hlen, ok_bind, hn]
        have e1 : p + ((0x00 : Byte) :: BitVec.ofNat 8 sym.length :: bs).length = p + 2 + bs.length := by
          simp only [List.length_cons]; omega
        rw [e1] at hf
        rw [hdrBytes_error (x := x) hs ?_ (fun i h => ?_) hf, error_bind]
        · simp only [Node.hlen, List.length_cons] at hlt; omega
        · have := hi (i + 2) (by simpa using h)
          rwa [show p + (i + 2) = p + 2 + i by omega] at this
  | sentinel =>
    intro d hd
    obtain ⟨d, rfl⟩ : ∃ e, d = e + 1 := ⟨d - 1, by omega⟩
    cases bs with
    | nil =>
      simp only [List.length_nil, Nat.add_zero] at hf
      rw [parseNode_succ, hf, error_bind]
    | cons b bs =>
      rw [Node.ser, List.cons_prefix_cons] at hpre
      obtain ⟨rfl, hpre⟩ := hpre
      obtain ⟨hb0, hs⟩ := HoldsAt.cons.1 hs
      have h0 := hi 0 (by simp)
      have htag : hdrByte s base p = .ok 0x00 := hdrByte_eq_ok.2 ⟨h0.1, h0.2, hb0⟩
      cases bs with
      | nil =>
        rw [parseNode_succ, htag, ok_bind, if_neg (by decide), if_pos rfl,
          show p + 1 = p + [(0x00 : Byte)].length by simp, hf, error_bind]
      | cons b bs => simp only [Node.hlen, List.length_cons] at hlt; omega
  | internal l r ihl ihr =>
    intro d hd
    obtain ⟨d, rfl⟩ : ∃ e, d = e + 1 := ⟨d - 1, by omega⟩
    simp only [Node.wellFormed, Bool.and_eq_true] at wf
    cases bs with
    | nil =>
      simp only [List.length_nil, Nat.add_zero] at hf
      rw [parseNode_succ, hf, error_bind]
    | cons b bs =>
      rw [Node.ser, List.cons_prefix_cons] at hpre
      obtain ⟨rfl, hpre⟩ := hpre
      obtain ⟨hb0, hs⟩ := HoldsAt.cons.1 hs
      have h0 := hi 0 (by simp)
      have htag : hdrByte s base p = .ok 0x01 := hdrByte_eq_ok.2 ⟨h0.1, h0.2, hb0⟩
      have e1 : p + ((0x01 : Byte) :: bs).length = p + 1 + bs.length := by simp only [List.length_cons]; omega
      rw [e1] at hf
      have hi' : ∀ i, i < bs.length → p + 1 + i < s.inLen.toNat ∧ p + 1 + i - base + 1 ≤ s.caps.hdrCap := by
        intro i h
        have := hi (i + 1) (by simpa using h)
        rwa [show p + (i + 1) = p + 1 + i by omega] at this
      simp only [List.length_cons, Node.hlen] at hd hlt
      rw [parseNode_succ, htag, ok_bind, if_pos rfl]
      by_cases hl : bs.length < l.hlen
      · rw [ihl wf.1 hs (by omega) (List.prefix_of_prefix_length_le hpre (List.prefix_append _ _)
          (by rw [length_ser]; omega)) hl hi' hf d (by omega), error_bind]
      · obtain ⟨ys, rfl⟩ : l.ser <+: bs :=
          List.prefix_of_prefix_length_le (List.prefix_append _ _) hpre (by rw [length_ser]; omega)
        rw [List.prefix_append_right_inj] at hpre
        obtain ⟨hs1, hs2⟩ := HoldsAt.append.1 hs
        simp only [List.length_append, length_ser] at *
        have h2 := two_le_hlen l
        have hlast := hi' (l.hlen - 1) (by omega)
        rw [parseNode_ser wf.1 hs1 (by omega) (by omega) (by omega) d (by omega), ok_bind]
        simp only
        rw [show p + 1 + (l.hlen + ys.length) = p + 1 + l.hlen + ys.length by omega] at hf
        rw [ihr wf.2 hs2 (by omega) hpre (by omega) (fun i h => ?_) hf d (by omega), error_bind]
        have := hi' (l.hlen + i) (by omega)
        rwa [show p + 1 + (l.hlen + i) = p + 1 + l.hlen + i by omega] at this

/-- A parse that needs a header byte it cannot have stops with the error that byte gives (R230, R234). -/
theorem parseTree_stops {s : State} {base k : Nat} {x : Stop} (h : s.AtHeaderByte base k)
    (hf : hdrByte s base k = .error x) : parseTree s base = .error x := by
  obtain ⟨t, bs, wf, hpre, hlt, hs, hcap, hin, rfl⟩ := h
  rw [length_ser] at hlt
  refine parseNode_stops wf hs (le_refl _) hpre hlt (fun i hi => ?_) hf _ (by omega)
  rcases hin with rfl | hin
  · simp at hi
  · omega

theorem Node.tagOffsets_lt {t : Node} {k : Nat} (h : k ∈ t.tagOffsets) : k < t.hlen := by
  induction t generalizing k with
  | leaf sym => simp [Node.tagOffsets] at h; subst h; simp [Node.hlen]
  | sentinel => simp [Node.tagOffsets] at h; subst h; simp [Node.hlen]
  | internal l r ihl ihr =>
    simp only [Node.tagOffsets, List.mem_cons, List.mem_append, List.mem_map] at h
    simp only [Node.hlen]
    rcases h with rfl | ⟨a, ha, rfl⟩ | ⟨a, ha, rfl⟩
    · omega
    · have := ihl ha; omega
    · have := ihr ha; omega

/-- A bad tag where a node's encoding begins stops Parse there (R231). -/
theorem parseNode_badTag {s : State} {base : Nat} {bad : Byte} (h0 : bad ≠ 0x00) (h1 : bad ≠ 0x01) {t : Node}
    {p k : Nat} (wf : t.wellFormed = true) (hk : k ∈ t.tagOffsets) (hp : base ≤ p)
    (hs : HoldsAt s.inbuf p (t.ser.take k ++ [bad])) (hi : p + k < s.inLen.toNat)
    (hc : p + k - base + 1 ≤ s.caps.hdrCap) :
    ∀ d, k < d → parseNode s base d p = raise .malformedTree (p + k) := by
  have zero : ∀ {p d}, base ≤ p → HoldsAt s.inbuf p [bad] → p < s.inLen.toNat → p - base + 1 ≤ s.caps.hdrCap → 0 < d → parseNode s base d p = raise .malformedTree p := by
    intro p d hp hs hi hc hd
    obtain ⟨d, rfl⟩ : ∃ e, d = e + 1 := ⟨d - 1, by omega⟩
    have ht : hdrByte s base p = .ok bad := hdrByte_eq_ok.2 ⟨hi, hc, (HoldsAt.cons.1 hs).1⟩
    rw [parseNode_succ, ht, ok_bind, if_neg h1, if_neg h0]
  induction t generalizing p k with
  | leaf sym =>
    intro d hd
    obtain rfl : k = 0 := by simpa [Node.tagOffsets] using hk
    simpa using zero hp (by simpa using hs) (by omega) (by omega) hd
  | sentinel =>
    intro d hd
    obtain rfl : k = 0 := by simpa [Node.tagOffsets] using hk
    simpa using zero hp (by simpa using hs) (by omega) (by omega) hd
  | internal l r ihl ihr =>
    intro d hd
    obtain ⟨d, rfl⟩ : ∃ e, d = e + 1 := ⟨d - 1, by omega⟩
    simp only [Node.wellFormed, Bool.and_eq_true] at wf
    simp only [Node.tagOffsets, List.mem_cons, List.mem_append, List.mem_map] at hk
    rcases hk with rfl | ⟨a, ha, rfl⟩ | ⟨a, ha, rfl⟩
    · simpa using zero hp (by simpa using hs) (by omega) (by omega) (by omega)
    · have hal := Node.tagOffsets_lt ha
      rw [Node.ser, show 1 + a = a + 1 by omega, List.take_succ_cons, List.cons_append, HoldsAt.cons,
        List.take_append_of_le_length (by rw [length_ser]; omega)] at hs
      have ht : hdrByte s base p = .ok 0x01 := hdrByte_eq_ok.2 ⟨by omega, by omega, hs.1⟩
      rw [parseNode_succ, ht, ok_bind, if_pos rfl, ihl wf.1 ha (by omega) hs.2 (by omega) (by omega) d (by omega), raise_bind, Nat.add_assoc]
    · have har := Node.tagOffsets_lt ha
      have e : (Node.internal l r).ser.take (1 + l.hlen + a) = 0x01 :: (l.ser ++ r.ser.take a) := by
        rw [Node.ser, show 1 + l.hlen + a = (l.hlen + a) + 1 by omega, List.take_succ_cons, ← length_ser, List.take_length_add_append]
      rw [e, List.cons_append, HoldsAt.cons, List.append_assoc, HoldsAt.append, length_ser] at hs
      have ht : hdrByte s base p = .ok 0x01 := hdrByte_eq_ok.2 ⟨by omega, by omega, hs.1⟩
      have h2 := two_le_hlen l
      rw [parseNode_succ, ht, ok_bind, if_pos rfl, parseNode_ser wf.1 hs.2.1 (by omega) (by omega) (by omega) d (by omega), ok_bind]
      simp only
      rw [ihr wf.2 ha (by omega) hs.2.2 (by omega) (by omega) d (by omega), raise_bind, show p + 1 + l.hlen + a = p + (1 + l.hlen + a) by omega]

end Sys2Proof.Machine
end

