-- ==== Sys2Proof/Laws/Writer.lean ====
section
/-! SUPPORT. The laws of PACK's loop (45_bitstream_writer.md R250, R251). -/

namespace Sys2Proof.Machine

@[simp] theorem length_codeOf (s : State) (b : Byte) : (s.codeOf b).length = s.lenOf b := by simp [State.codeOf]

/-- The loop gathers the codes of the bytes before it in order, when every one of them has a code and they fit, and goes on
behind them. -/
theorem packBits_prefix {s : State} {o : Nat} {bytes : List Byte} {i len : Nat} (h : HoldsAt s.inbuf i bytes)
    (hc : ∀ b ∈ bytes, s.lenOf b ≠ 0)
    (hf : o + 4 + ceil8 (len + (bytes.flatMap s.codeOf).length) ≤ s.caps.outCap) (k : Nat) :
    packBits s o (bytes.length + k) i len = (do
      let rest ← packBits s o k (i + bytes.length) (len + (bytes.flatMap s.codeOf).length)
      .ok (bytes.flatMap s.codeOf ++ rest)) := by
  induction bytes generalizing i len with
  | nil =>
    simp only [List.length_nil, Nat.zero_add, List.flatMap_nil, Nat.add_zero, List.nil_append]
    cases packBits s o k i len <;> rfl
  | cons b bytes ih =>
    obtain ⟨hb, hr⟩ := HoldsAt.cons.1 h
    simp only [List.flatMap_cons, List.length_append, length_codeOf, List.length_cons] at hf ⊢
    have hm : ceil8 (len + s.lenOf b) ≤ ceil8 (len + (s.lenOf b + (bytes.flatMap s.codeOf).length)) :=
      ceil8_mono (by omega)
    have e : len + s.lenOf b + (bytes.flatMap s.codeOf).length = len + (s.lenOf b + (bytes.flatMap s.codeOf).length) := by
      omega
    rw [show bytes.length + 1 + k = bytes.length + k + 1 by omega, packBits, inByte_of_read hb, ok_bind,
      ensure_pos (hc b (by simp)), ok_bind, ensure_pos (by omega), ok_bind, ih hr (fun c hcm => hc c (by simp [hcm])) (by rwa [e]),
      e, show i + 1 + bytes.length = i + (bytes.length + 1) by omega]
    cases packBits s o k (i + (bytes.length + 1)) (len + (s.lenOf b + (bytes.flatMap s.codeOf).length)) with
    | error e => rfl
    | ok rest => simp

/-- The loop gathers the codes of the whole input in order, when every byte has one and they fit. -/
theorem packBits_ok {s : State} {o : Nat} {bytes : List Byte} {i len : Nat} (h : HoldsAt s.inbuf i bytes)
    (hc : ∀ b ∈ bytes, s.lenOf b ≠ 0)
    (hf : o + 4 + ceil8 (len + (bytes.flatMap s.codeOf).length) ≤ s.caps.outCap) :
    packBits s o bytes.length i len = .ok (bytes.flatMap s.codeOf) := by
  have := packBits_prefix h hc hf 0
  rwa [Nat.add_zero, packBits, ok_bind, List.append_nil] at this

/-- The loop stops at the first byte without a code, whatever is behind it. -/
theorem packBits_uncoded {s : State} {o : Nat} {bytes : List Byte} {u : Byte} {i len : Nat}
    (h : HoldsAt s.inbuf i (bytes ++ [u])) (hc : ∀ b ∈ bytes, s.lenOf b ≠ 0) (hu : s.lenOf u = 0)
    (hf : o + 4 + ceil8 (len + (bytes.flatMap s.codeOf).length) ≤ s.caps.outCap) {k : Nat} (hk : bytes.length < k) :
    packBits s o k i len = raise .uncodedSymbol (i + bytes.length) := by
  obtain ⟨hb, hl⟩ := HoldsAt.append.1 h
  obtain ⟨k, rfl⟩ : ∃ j, k = bytes.length + (j + 1) := ⟨k - bytes.length - 1, by omega⟩
  rw [packBits_prefix hb hc hf, packBits, inByte_of_read (HoldsAt.cons.1 hl).1, ok_bind, ensure_neg (by simp [hu]), raise_bind,
    raise_bind]

/-- The loop stops at the first byte that was never written, whatever is behind it. -/
theorem packBits_unwritten {s : State} {o : Nat} {bytes : List Byte} {i len : Nat} (h : HoldsAt s.inbuf i bytes)
    (hc : ∀ b ∈ bytes, s.lenOf b ≠ 0) (hu : s.inbuf.read (i + bytes.length) = none)
    (hf : o + 4 + ceil8 (len + (bytes.flatMap s.codeOf).length) ≤ s.caps.outCap) {k : Nat} (hk : bytes.length < k) :
    packBits s o k i len = .error (.fault (.uninitRead (i + bytes.length))) := by
  obtain ⟨k, rfl⟩ : ∃ j, k = bytes.length + (j + 1) := ⟨k - bytes.length - 1, by omega⟩
  rw [packBits_prefix h hc hf, packBits, inByte_of_unwritten hu, error_bind, error_bind]

/-- The loop stops where the payload outgrows OUT, whatever is behind that byte. -/
theorem packBits_over {s : State} {o : Nat} {bytes : List Byte} {i len : Nat} (h : HoldsAt s.inbuf i bytes)
    (hc : ∀ b ∈ bytes, s.lenOf b ≠ 0) (h0 : o + 4 + ceil8 len ≤ s.caps.outCap)
    (hf : s.caps.outCap < o + 4 + ceil8 (len + (bytes.flatMap s.codeOf).length)) {k : Nat} (hk : bytes.length ≤ k) :
    packBits s o k i len = raise .resourceLimit 0 := by
  induction bytes generalizing i len k with
  | nil => simp at hf; omega
  | cons b bytes ih =>
    obtain ⟨hb, hr⟩ := HoldsAt.cons.1 h
    rw [List.length_cons] at hk
    obtain ⟨k, rfl⟩ : ∃ j, k = j + 1 := ⟨k - 1, by omega⟩
    simp only [List.flatMap_cons, List.length_append, length_codeOf] at hf
    rw [packBits, inByte_of_read hb, ok_bind, ensure_pos (hc b (by simp)), ok_bind]
    by_cases h1 : o + 4 + ceil8 (len + s.lenOf b) ≤ s.caps.outCap
    · rw [ensure_pos h1, ok_bind, ih hr (fun c hcm => hc c (by simp [hcm])) h1 (by
        rwa [show len + s.lenOf b + (bytes.flatMap s.codeOf).length =
          len + (s.lenOf b + (bytes.flatMap s.codeOf).length) by omega]) (by omega), raise_bind]
    · rw [ensure_neg h1, raise_bind]

/-- Every answer of the loop fits in OUT. -/
theorem packBits_fits {s : State} {o k i len : Nat} {bits : List Bool} (h : packBits s o k i len = .ok bits)
    (h0 : o + 4 + ceil8 len ≤ s.caps.outCap) : o + 4 + ceil8 (len + bits.length) ≤ s.caps.outCap := by
  induction k generalizing i len bits with
  | zero =>
    obtain rfl : [] = bits := by simpa [packBits] using h
    simpa using h0
  | succ k ih =>
    simp only [packBits, bind_eq_ok, ensure_eq_ok] at h
    obtain ⟨b, -, -, -, -, hcap, rest, hrest, h⟩ := h
    obtain rfl : s.codeOf b ++ rest = bits := by simpa using h
    have := ih hrest hcap
    simpa [Nat.add_assoc] using this

/-- Everything an answer of the loop says: the bits are the codes of the input bytes in order, and each byte has one. -/
theorem packBits_answer {s : State} {o k i len : Nat} {bits : List Bool} (h : packBits s o k i len = .ok bits) :
    ∃ bytes : List Byte, bytes.length = k ∧ HoldsAt s.inbuf i bytes ∧ bits = bytes.flatMap s.codeOf ∧
      ∀ b ∈ bytes, s.lenOf b ≠ 0 := by
  induction k generalizing i len bits with
  | zero => exact ⟨[], rfl, HoldsAt.nil _ _, by simpa [packBits, eq_comm] using h, by simp⟩
  | succ k ih =>
    simp only [packBits, bind_eq_ok, ensure_eq_ok, inByte_eq_ok] at h
    obtain ⟨b, hb, -, hc, -, -, rest, hrest, h⟩ := h
    obtain ⟨bytes, hl, hs, rfl, hall⟩ := ih hrest
    refine ⟨b :: bytes, by simp [hl], HoldsAt.cons.2 ⟨hb, hs⟩, ?_, ?_⟩
    · simpa [eq_comm] using h
    · simpa using ⟨hc, hall⟩

end Sys2Proof.Machine
end

