-- ==== Sys2Proof/Laws/Congr.lean ====
section
/-! SUPPORT. What the readers of IN depend on: the capacities, IN_LEN and the bytes of IN below IN_LEN, and for the packer the
code table (40_command_protocol.md R163; 47_entry_points.md R299). -/

namespace Sys2Proof.Machine

/-- The two states have the same input. -/
structure SameInput (s s' : State) : Prop where
  caps  : s'.caps = s.caps
  inLen : s'.inLen = s.inLen
  bytes : ∀ i, i < s.inLen.toNat → s'.inbuf.read i = s.inbuf.read i

/-- Two states that hold the same input bytes. -/
theorem State.HasInput.same {s s' : State} {bytes : List Byte} (h : s.HasInput bytes) (h' : s'.HasInput bytes)
    (hc : s'.caps = s.caps) : SameInput s s' := by
  obtain ⟨h1, -, h2⟩ := h
  obtain ⟨h1', -, h2'⟩ := h'
  refine ⟨hc, BitVec.eq_of_toNat_eq (by omega), fun i hi => ?_⟩
  have hg : bytes[i]? = some (bytes[i]'(by omega)) := List.getElem?_eq_getElem (by omega)
  have a := h2 i _ hg
  have b := h2' i _ hg
  rw [Nat.zero_add] at a b
  rw [a, b]

variable {s s' : State}

theorem inByte_congr (h : SameInput s s') {i : Nat} (hi : i < s.inLen.toNat) : inByte s' i = inByte s i := by
  simp only [inByte, h.bytes i hi]

theorem inBytes_congr (h : SameInput s s') {i k : Nat} (hi : i + k ≤ s.inLen.toNat) : inBytes s' i k = inBytes s i k := by
  induction k generalizing i with
  | zero => rfl
  | succ k ih => simp only [inBytes, inByte_congr h (show i < s.inLen.toNat by omega), ih (i := i + 1) (by omega)]

theorem hdrByte_congr (h : SameInput s s') (base p : Nat) : hdrByte s' base p = hdrByte s base p := by
  simp only [hdrByte, h.inLen, h.caps]
  by_cases hp : p < s.inLen.toNat
  · rw [inByte_congr h hp]
  · rw [ensure_neg hp]; rfl

theorem hdrBytes_congr (h : SameInput s s') (base p k : Nat) : hdrBytes s' base p k = hdrBytes s base p k := by
  induction k generalizing p with
  | zero => rfl
  | succ k ih => simp only [hdrBytes, hdrByte_congr h, ih]

theorem parseNode_congr (h : SameInput s s') (base d p : Nat) : parseNode s' base d p = parseNode s base d p := by
  induction d generalizing p with
  | zero => rfl
  | succ d ih => simp only [parseNode_succ, hdrByte_congr h, hdrBytes_congr h, ih]

theorem parseTree_congr (h : SameInput s s') (base : Nat) : parseTree s' base = parseTree s base := by
  simp only [parseTree, h.caps, parseNode_congr h]

theorem countByte_congr (h : SameInput s s') (p : Nat) : countByte s' p = countByte s p := by
  simp only [countByte, h.inLen]
  by_cases hp : p < s.inLen.toNat
  · rw [inByte_congr h hp]
  · rw [ensure_neg hp]; rfl

theorem readCount_congr (h : SameInput s s') (q : Nat) : readCount s' q = readCount s q := by
  simp only [readCount, countByte_congr h]

theorem walkFrom_congr (h : SameInput s s') (root : Node) (n p0 fuel : Nat) (cur : Node) (b emitted len : Nat) :
    walkFrom s' root n p0 fuel cur b emitted len = walkFrom s root n p0 fuel cur b emitted len := by
  induction fuel generalizing cur b emitted len with
  | zero => rfl
  | succ fuel ih =>
    simp only [walkFrom, h.inLen, h.caps, ih]
    by_cases hp : p0 + b / 8 < s.inLen.toNat
    · rw [inByte_congr h hp]
    · rw [ensure_neg hp]; rfl

theorem walkTree_congr (h : SameInput s s') (root : Node) (n p0 : Nat) :
    walkTree s' root n p0 = walkTree s root n p0 := by
  simp only [walkTree, h.inLen, walkFrom_congr h]

theorem readStream_congr (h : SameInput s s') (root : Node) (q : Nat) : readStream s' root q = readStream s root q := by
  simp only [readStream, readCount_congr h, walkTree_congr h]

theorem packBits_congr (h : SameInput s s') (hl : s'.codeLen = s.codeLen) (hb : s'.codeBits = s.codeBits)
    {o k i len : Nat} (hi : i + k ≤ s.inLen.toNat) : packBits s' o k i len = packBits s o k i len := by
  induction k generalizing i len with
  | zero => rfl
  | succ k ih =>
    have e : s'.lenOf = s.lenOf := by funext b; simp only [State.lenOf, hl]
    have e' : s'.codeOf = s.codeOf := by funext b; simp only [State.codeOf, e, State.entryOf, hb]
    simp only [packBits, inByte_congr h (show i < s.inLen.toNat by omega), e, e', h.caps, fun len => ih (i := i + 1) (len := len) (by omega)]

end Sys2Proof.Machine
end

