-- ==== Sys2Proof/Laws/Frequency.lean ====
section
/-! SUPPORT. The laws of the frequency table (41_frequency_model.md R181, R182): its entries, its symbols and its sums. -/

namespace Sys2Proof.Machine

/-- No entry wraps (R181: "no wrap, IN_LEN ≤ 2^30"). -/
theorem freqOf_countTable_toNat (bytes : List Byte) (h : bytes.length < 2 ^ 32) (b : Byte) :
    (freqOf (countTable bytes) b).toNat = bytes.count b := by
  have := List.count_le_length (a := b) (l := bytes)
  simp [freqOf_countTable]; omega

/-- The symbols of a counted table are the distinct bytes of the input. -/
theorem length_symbolsOf_countTable (bytes : List Byte) (h : bytes.length < 2 ^ 32) :
    (symbolsOf (countTable bytes)).length = bytes.dedup.length := by
  apply List.Perm.length_eq
  rw [List.perm_ext_iff_of_nodup (nodup_symbolsOf _) (List.nodup_dedup _)]
  intro b
  rw [mem_symbolsOf, freqOf_countTable, List.mem_dedup]
  have := List.count_le_length (a := b) (l := bytes)
  rw [← List.count_pos_iff, ne_eq, ← BitVec.toNat_inj, BitVec.toNat_ofNat, Nat.mod_eq_of_lt (by omega),
    Nat.pos_iff_ne_zero]
  rfl

/-- A sum over the input is a sum over the alphabet, each symbol as often as it occurs. -/
theorem sum_count_mul (bytes : List Byte) (f : Byte → Nat) :
    (allBytes.map fun b => bytes.count b * f b).sum = (bytes.map f).sum := by
  have one : ∀ l : List Byte, l.Nodup → ∀ x ∈ l, ∀ xs : List Byte,
      (l.map fun b => (x :: xs).count b * f b).sum = (l.map fun b => xs.count b * f b).sum + f x := by
    intro l
    induction l with
    | nil => intro _ x hx; cases hx
    | cons y l ih =>
      intro hd x hx xs
      rw [List.nodup_cons] at hd
      simp only [List.map_cons, List.sum_cons]
      rcases List.mem_cons.1 hx with rfl | hx
      · have : (l.map fun b => (x :: xs).count b * f b) = (l.map fun b => xs.count b * f b) := by
          apply List.map_congr_left; intro b hb
          rw [List.count_cons_of_ne (by intro h; subst h; exact hd.1 hb)]
        rw [this, List.count_cons_self, Nat.add_mul]; omega
      · rw [ih hd.2 x hx, List.count_cons_of_ne (by intro h; subst h; exact hd.1 (by assumption))]; omega
  induction bytes with
  | nil => 
    generalize allBytes = l
    induction l with
    | nil => rfl
    | cons b l ih => rw [List.map_cons, List.sum_cons, ih]; simp
  | cons x xs ih => rw [one _ nodup_allBytes x (mem_allBytes x), ih, List.map_cons, List.sum_cons]; omega

theorem sum_count (bytes : List Byte) : (allBytes.map fun b => bytes.count b).sum = bytes.length := by
  have h := sum_count_mul bytes fun _ => 1
  simpa only [Nat.mul_one, List.map_const', List.sum_replicate, smul_eq_mul] using h

end Sys2Proof.Machine
end

