-- ==== Sys2Proof/Laws/TreeBuilder.lean ====
section
/-! SUPPORT. The laws of the queue and of the trees it makes (42_tree_builder.md R190 to R195). -/

namespace Sys2Proof.Machine

/-! ## The order (R190) -/

theorem QEntry.before_iff {a b : QEntry} :
    a.before b = true ↔ a.weight < b.weight ∨ (a.weight = b.weight ∧ a.minsym < b.minsym) := by
  simp [QEntry.before]

theorem QEntry.before_irrefl (a : QEntry) : a.before a ≠ true := by
  simp [QEntry.before_iff]

theorem QEntry.before_trans {a b c : QEntry} (h1 : a.before b = true) (h2 : b.before c = true) : a.before c = true := by
  rw [QEntry.before_iff] at *
  simp only [BitVec.lt_def] at *
  omega

/-- With distinct minimal symbols, one of two entries comes before the other (R194). -/
theorem QEntry.before_total {a b : QEntry} (h : a.minsym ≠ b.minsym) : a.before b = true ∨ b.before a = true := by
  rw [QEntry.before_iff, QEntry.before_iff]
  simp only [BitVec.lt_def, ne_eq, ← BitVec.toNat_inj] at *
  omega

/-- The minimal symbols of a queue are distinct. -/
abbrev DistinctSyms (q : List QEntry) : Prop := (q.map QEntry.minsym).Nodup

/-! ## Taking the first entry -/

theorem popFirst_perm (e : QEntry) (q : List QEntry) : (e :: q).Perm ((popFirst e q).1 :: (popFirst e q).2) := by
  induction q generalizing e with
  | nil => simp [popFirst]
  | cons x xs ih =>
    simp only [popFirst]
    split_ifs
    · exact (ih x).cons e
    · exact ((ih x).cons e).trans (List.Perm.swap _ _ _)

theorem popFirst_length (e : QEntry) (q : List QEntry) : (popFirst e q).2.length = q.length := by
  have := (popFirst_perm e q).length_eq
  simpa using this.symm

/-- The entry taken comes before all the others. -/
theorem popFirst_first {e : QEntry} {q : List QEntry} (h : DistinctSyms (e :: q)) :
    ∀ x ∈ (popFirst e q).2, (popFirst e q).1.before x = true := by
  induction q generalizing e with
  | nil => simp [popFirst]
  | cons y ys ih =>
    have hd : DistinctSyms (y :: ys) := (List.nodup_cons.1 h).2
    have hperm := popFirst_perm y ys
    simp only [popFirst]
    split_ifs with hb
    · intro x hx
      rcases List.mem_cons.1 hx with rfl | hx
      · exact hb
      · exact QEntry.before_trans hb (ih hd x hx)
    · intro x hx
      rcases List.mem_cons.1 hx with rfl | hx
      · have hm : (popFirst y ys).1 ∈ y :: ys := hperm.mem_iff.2 (List.mem_cons_self ..)
        have hne : x.minsym ≠ (popFirst y ys).1.minsym := by
          intro he
          exact (List.nodup_cons.1 h).1 (he ▸ List.mem_map.2 ⟨_, hm, rfl⟩)
        rcases QEntry.before_total hne with h1 | h1
        · exact absurd h1 hb
        · exact h1
      · exact ih hd x hx

theorem QEntry.join_minsym (a b : QEntry) : (a.join b).minsym = a.minsym ∨ (a.join b).minsym = b.minsym := by
  simp only [QEntry.join]; split_ifs <;> simp

/-- Merging keeps the minimal symbols distinct (R194). -/
theorem DistinctSyms.join {a b : QEntry} {rest : List QEntry} (h : DistinctSyms (a :: b :: rest)) :
    DistinctSyms (a.join b :: rest) := by
  simp only [DistinctSyms, List.map_cons, List.nodup_cons, List.mem_cons, not_or] at *
  refine ⟨?_, h.2.2⟩
  rcases QEntry.join_minsym a b with e | e <;> rw [e]
  · exact h.1.2
  · exact h.2.1

theorem DistinctSyms.perm {q q' : List QEntry} (h : DistinctSyms q) (hp : q.Perm q') : DistinctSyms q' :=
  (hp.map _).nodup_iff.1 h

/-! ## The loop (R192) -/

/-- The function's loop is the rule's: with one merge for every entry but the first, `mergeLoop` ends with the node
that R192 describes. -/
theorem mergeLoop_mergesTo {e : QEntry} {q : List QEntry} (h : DistinctSyms (e :: q)) :
    MergesTo (e :: q) (mergeLoop q.length e q) := by
  induction hk : q.length generalizing e q with
  | zero =>
    obtain rfl := List.length_eq_zero_iff.1 hk
    exact .one e
  | succ k ih =>
    have hperm := popFirst_perm e q
    have hfirst := popFirst_first h
    have hlen := popFirst_length e q
    simp only [mergeLoop]
    generalize popFirst e q = pr at *
    obtain ⟨a, r⟩ := pr
    cases r with
    | nil => simp only [List.length_nil] at hlen; omega
    | cons x xs =>
      simp only at *
      have hperm2 := popFirst_perm x xs
      have hd2 : DistinctSyms (x :: xs) := (List.nodup_cons.1 (h.perm hperm)).2
      have hfirst2 := popFirst_first hd2
      have hlen2 := popFirst_length x xs
      generalize popFirst x xs = pr2 at *
      obtain ⟨b, rest⟩ := pr2
      simp only at *
      have hp : (e :: q).Perm (a :: b :: rest) := hperm.trans (hperm2.cons a)
      have hd := h.perm hp
      refine .merge _ rest a b _ hp (fun y hy => hfirst y (hperm2.mem_iff.2 hy)) hfirst2 ?_
      have hl : rest.length = k := by simp only [List.length_cons] at hlen; omega
      exact ih hd.join hl

/-- The first entry of a queue is unique. -/
theorem first_unique {a b : QEntry} {q r : List QEntry} (hp : (a :: q).Perm (b :: r))
    (ha : ∀ x ∈ q, a.before x = true) (hb : ∀ x ∈ r, b.before x = true) : a = b ∧ q.Perm r := by
  have hab : a = b := by
    have h1 : b ∈ a :: q := hp.mem_iff.2 (List.mem_cons_self ..)
    have h2 : a ∈ b :: r := hp.mem_iff.1 (List.mem_cons_self ..)
    rcases List.mem_cons.1 h1 with h | h
    · exact h.symm
    · rcases List.mem_cons.1 h2 with h' | h'
      · exact h'
      · exact absurd (QEntry.before_trans (ha b h) (hb a h')) (QEntry.before_irrefl a)
  subst hab
  exact ⟨rfl, List.Perm.cons_inv hp⟩

/-- "Merge is then a function": a queue merges to one tree, whatever order its entries are listed in (R194). -/
theorem MergesTo.unique {q : List QEntry} {t : Node} (h : MergesTo q t) :
    ∀ {q' : List QEntry} {t' : Node}, q.Perm q' → MergesTo q' t' → t = t' := by
  induction h with
  | one e =>
    intro q' t' hp h'
    cases h' with
    | one e' => have := List.singleton_perm_singleton.1 hp; rw [this]
    | merge q' rest a b t' perm _ _ _ =>
      have := (hp.trans perm).length_eq; simp at this
  | merge q rest a b t perm first second loop ih =>
    intro q' t' hp h'
    cases h' with
    | one e' => have := (perm.symm.trans hp).length_eq; simp at this
    | merge q' rest' a' b' t' perm' first' second' loop' =>
      have hp1 : (a :: b :: rest).Perm (a' :: b' :: rest') := perm.symm.trans (hp.trans perm')
      obtain ⟨rfl, hp2⟩ := first_unique hp1 first first'
      obtain ⟨rfl, hp3⟩ := first_unique hp2 second second'
      exact ih (hp3.cons _) loop'

/-- What the loop keeps: the leaves of the queue's nodes, and one Internal node for every merge. -/
theorem MergesTo.leaves {q : List QEntry} {t : Node} (h : MergesTo q t) :
    t.leaves.Perm (q.map (·.node.leaves)).flatten ∧
      t.internals + 1 = (q.map (·.node.internals)).sum + q.length ∧
      ((∀ e ∈ q, e.node.plain = true) → t.plain = true) := by
  induction h with
  | one e => simp
  | merge q rest a b t perm first second loop ih =>
    obtain ⟨h1, h2, h3⟩ := ih
    refine ⟨?_, ?_, fun hq => h3 ?_⟩
    · refine h1.trans ?_
      refine List.Perm.trans ?_ ((perm.map (·.node.leaves)).flatten).symm
      simp [QEntry.join, Node.leaves, List.append_assoc]
    · have e1 := (perm.map (·.node.internals)).sum_eq
      have e2 := perm.length_eq
      simp only [List.map_cons, List.sum_cons, List.length_cons, QEntry.join, Node.internals] at *
      omega
    · intro e he
      rcases List.mem_cons.1 he with rfl | he
      · have ha := hq a (perm.mem_iff.2 (by simp))
        have hb := hq b (perm.mem_iff.2 (by simp))
        simp [QEntry.join, Node.plain, ha, hb]
      · exact hq e (perm.mem_iff.2 (by simp [he]))

/-! ## The tree of a table -/

theorem distinct_leafEntries (f : Vector Word 256) : DistinctSyms ((symbolsOf f).map (leafEntry f)) := by
  have : ((symbolsOf f).map (leafEntry f)).map QEntry.minsym = symbolsOf f := by
    simp [List.map_map, Function.comp_def, leafEntry]
  rw [DistinctSyms, this]
  exact nodup_symbolsOf f

/-- BUILD's tree is the tree of its table. -/
theorem buildTree_treeOf {f : Vector Word 256} {b : Byte} {bs : List Byte} (h : symbolsOf f = b :: bs) :
    TreeOf f (buildTree f b bs) := by
  cases bs with
  | nil => exact .inl ⟨b, h, rfl⟩
  | cons c cs =>
    refine .inr ⟨by simp [h], ?_⟩
    have hd := distinct_leafEntries f
    rw [h, List.map_cons] at hd ⊢
    have := mergeLoop_mergesTo hd
    simpa [buildTree] using this

/-- The leaves of a table's tree are its symbols, each once (10_state.md R51). -/
theorem TreeOf.leaves_perm {f : Vector Word 256} {t : Node} (h : TreeOf f t) :
    t.leaves.Perm ((symbolsOf f).map fun b => [b]) := by
  rcases h with ⟨b, hb, rfl⟩ | ⟨-, hm⟩
  · simp [hb, Node.leaves]
  · have := hm.leaves.1
    have e : ((symbolsOf f).map fun b => [[b]]).flatten = (symbolsOf f).map fun b => [b] := by
      induction symbolsOf f with
      | nil => rfl
      | cons b bs ih => simp [ih]
    rw [← e]
    simpa [List.map_map, Function.comp_def, leafEntry, Node.leaves] using this

theorem TreeOf.builtShape {f : Vector Word 256} {t : Node} (h : TreeOf f t) : t.builtShape := by
  have hp := h.leaves_perm
  rcases h with ⟨b, hb, rfl⟩ | ⟨h2, hm⟩
  · exact .inl ⟨b, rfl⟩
  · refine .inr ⟨hm.leaves.2.2 ?_, by rw [hp.length_eq]; simpa using h2, ?_⟩
    · intro e he
      obtain ⟨b, -, rfl⟩ := List.mem_map.1 he
      rfl
    · rw [hp.nodup_iff]
      exact (nodup_symbolsOf f).map (fun a b h => by simpa using h)

/-- The length of a Built tree's header (44_tree_codec.md R223). -/
theorem Node.plain_hlen {t : Node} (h : t.plain = true) : t.hlen + 1 = 4 * t.leaves.length := by
  induction t with
  | leaf sym =>
    simp only [Node.plain, beq_iff_eq] at h
    simp [Node.hlen, Node.leaves, h]
  | sentinel => simp [Node.plain] at h
  | internal l r ihl ihr =>
    simp only [Node.plain, Bool.and_eq_true] at h
    have := ihl h.1
    have := ihr h.2
    simp only [Node.hlen, Node.leaves, List.length_append]; omega

theorem Node.builtShape.hlen_le {t : Node} (h : t.builtShape) : t.hlen ≤ 1023 := by
  rcases h with ⟨b, rfl⟩ | ⟨hp, -, hd⟩
  · simp [Node.hlen]
  · have := Node.plain_hlen hp
    have := Node.leaves_le hp hd
    omega

theorem Node.plain.wellFormed {t : Node} (h : t.plain = true) : t.wellFormed = true := by
  induction t with
  | leaf sym =>
    simp only [Node.plain, beq_iff_eq] at h
    simp [Node.wellFormed, h]
  | sentinel => rfl
  | internal l r ihl ihr =>
    simp only [Node.plain, Bool.and_eq_true] at h
    simp [Node.wellFormed, ihl h.1, ihr h.2]

theorem Node.builtShape.wellFormed {t : Node} (h : t.builtShape) : t.wellFormed = true := by
  rcases h with ⟨b, rfl⟩ | ⟨hp, -, -⟩
  · rfl
  · exact Node.plain.wellFormed hp

theorem Node.leafCount_eq (t : Node) : t.leafCount = t.leaves.length := by
  induction t with
  | leaf sym => rfl
  | sentinel => rfl
  | internal l r ihl ihr => simp [Node.leafCount, Node.leaves, ihl, ihr]

/-- A symbol of the table is on a leaf of its tree. -/
theorem TreeOf.path {f : Vector Word 256} {t : Node} (h : TreeOf f t) {b : Byte} (hb : freqOf f b ≠ 0) :
    t.follow (codeFor (t.codes []) b) = some (.leaf [b]) ∧ codeFor (t.codes []) b ≠ [] := by
  have hs := h.builtShape
  have hmem : [b] ∈ t.leaves := h.leaves_perm.mem_iff.2 (List.mem_map.2 ⟨b, mem_symbolsOf.2 hb, rfl⟩)
  have hne : ∃ p, (b, p) ∈ t.codes [] := by
    rcases hs with ⟨c, rfl⟩ | ⟨hp, -, -⟩
    · simp only [Node.leaves, List.append_nil, List.mem_singleton, List.cons.injEq, and_true] at hmem
      subst hmem; exact ⟨[false], by simp [Node.codes]⟩
    · rw [← Node.codes_keys hp [], List.mem_map] at hmem
      obtain ⟨⟨c, q⟩, hq, he⟩ := hmem
      obtain rfl : c = b := by simpa using he
      exact ⟨q, hq⟩
  obtain ⟨p, hp⟩ := hne
  obtain ⟨r, rest, -, hr⟩ := Node.mem_codes.1 hp
  obtain ⟨c, hc⟩ := hs.leaf_byte hr
  obtain ⟨rfl, rfl⟩ : b = c ∧ rest = [] := by simpa using hc
  rw [hs.codeFor_path hr]
  refine ⟨hr, ?_⟩
  have := (hs.path_length hr).1
  intro h0; simp [h0] at this

end Sys2Proof.Machine
end

