-- ==== Sys2Proof/Laws/Commands.lean ====
section
/-! SUPPORT. What each command's rule can answer, said once: the working copy of a success in full, where
the reading of IN stops it, and that a model fault comes only from an unwritten byte of the input (40_command_protocol.md R162 to R165; 60_exceptions.md R318). -/

namespace Sys2Proof.Machine

/-! ## The rule of a command and its completion -/

/-- The rule a command's completion runs, with its input bound (R162, R180). -/
def ruleOf : Instr → State → Except Stop State
  | .nop, s => .ok s
  | .compress, s => compressRule s
  | .decompress, s => decompressRule s
  | .clear, s => .ok (clearBody s)
  | .count, s => do checkInLen s; countBody s
  | .build, s => buildBody s
  | .derive, s => deriveBody s
  | .serialize, s => serializeBody s
  | .deserialize, s => do checkInLen s; deserializeBody s
  | .pack, s => do checkInLen s; packBody s
  | .unpack, s => do checkInLen s; unpackBody s

/-- Every command's step is the completion of its rule (R162). -/
theorem exec_eq_complete (i : Instr) (s : State) : exec i s = .next (complete (isOutput i) s (ruleOf i s)) := by
  cases i <;> rfl

/-- Everything a command's step can be: a success, an error commit or the fault mark. -/
theorem exec_cases {i : Instr} {s t : State} (h : exec i s = .next t) :
    (∃ u, ruleOf i s = .ok u ∧ t = u.completed) ∨
      (∃ e p, ruleOf i s = raise e p ∧ t = if isOutput i then s.failedOut e p else s.failed e p) ∨
      (∃ k, ruleOf i s = .error (.fault (.uninitRead k)) ∧ t = s.faulted k) := by
  rw [exec_eq_complete, Host.Outcome.next.injEq] at h
  subst h
  exact complete_cases _ _ _

theorem exec_of_ok {i : Instr} {s u : State} (h : ruleOf i s = .ok u) : exec i s = .next u.completed := by
  rw [exec_eq_complete, h]; rfl

theorem exec_of_raise {i : Instr} {s : State} {e : ErrKind} {p : Nat} (h : ruleOf i s = raise e p) :
    exec i s = .next (if isOutput i then s.failedOut e p else s.failed e p) := by
  rw [exec_eq_complete, h, complete_raise]

theorem exec_of_fault {i : Instr} {s : State} {k : Nat} (h : ruleOf i s = .error (.fault (.uninitRead k))) :
    exec i s = .next (s.faulted k) := by
  rw [exec_eq_complete, h, complete_fault]

/-! ## What a success answers -/

theorem checkInLen_eq_ok {s : State} {u : Unit} : checkInLen s = .ok u ↔ s.inLen.toNat ≤ s.caps.inCap := ensure_eq_ok

theorem countBody_ok {s u : State} : countBody s = .ok u ↔
    ∃ bytes, bytes.length = s.inLen.toNat ∧ HoldsAt s.inbuf 0 bytes ∧ u = s.setFreq (countTable bytes) := by
  simp only [countBody, bind_eq_ok, inBytes_eq_ok, Except.ok.injEq]
  exact ⟨fun ⟨b, ⟨h1, h2⟩, h3⟩ => ⟨b, h1, h2, h3.symm⟩, fun ⟨b, h1, h2, h3⟩ => ⟨b, ⟨h1, h2⟩, h3.symm⟩⟩

theorem buildBody_ok {s u : State} (h : buildBody s = .ok u) :
    ∃ t, TreeOf s.freq t ∧ u = s.setTree .built t t.hlen (symbolsOf s.freq).length := by
  unfold buildBody at h
  split at h
  · simp at h
  · rename_i b bs hs
    obtain rfl := Except.ok.inj h
    exact ⟨_, buildTree_treeOf hs, by rw [hs]⟩

/-- BUILD has a tree to store whenever a symbol occurs, and nothing to store otherwise. -/
theorem buildBody_some {s : State} (h : ∃ b, freqOf s.freq b ≠ 0) :
    ∃ t, TreeOf s.freq t ∧ buildBody s = .ok (s.setTree .built t t.hlen (symbolsOf s.freq).length) := by
  obtain ⟨b, hb⟩ := h
  have hm : b ∈ symbolsOf s.freq := mem_symbolsOf.2 hb
  unfold buildBody
  split
  · rename_i hs; simp [hs] at hm
  · rename_i c cs hs
    exact ⟨_, buildTree_treeOf hs, by rw [hs]⟩

theorem buildBody_none {s : State} (h : ∀ b, freqOf s.freq b = 0) : buildBody s = raise .emptyInput 0 := by
  have hs : symbolsOf s.freq = [] := by
    rw [List.eq_nil_iff_forall_not_mem]
    intro b hb
    exact mem_symbolsOf.1 hb (h b)
  simp only [buildBody, hs]

theorem deriveBody_ok {s u : State} : deriveBody s = .ok u ↔
    ∃ t, s.tree = some (.built, t) ∧ u = s.setCodes (t.codes []) := by
  unfold deriveBody
  split <;> rename_i h <;> simp [h, eq_comm, raise]

theorem serializeBody_ok {s u : State} : serializeBody s = .ok u ↔
    ∃ o t, s.tree = some (o, t) ∧ t.hlen ≤ s.caps.outCap ∧
      u = { s.writeOut 0 t.ser with outLen := BitVec.ofNat 32 t.hlen } := by
  unfold serializeBody
  split
  · rename_i h; simp [h]
  · rename_i o t h
    simp only [bind_eq_ok, ensure_eq_ok, h, length_ser, Option.some.injEq, Prod.mk.injEq, Except.ok.injEq]
    constructor
    · rintro ⟨-, h1, h2⟩; exact ⟨o, t, ⟨rfl, rfl⟩, h1, h2.symm⟩
    · rintro ⟨_, _, ⟨rfl, rfl⟩, h1, h2⟩; exact ⟨(), h1, h2.symm⟩

theorem deserializeBody_ok {s u : State} (h : deserializeBody s = .ok u) :
    ∃ t : Node, t.wellFormed = true ∧ HoldsAt s.inbuf s.inOff.toNat t.ser ∧
      s.inOff.toNat + t.hlen ≤ s.inLen.toNat ∧ t.hlen ≤ s.caps.hdrCap ∧
      u = { s.setTree .loaded t t.hlen t.leaves.length with inOff := BitVec.ofNat 32 (s.inOff.toNat + t.hlen) } := by
  simp only [deserializeBody, bind_eq_ok, Prod.exists] at h
  obtain ⟨t, p, hp, h⟩ := h
  obtain ⟨wf, rfl, hs, hi, hc⟩ := parseNode_ok hp
  have hc := hc (le_refl _)
  rw [Nat.add_sub_cancel_left] at hc h
  refine ⟨t, wf, hs, hi, hc, ?_⟩
  rw [← Except.ok.inj h, Node.leafCount_eq]

/-- Where IN holds a serialized node at IN_OFF and the bounds are met, DESERIALIZE's rule answers it (R236). -/
theorem deserializeBody_ser {s : State} {t : Node} (wf : t.wellFormed = true)
    (hs : HoldsAt s.inbuf s.inOff.toNat t.ser) (hi : s.inOff.toNat + t.hlen ≤ s.inLen.toNat)
    (hc : t.hlen ≤ s.caps.hdrCap) :
    deserializeBody s =
      .ok { s.setTree .loaded t t.hlen t.leaves.length with inOff := BitVec.ofNat 32 (s.inOff.toNat + t.hlen) } := by
  have hp : parseTree s s.inOff.toNat = .ok (t, s.inOff.toNat + t.hlen) :=
    parseNode_ser wf hs (le_refl _) hi (by omega) _ (by omega)
  simp only [deserializeBody, hp, ok_bind, Nat.add_sub_cancel_left, Node.leafCount_eq]

theorem packBody_ok {s u : State} (h : packBody s = .ok u) :
    s.codesValid = true ∧ s.outLen.toNat + 4 ≤ s.caps.outCap ∧
      ∃ bits, packBits s s.outLen.toNat s.inLen.toNat 0 0 = .ok bits ∧
        s.outLen.toNat + 4 + ceil8 bits.length ≤ s.caps.outCap ∧
        u = { s.writeOut s.outLen.toNat (be32 s.inLen ++ packed bits) with
              outLen := BitVec.ofNat 32 (s.outLen.toNat + 4 + ceil8 bits.length)
              symcount := s.inLen
              payloadLen := BitVec.ofNat 32 (ceil8 bits.length) } := by
  simp only [packBody, bind_eq_ok, ensure_eq_ok, length_packed, Except.ok.injEq] at h
  obtain ⟨-, h1, -, h2, bits, hb, h3⟩ := h
  refine ⟨h1, h2, bits, hb, ?_, h3.symm⟩
  simpa [ceil8] using packBits_fits hb (by simpa [ceil8] using h2)

theorem unpackBody_ok {s u : State} (h : unpackBody s = .ok u) :
    ∃ o root n out b, s.tree = some (o, root) ∧ readCount s s.inOff.toNat = .ok n ∧
      walkTree s root n.toNat (s.inOff.toNat + 4) = .ok (out, b) ∧ out.length ≤ s.caps.outCap ∧
      s.inOff.toNat + 4 + ceil8 b ≤ s.inLen.toNat ∧
      u = { s.writeOut 0 out with
            outLen := BitVec.ofNat 32 out.length
            symcount := n
            payloadLen := BitVec.ofNat 32 (ceil8 b)
            inOff := BitVec.ofNat 32 (s.inOff.toNat + 4 + ceil8 b) } := by
  unfold unpackBody at h
  split at h
  · simp at h
  · rename_i o root ht
    simp only [bind_eq_ok, Prod.exists, Except.ok.injEq] at h
    obtain ⟨n, hn, out, b, hw, h⟩ := h
    obtain ⟨h1, -, h2⟩ := walkFrom_ok hw
    have := readCount_ok hn
    have h1 := h1 (by omega)
    have h2 := h2 (by simpa [ceil8] using this)
    exact ⟨o, root, n, out, b, ht, hn, hw, by omega, h2, h.symm⟩

/-- The sub-commands' rules a successful COMPRESS ran, in order (R290). -/
theorem compressRule_ok {s u : State} (h : compressRule s = .ok u) :
    s.inLen.toNat ≤ s.caps.inCap ∧ s.inLen ≠ 0 ∧
      ∃ s1 s2 s3 s4, countBody s = .ok s1 ∧ buildBody s1 = .ok s2 ∧ deriveBody s2 = .ok s3 ∧
        serializeBody { s3 with outLen := 0 } = .ok s4 ∧ packBody s4 = .ok u := by
  simp only [compressRule, bind_eq_ok, ensure_eq_ok, checkInLen_eq_ok] at h
  obtain ⟨-, h1, -, h2, s1, c1, s2, c2, s3, c3, s4, c4, c5⟩ := h
  exact ⟨h1, h2, s1, s2, s3, s4, c1, c2, c3, c4, c5⟩

/-- The sub-commands' rules a successful DECOMPRESS ran (R295). -/
theorem decompressRule_ok {s u : State} (h : decompressRule s = .ok u) :
    s.inLen.toNat ≤ s.caps.inCap ∧ ∃ s1, deserializeBody { s with inOff := 0 } = .ok s1 ∧ unpackBody s1 = .ok u := by
  simp only [decompressRule, bind_eq_ok, checkInLen_eq_ok] at h
  obtain ⟨-, h1, s1, c1, c2⟩ := h
  exact ⟨h1, s1, c1, c2⟩

/-- PACK's rule on an input whose bytes all have codes, with room for the result (R250). -/
theorem packBody_codes {s : State} {bytes : List Byte} (hi : s.HasInput bytes) (hv : s.codesValid = true)
    (hc : ∀ b ∈ bytes, s.lenOf b ≠ 0) (hf : s.outLen.toNat + 4 + ceil8 (bytes.flatMap s.codeOf).length ≤ s.caps.outCap) :
    packBody s = .ok { s.writeOut s.outLen.toNat (be32 s.inLen ++ packed (bytes.flatMap s.codeOf)) with
              outLen := BitVec.ofNat 32 (s.outLen.toNat + 4 + ceil8 (bytes.flatMap s.codeOf).length)
              symcount := s.inLen
              payloadLen := BitVec.ofNat 32 (ceil8 (bytes.flatMap s.codeOf).length) } := by
  have := packBits_ok (o := s.outLen.toNat) (len := 0) hi.2.2 hc (by simpa using hf)
  rw [← hi.1] at this
  simp only [packBody]
  rw [ensure_pos hv, ok_bind, ensure_pos (by omega), ok_bind, this, ok_bind, length_packed]

/-- UNPACK's rule on bits that begin with the declared number of paths to leaves (R270). -/
theorem unpackBody_spells {s : State} {o : Origin} {t : Node} {n : Word} {paths : List (List Bool)}
    {syms : List (List Byte)} (ht : s.tree = some (o, t)) (hn : HoldsAt s.inbuf s.inOff.toNat (be32 n))
    (hl : paths.length = n.toNat) (hs : Spells t paths syms)
    (hb : HasBits s.inbuf (s.inOff.toNat + 4) paths.flatten)
    (hi : s.inOff.toNat + 4 + ceil8 paths.flatten.length ≤ s.inLen.toNat)
    (ho : syms.flatten.length ≤ s.caps.outCap) :
    unpackBody s = .ok { s.writeOut 0 syms.flatten with
            outLen := BitVec.ofNat 32 syms.flatten.length
            symcount := n
            payloadLen := BitVec.ofNat 32 (ceil8 paths.flatten.length)
            inOff := BitVec.ofNat 32 (s.inOff.toNat + 4 + ceil8 paths.flatten.length) } := by
  have hw := walkTree_spells hs hb (by unfold ceil8 at hi; omega) ho
  simp only [unpackBody, ht]
  rw [readCount_of_holds hn (by omega), ok_bind, ← hl, hw, ok_bind]

/-- Everything a successful COMPRESS answers (R292): the counts, the Built tree, its code table and the artifact. -/
theorem compressRule_answer {s u : State} (h : compressRule s = .ok u) :
    ∃ bytes t, s.HasInput bytes ∧ bytes ≠ [] ∧ TreeOf (countTable bytes) t ∧
      (artifactOf t bytes).length ≤ s.caps.outCap ∧
      u = { s with
            freq := countTable bytes
            nsym := BitVec.ofNat 32 (symbolsOf (countTable bytes)).length
            tree := some (.built, t)
            treeLen := BitVec.ofNat 32 t.hlen
            codesValid := true
            codeLen := lenTable (t.codes [])
            codeBits := entryTable (t.codes [])
            outbuf := s.outbuf.writeBytes 0 (artifactOf t bytes)
            outLen := BitVec.ofNat 32 (artifactOf t bytes).length
            symcount := s.inLen
            payloadLen := BitVec.ofNat 32 (ceil8 (bytes.flatMap (codeFor (t.codes []))).length) } := by
  obtain ⟨hb, h0, s1, s2, s3, s4, h1, h2, h3, h4, h5⟩ := compressRule_ok h
  rw [countBody_ok] at h1
  obtain ⟨bytes, hl, hs, e1⟩ := h1
  obtain ⟨t, ht, e2⟩ := buildBody_ok h2
  rw [e1, setFreq_freq] at ht
  rw [deriveBody_ok] at h3
  obtain ⟨t', ht', e3⟩ := h3
  rw [e2, setTree_tree] at ht'
  obtain rfl : t = t' := by simpa using ht'
  rw [serializeBody_ok] at h4
  obtain ⟨o, t', ht', -, e4⟩ := h4
  have e : t = t' := by
    have : s3.tree = some (o, t') := ht'
    rw [e3, setCodes_tree, e2, setTree_tree] at this
    simpa using (Prod.mk.inj (Option.some.inj this)).2
  subst e
  obtain ⟨-, -, bits, hbits, hfit, e5⟩ := packBody_ok h5
  obtain ⟨bytes', hl', hs', rfl, -⟩ := packBits_answer hbits
  have i4 : s4.inbuf = s.inbuf := by rw [e4]; simp [e3, e2, e1]
  have l4 : s4.inLen = s.inLen := by rw [e4]; simp [e3, e2, e1]
  rw [i4] at hs'
  rw [l4] at hl'
  obtain rfl := hs'.unique hs (hl'.trans hl.symm)
  have hshape := ht.builtShape
  have hh := hshape.hlen_le
  have hcode : ∀ b, s4.codeOf b = codeFor (t.codes []) b := by
    intro b
    refine (codeOf_of_table (codes := t.codes []) ?_ ?_ (hshape.codeFor_length b)).2
    · rw [e4]; simp [e3]
    · rw [e4]; simp [e3]
  have hmap : bytes'.flatMap s4.codeOf = bytes'.flatMap (codeFor (t.codes [])) := by
    rw [funext hcode]
  have o4 : s4.outLen.toNat = t.hlen := by
    rw [e4]; simp only [BitVec.toNat_ofNat]; omega
  have c4 : s4.caps = s.caps := by rw [e4]; simp [e3, e2, e1]
  rw [hmap, o4] at e5
  rw [hmap, o4, c4] at hfit
  have hart : (artifactOf t bytes').length = t.hlen + 4 + ceil8 (bytes'.flatMap (codeFor (t.codes []))).length := by
    simp [artifactOf, length_packed, Nat.add_assoc]
  have hin : BitVec.ofNat 32 bytes'.length = s.inLen := by rw [hl']; simp
  have hne : bytes' ≠ [] := by
    rintro rfl; apply h0; rw [← hin]; rfl
  refine ⟨bytes', t, ⟨hl'.symm, by omega, hs⟩, hne, ht, by omega, ?_⟩
  have hout : s4.outbuf.writeBytes t.hlen (be32 s4.inLen ++ packed (bytes'.flatMap (codeFor (t.codes [])))) =
      s.outbuf.writeBytes 0 (artifactOf t bytes') := by
    have : s4.outbuf = s.outbuf.writeBytes 0 t.ser := by rw [e4]; simp [e3, e2, e1]
    rw [this, l4, artifactOf, hin, List.append_assoc, Memory.writeBytes_append s.outbuf, length_ser, Nat.zero_add]
  rw [e5, hart]
  apply State.ext
  case outbuf => exact hout
  case symcount => exact l4
  all_goals first | rfl | (rw [e4]; simp [e3, e2, e1])

/-- COMPRESS's rule in one equation, on a non-empty input (R290). -/
theorem compressRule_eq {s : State} {bytes : List Byte} {t : Node} (hi : s.HasInput bytes) (hne : bytes ≠ []) (ht : TreeOf (countTable bytes) t) :
   compressRule s = if (artifactOf t bytes).length ≤ s.caps.outCap then .ok { s with
            freq := countTable bytes
            nsym := BitVec.ofNat 32 (symbolsOf (countTable bytes)).length
            tree := some (.built, t)
            treeLen := BitVec.ofNat 32 t.hlen
            codesValid := true
            codeLen := lenTable (t.codes [])
            codeBits := entryTable (t.codes [])
            outbuf := s.outbuf.writeBytes 0 (artifactOf t bytes)
            outLen := BitVec.ofNat 32 (artifactOf t bytes).length
            symcount := s.inLen
            payloadLen := BitVec.ofNat 32 (ceil8 (bytes.flatMap (codeFor (t.codes []))).length) } else raise .resourceLimit 0 := by
  have hcount : countBody s = .ok (s.setFreq (countTable bytes)) := countBody_ok.2 ⟨bytes, hi.1.symm, hi.2.2, rfl⟩
  have hlt : bytes.length < 2^32 := by rw [← hi.1]; exact s.inLen.isLt
  have h0 : s.inLen ≠ 0 := by
    intro h; apply hne; rw [← List.length_eq_zero_iff, ← hi.1, h]; rfl
  obtain ⟨x, hx⟩ := List.exists_mem_of_ne_nil _ hne
  have hfx : ∀ b ∈ bytes, freqOf (countTable bytes) b ≠ 0 := by
    intro b hb h
    have := freqOf_countTable_toNat bytes hlt b
    rw [h] at this
    have h2 := List.count_pos_iff.2 hb
    rw [← this] at h2; exact absurd h2 (by decide)
  obtain ⟨t', ht', hbb⟩ := buildBody_some (s := s.setFreq (countTable bytes)) ⟨x, hfx x hx⟩
  have e : t' = t := by
    rw [setFreq_freq] at ht'
    rcases ht with ⟨b, hb, rfl⟩ | ⟨h2, hm⟩
    · rcases ht' with ⟨c, hc, rfl⟩ | ⟨h2, -⟩
      · rw [hb] at hc; simp at hc; rw [hc]
      · rw [hb] at h2; simp at h2
    · rcases ht' with ⟨c, hc, rfl⟩ | ⟨-, hm'⟩
      · rw [hc] at h2; simp at h2
      · exact (hm.unique (List.Perm.refl _) hm').symm
  subst e
  have hsh := ht.builtShape
  generalize hs1 : s.setFreq (countTable bytes) = s1 at *
  generalize hs2 : s1.setTree .built t' t'.hlen (symbolsOf s1.freq).length = s2 at *
  have hd : deriveBody s2 = .ok (s2.setCodes (t'.codes [])) := deriveBody_ok.2 ⟨t', by rw [← hs2]; rfl, rfl⟩
  generalize hs3 : s2.setCodes (t'.codes []) = s3 at *
  generalize hs3' : ({ s3 with outLen := 0 } : State) = s3' 
  have hcap3 : s3'.caps = s.caps := by rw [← hs3', ← hs3, ← hs2, ← hs1]; simp
  have htr3 : s3'.tree = some (.built, t') := by rw [← hs3', ← hs3, ← hs2, ← hs1]; simp
  have hart : (artifactOf t' bytes).length = t'.hlen + 4 + ceil8 (bytes.flatMap (codeFor (t'.codes []))).length := by
    simp [artifactOf, length_packed, Nat.add_assoc]
  have pre : compressRule s = serializeBody s3' >>= packBody := by
    simp only [compressRule, checkInLen_ok hi.bound, ok_bind, ensure_pos h0, hcount, hbb, hd, hs3']
  rw [pre]
  by_cases hh : t'.hlen ≤ s.caps.outCap
  swap
  · rw [if_neg (by omega)]
    simp only [serializeBody, htr3]
    rw [ensure_neg (by rw [length_ser, hcap3]; omega), raise_bind, raise_bind]
  have hser := serializeBody_ok.2 ⟨Origin.built, t', htr3, by rw [hcap3]; exact hh, rfl⟩
  rw [hser, ok_bind]
  generalize hs4 : ({ s3'.writeOut 0 t'.ser with outLen := BitVec.ofNat 32 t'.hlen } : State) = s4
  have hcap4 : s4.caps = s.caps := by rw [← hs4]; simpa using hcap3
  have hin4 : s4.inLen = s.inLen := by rw [← hs4, ← hs3', ← hs3, ← hs2, ← hs1]; simp
  have hib4 : s4.inbuf = s.inbuf := by rw [← hs4, ← hs3', ← hs3, ← hs2, ← hs1]; simp
  have hI4 : s4.HasInput bytes := by unfold State.HasInput; rw [hcap4, hin4, hib4]; exact hi
  have hv4 : s4.codesValid = true := by rw [← hs4, ← hs3', ← hs3]; simp
  have hcode : ∀ b, s4.lenOf b = (codeFor (t'.codes []) b).length ∧ s4.codeOf b = codeFor (t'.codes []) b := by
    intro b
    have a1 : s4.codeLen = s3.codeLen := by rw [← hs4, ← hs3']; rfl
    have a2 : s4.codeBits = s3.codeBits := by rw [← hs4, ← hs3']; rfl
    rw [← hs3, setCodes_codeLen] at a1
    rw [← hs3, setCodes_codeBits] at a2
    exact codeOf_of_table (codes := t'.codes []) a1 a2 (hsh.codeFor_length b)
  have hmap : bytes.flatMap s4.codeOf = bytes.flatMap (codeFor (t'.codes [])) := by rw [funext fun b => (hcode b).2]
  have hh1 := hsh.hlen_le
  have ho4 : s4.outLen.toNat = t'.hlen := by rw [← hs4]; simp; omega
  have hne4 : ∀ b ∈ bytes, s4.lenOf b ≠ 0 := by
    intro b hb h
    rw [(hcode b).1] at h
    exact (ht.path (hfx b hb)).2 (List.length_eq_zero_iff.1 h)
  simp only [packBody]
  rw [ensure_pos hv4, ok_bind, ho4, hcap4]
  by_cases h4 : t'.hlen + 4 ≤ s.caps.outCap
  swap
  · rw [if_neg (by omega), ensure_neg h4, raise_bind]
  rw [ensure_pos h4, ok_bind, hI4.1]
  split_ifs with hfit
  · rw [packBits_ok hI4.2.2 hne4 (by rw [hmap, hcap4]; simpa [hart] using hfit), ok_bind, hmap, length_packed, hart]
    congr 1
    have hin : BitVec.ofNat 32 bytes.length = s.inLen := by rw [← hi.1]; simp
    apply State.ext
    case outbuf =>
      have : s4.outbuf = s.outbuf.writeBytes 0 t'.ser := by rw [← hs4, ← hs3', ← hs3, ← hs2, ← hs1]; simp
      simp only [writeOut_outbuf, this, hin4]
      rw [artifactOf, hin, List.append_assoc, Memory.writeBytes_append s.outbuf, length_ser, Nat.zero_add]
    case symcount => exact hin4
    all_goals first | rfl | (rw [← hs4, ← hs3', ← hs3, ← hs2, ← hs1]; simp)
  · rw [packBits_over hI4.2.2 hne4 (by rw [hcap4]; simpa [ceil8] using h4) (by rw [hmap, hcap4]; rw [hart] at hfit; rw [Nat.zero_add]; omega) (le_refl _), raise_bind]

/-- Everything a successful DECOMPRESS answers (R296): the loaded tree, the code table cleared, and the decoded bytes. -/
theorem decompressRule_answer {s u : State} (h : decompressRule s = .ok u) :
    ∃ (t : Node) (n : Word) (out : List Byte) (b : Nat), s.inLen.toNat ≤ s.caps.inCap ∧ t.wellFormed = true ∧
      HoldsAt s.inbuf 0 t.ser ∧ t.hlen ≤ s.caps.hdrCap ∧ readCount s t.hlen = .ok n ∧
      walkTree s t n.toNat (t.hlen + 4) = .ok (out, b) ∧ out.length ≤ s.caps.outCap ∧
      t.hlen + 4 + ceil8 b ≤ s.inLen.toNat ∧
      u = { s.clearCodes with
            tree := some (.loaded, t)
            treeLen := BitVec.ofNat 32 t.hlen
            nsym := BitVec.ofNat 32 t.leaves.length
            outbuf := s.outbuf.writeBytes 0 out
            outLen := BitVec.ofNat 32 out.length
            symcount := n
            payloadLen := BitVec.ofNat 32 (ceil8 b)
            inOff := BitVec.ofNat 32 (t.hlen + 4 + ceil8 b) } := by
  obtain ⟨hb, s1, h1, h2⟩ := decompressRule_ok h
  obtain ⟨t, wf, hs, hi, hc, e1⟩ := deserializeBody_ok h1
  obtain ⟨o, root, n, out, b, ht, hn, hw, ho, hend, e2⟩ := unpackBody_ok h2
  have hin : SameInput s s1 := by rw [e1]; exact ⟨rfl, rfl, fun _ _ => rfl⟩
  have hlen := s.inLen.isLt
  have hz : ({ s with inOff := 0 } : State).inOff.toNat = 0 := rfl
  rw [hz, Nat.zero_add] at hi e1
  have hoff : s1.inOff.toNat = t.hlen := by
    rw [e1]; simp only [BitVec.toNat_ofNat]; exact Nat.mod_eq_of_lt (lt_of_le_of_lt hi hlen)
  have hroot : root = t := by
    have : s1.tree = some (.loaded, t) := by rw [e1]; rfl
    rw [ht] at this; simpa using (Prod.mk.inj (Option.some.inj this)).2
  subst hroot
  rw [hoff] at hn hw hend e2
  rw [readCount_congr hin] at hn
  rw [walkTree_congr hin] at hw
  rw [hin.caps] at ho
  rw [hin.inLen] at hend
  refine ⟨root, n, out, b, hb, wf, hs, hc, hn, hw, ho, hend, ?_⟩
  rw [e2, e1]
  rfl

/-- The codes of a byte string in the tree of its counts spell its bytes (R298). -/
theorem TreeOf.spells {t : Node} {bytes : List Byte} (ht : TreeOf (countTable bytes) t) (hlt : bytes.length < 2 ^ 32) :
    Spells t (bytes.map (codeFor (t.codes []))) (bytes.map fun b => [b]) := by
  have : ∀ l : List Byte, (∀ b ∈ l, b ∈ bytes) → Spells t (l.map (codeFor (t.codes []))) (l.map fun b => [b]) := by
    intro l
    induction l with
    | nil => intro _; exact .nil
    | cons b l ih =>
      intro hl
      refine .cons ?_ (ih fun c hc => hl c (List.mem_cons_of_mem _ hc))
      have hb : freqOf (countTable bytes) b ≠ 0 := by
        intro h
        have := freqOf_countTable_toNat bytes hlt b
        rw [h] at this
        exact (List.count_pos_iff.2 (hl b (by simp))).ne this
      exact ⟨(ht.path hb).2, (ht.path hb).1⟩
  exact this bytes fun _ h => h

theorem flatten_singletons (bytes : List Byte) : (bytes.map fun b => [b]).flatten = bytes := by
  induction bytes with
  | nil => rfl
  | cons b bytes ih => rw [List.map_cons, List.flatten_cons, ih]; rfl

/-- DECOMPRESS's rule in one equation (R295): parse at byte 0, read the count, walk, and one set of writes. -/
theorem decompressRule_eq (s : State) : decompressRule s = (do
    checkInLen s
    let (t, p) ← parseTree s 0
    let n ← readCount s p
    let (out, b) ← walkTree s t n.toNat (p + 4)
    .ok { s.clearCodes with
            tree := some (.loaded, t)
            treeLen := BitVec.ofNat 32 p
            nsym := BitVec.ofNat 32 t.leafCount
            outbuf := s.outbuf.writeBytes 0 out
            outLen := BitVec.ofNat 32 out.length
            symcount := n
            payloadLen := BitVec.ofNat 32 (ceil8 b)
            inOff := BitVec.ofNat 32 (p + 4 + ceil8 b) }) := by
  unfold decompressRule
  rcases hc : checkInLen s with e | _
  · rfl
  simp only [ok_bind]
  have hsame : SameInput s { s with inOff := 0 } := ⟨rfl, rfl, fun _ _ => rfl⟩
  have hz : ({ s with inOff := 0 } : State).inOff.toNat = 0 := rfl
  rw [deserializeBody, hz, parseTree_congr hsame]
  rcases hp : parseTree s 0 with e | ⟨t, p⟩
  · rfl
  simp only [ok_bind, Nat.sub_zero]
  generalize hm : ({ ({ s with inOff := 0 } : State).setTree .loaded t p t.leafCount with inOff := BitVec.ofNat 32 p } : State) = m
  have hmi : SameInput s m := by rw [← hm]; exact ⟨rfl, rfl, fun _ _ => rfl⟩
  have hmt : m.tree = some (.loaded, t) := by rw [← hm]; rfl
  have hlt : p < 2 ^ 32 := by
    obtain ⟨-, -, -, h, -⟩ := parseNode_ok hp
    exact lt_of_le_of_lt h s.inLen.isLt
  have hmo : m.inOff.toNat = p := by rw [← hm]; exact (BitVec.toNat_ofNat _ _).trans (Nat.mod_eq_of_lt hlt)
  simp only [unpackBody, hmt, hmo, readCount_congr hmi, walkTree_congr hmi]
  rcases readCount s p with e | n
  · rfl
  simp only [ok_bind]
  rcases walkTree s t n.toNat (p + 4) with e | ⟨out, b⟩
  · rfl
  simp only [ok_bind]
  rw [← hm]; rfl

/-! ## Where the reading of IN stops -/

/-- Where the parse of the header stops, DESERIALIZE stops with it. -/
theorem deserializeBody_parse {s : State} {x : Stop} (h : parseTree s s.inOff.toNat = .error x) :
    deserializeBody s = .error x := by
  simp only [deserializeBody, h, error_bind]

/-- Where the reading of the stream at IN_OFF stops, UNPACK stops with it. -/
theorem unpackBody_stops {s : State} {o : Origin} {t : Node} {x : Stop} (ht : s.tree = some (o, t))
    (hx : readStream s t s.inOff.toNat = .error x) : unpackBody s = .error x := by
  rw [unpackBody_eq ht, hx, error_bind]

/-- Where the parse of the header stops, DECOMPRESS stops with it. -/
theorem decompressRule_parse {s : State} {x : Stop} (hb : s.inLen.toNat ≤ s.caps.inCap) (h : parseTree s 0 = .error x) :
    decompressRule s = .error x := by
  rw [decompressRule_eq, checkInLen_ok hb, ok_bind, h, error_bind]

/-- Where the reading of the stream behind the header stops, DECOMPRESS stops with it (R295). -/
theorem decompressRule_stops {s : State} {t : Node} {x : Stop} (hb : s.inLen.toNat ≤ s.caps.inCap) (h : s.HasHeader t)
    (hx : readStream s t t.ser.length = .error x) : decompressRule s = .error x := by
  obtain ⟨wf, hcap, hs, hi⟩ := h
  rw [length_ser] at hcap hi hx
  have hp : parseTree s 0 = .ok (t, t.hlen) := by
    have := parseNode_ser (base := 0) wf hs (le_refl _) (by omega) (by omega) (s.caps.hdrCap + 1) (by omega)
    rwa [Nat.zero_add] at this
  unfold readStream at hx
  simp only [decompressRule_eq, checkInLen_ok hb, ok_bind, hp]
  cases hn : readCount s t.hlen with
  | error e => rw [hn, error_bind] at hx; rw [error_bind, Except.error.inj hx]
  | ok n =>
    rw [hn, ok_bind] at hx
    simp only [ok_bind]
    cases hw : walkTree s t n.toNat (t.hlen + 4) with
    | error e => rw [hw, error_bind] at hx; rw [error_bind, Except.error.inj hx]
    | ok y => rw [hw, ok_bind] at hx; exact absurd hx (by simp)

/-- An artifact cut anywhere behind its header: the reading of the stream needs the byte at the cut (R278). -/
theorem artifact_cut {s : State} {t : Node} {bytes : List Byte} (ht : TreeOf (countTable bytes) t)
    (hlt : bytes.length < 2 ^ 32) (ho : bytes.length ≤ s.caps.outCap) (hh : 1023 ≤ s.caps.hdrCap)
    (hs : HoldsAt s.inbuf 0 ((artifactOf t bytes).take s.inLen.toNat)) (hl : t.hlen ≤ s.inLen.toNat)
    (hcut : s.inLen.toNat < (artifactOf t bytes).length) :
    s.HasHeader t ∧ s.AtStreamByte t t.ser.length s.inLen.toNat := by
  have hb := ht.builtShape.hlen_le
  obtain ⟨c, hc⟩ : ∃ c, s.inLen.toNat = t.ser.length + c := ⟨s.inLen.toNat - t.hlen, by rw [length_ser]; omega⟩
  rw [artifactOf, List.append_assoc, hc, List.take_length_add_append, HoldsAt.append, Nat.zero_add] at hs
  rw [artifactOf, List.append_assoc, List.length_append, List.length_append, length_be32, length_packed] at hcut
  refine ⟨⟨ht.builtShape.wellFormed, by rw [length_ser]; omega, hs.1, by omega⟩, ?_⟩
  by_cases h4 : c < 4
  · refine .inl ⟨(be32 (BitVec.ofNat 32 bytes.length)).take c, ?_, ?_, ?_, ?_⟩
    · simp; omega
    · have := hs.2
      rwa [List.take_append_of_le_length (by simp; omega)] at this
    · right; rw [List.length_take, length_be32]; omega
    · rw [List.length_take, length_be32]; omega
  · obtain ⟨j, rfl⟩ : ∃ j, c = 4 + j := ⟨c - 4, by omega⟩
    rw [show 4 + j = (be32 (BitVec.ofNat 32 bytes.length)).length + j from rfl, List.take_length_add_append,
      HoldsAt.append, length_be32] at hs
    have hbits := hs.2.2.hasBits_take
    have hfl : (bytes.map (codeFor (t.codes []))).flatten = bytes.flatMap (codeFor (t.codes [])) := by simp [List.flatMap]
    rw [← hfl] at hbits hcut
    have hj : 8 * j < (bytes.map (codeFor (t.codes []))).flatten.length := by unfold ceil8 at hcut; omega
    obtain ⟨paths, syms, part, m, h1, h2, h3, h5, h6⟩ := (ht.spells hlt).split hj
    rw [flatten_singletons] at h6
    have hlen : (paths.flatten ++ part).length = 8 * j := by rw [← h5, List.length_take]; omega
    rw [h5] at hbits
    refine .inr ⟨paths, syms, part, m, j, ⟨⟨_, hs.2.1, ?_⟩, h2, by omega, hbits, ?_⟩, h3, hlen, by omega⟩
    · rw [List.length_map] at h1
      rwa [BitVec.toNat_ofNat, Nat.mod_eq_of_lt hlt]
    · rw [hlen, ceil8_mul]; omega

/-! ## Where a model fault comes from (R318) -/

theorem bind_eq_error {α β : Type} {x : Except Stop α} {f : α → Except Stop β} {e : Stop} :
    (x >>= f) = .error e ↔ x = .error e ∨ ∃ a, x = .ok a ∧ f a = .error e := by
  cases x with
  | ok a => simp [bind, Except.bind]
  | error e => simp [bind, Except.bind]

@[simp] theorem raise_ne_fault {α : Type} {e : ErrKind} {p : Nat} {f : ModelFault} :
    (raise e p : Except Stop α) ≠ .error (.fault f) := by
  simp [raise]

@[simp] theorem ensure_ne_fault {p : Prop} [Decidable p] {e : ErrKind} {pos : Nat} {f : ModelFault} :
    ensure p e pos ≠ .error (.fault f) := by
  unfold ensure; split <;> simp

theorem inByte_fault {s : State} {i k : Nat} (h : inByte s i = .error (.fault (.uninitRead k))) :
    k = i ∧ s.inbuf.read k = none := by
  unfold inByte at h
  split at h
  · simp at h
  · rename_i hr
    obtain rfl : i = k := by simpa using h
    exact ⟨rfl, hr⟩

theorem inBytes_fault {s : State} {i n k : Nat} (h : inBytes s i n = .error (.fault (.uninitRead k))) :
    k < i + n ∧ s.inbuf.read k = none := by
  induction n generalizing i with
  | zero => simp [inBytes] at h
  | succ n ih =>
    simp only [inBytes, bind_eq_error] at h
    rcases h with h | ⟨b, -, h | ⟨_, -, h⟩⟩
    · obtain ⟨rfl, hr⟩ := inByte_fault h; exact ⟨by omega, hr⟩
    · obtain ⟨h1, h2⟩ := ih h; exact ⟨by omega, h2⟩
    · simp at h

theorem hdrByte_fault {s : State} {base p k : Nat} (h : hdrByte s base p = .error (.fault (.uninitRead k))) :
    k < s.inLen.toNat ∧ s.inbuf.read k = none := by
  simp only [hdrByte, bind_eq_error, ensure_ne_fault, ensure_eq_ok, false_or] at h
  obtain ⟨_, h1, _, -, h⟩ := h
  obtain ⟨rfl, hr⟩ := inByte_fault h
  exact ⟨h1, hr⟩

theorem hdrBytes_fault {s : State} {base p n k : Nat} (h : hdrBytes s base p n = .error (.fault (.uninitRead k))) :
    k < s.inLen.toNat ∧ s.inbuf.read k = none := by
  induction n generalizing p with
  | zero => simp [hdrBytes] at h
  | succ n ih =>
    simp only [hdrBytes, bind_eq_error] at h
    rcases h with h | ⟨b, -, h | ⟨_, -, h⟩⟩
    · exact hdrByte_fault h
    · exact ih h
    · simp at h

theorem parseNode_fault {s : State} {base d p k : Nat} (h : parseNode s base d p = .error (.fault (.uninitRead k))) :
    k < s.inLen.toNat ∧ s.inbuf.read k = none := by
  induction d generalizing p with
  | zero => simp [parseNode] at h
  | succ d ih =>
    simp only [parseNode_succ, bind_eq_error] at h
    rcases h with h | ⟨t, -, h⟩
    · exact hdrByte_fault h
    · split_ifs at h
      · simp only [bind_eq_error, Prod.exists] at h
        rcases h with h | ⟨_, _, -, h | ⟨_, _, -, h⟩⟩
        · exact ih h
        · exact ih h
        · simp at h
      · simp only [bind_eq_error] at h
        rcases h with h | ⟨_, -, h | ⟨_, -, h⟩⟩
        · exact hdrByte_fault h
        · exact hdrBytes_fault h
        · simp at h
      · simp at h

theorem packBits_fault {s : State} {o n i len k : Nat}
    (h : packBits s o n i len = .error (.fault (.uninitRead k))) : k < i + n ∧ s.inbuf.read k = none := by
  induction n generalizing i len with
  | zero => simp [packBits] at h
  | succ n ih =>
    simp only [packBits, bind_eq_error, ensure_ne_fault, false_or] at h
    rcases h with h | ⟨b, -, _, -, _, -, h | ⟨_, -, h⟩⟩
    · obtain ⟨rfl, hr⟩ := inByte_fault h; exact ⟨by omega, hr⟩
    · obtain ⟨h1, h2⟩ := ih h; exact ⟨by omega, h2⟩
    · simp at h

theorem countByte_fault {s : State} {p k : Nat} (h : countByte s p = .error (.fault (.uninitRead k))) :
    k < s.inLen.toNat ∧ s.inbuf.read k = none := by
  simp only [countByte, bind_eq_error, ensure_ne_fault, ensure_eq_ok, false_or] at h
  obtain ⟨_, h1, h⟩ := h
  obtain ⟨rfl, hr⟩ := inByte_fault h
  exact ⟨h1, hr⟩

theorem readCount_fault {s : State} {q k : Nat} (h : readCount s q = .error (.fault (.uninitRead k))) :
    k < s.inLen.toNat ∧ s.inbuf.read k = none := by
  simp only [readCount, bind_eq_error] at h
  rcases h with h | ⟨_, -, h | ⟨_, -, h | ⟨_, -, h | ⟨_, -, h⟩⟩⟩⟩
  · exact countByte_fault h
  · exact countByte_fault h
  · exact countByte_fault h
  · exact countByte_fault h
  · simp at h

theorem walkFrom_fault {s : State} {root cur : Node} {n p0 fuel b emitted len k : Nat}
    (h : walkFrom s root n p0 fuel cur b emitted len = .error (.fault (.uninitRead k))) :
    k < s.inLen.toNat ∧ s.inbuf.read k = none := by
  induction fuel generalizing cur b emitted len with
  | zero => unfold walkFrom at h; split_ifs at h; simp at h
  | succ fuel ih =>
    unfold walkFrom at h
    split_ifs at h
    simp only [bind_eq_error, ensure_ne_fault, ensure_eq_ok, false_or] at h
    obtain ⟨_, h1, h⟩ := h
    rcases h with h | ⟨byte, -, h⟩
    · obtain ⟨rfl, hr⟩ := inByte_fault h; exact ⟨h1, hr⟩
    · split at h
      · simp at h
      · simp at h
      · exact ih h
      · simp only [bind_eq_error, ensure_ne_fault, false_or, Prod.exists] at h
        obtain ⟨_, -, h | ⟨_, _, -, h⟩⟩ := h
        · exact ih h
        · simp at h

/-- A command's rule faults only on an unwritten byte of the input (R318). -/
theorem ruleOf_fault {i : Instr} {s : State} {k : Nat} (h : ruleOf i s = .error (.fault (.uninitRead k))) : k < s.inLen.toNat ∧ s.inbuf.read k = none := by
  have cf : ∀ {s : State} {k}, checkInLen s ≠ .error (.fault (.uninitRead k)) := by intros; exact ensure_ne_fault
  have cb : ∀ {s}, countBody s = .error (.fault (.uninitRead k)) → k < s.inLen.toNat ∧ s.inbuf.read k = none := by
    intro s h
    simp only [countBody, bind_eq_error] at h
    rcases h with h | ⟨_, -, h⟩
    · have := inBytes_fault h; simpa using this
    · simp at h
  have bb : ∀ {s}, buildBody s ≠ .error (.fault (.uninitRead k)) := by intro s h; simp only [buildBody] at h; split at h <;> simp at h
  have db : ∀ {s}, deriveBody s ≠ .error (.fault (.uninitRead k)) := by intro s h; simp only [deriveBody] at h; split at h <;> simp at h
  have sb : ∀ {s}, serializeBody s ≠ .error (.fault (.uninitRead k)) := by intro s h; simp only [serializeBody] at h; split at h; simp at h; simp [bind_eq_error] at h
  have deb : ∀ {s}, deserializeBody s = .error (.fault (.uninitRead k)) → k < s.inLen.toNat ∧ s.inbuf.read k = none := by
    intro s h
    simp only [deserializeBody, bind_eq_error] at h
    rcases h with h | ⟨_, -, h⟩
    · exact parseNode_fault h
    · simp at h
  have pb : ∀ {s}, packBody s = .error (.fault (.uninitRead k)) → k < s.inLen.toNat ∧ s.inbuf.read k = none := by
    intro s h
    simp only [packBody, bind_eq_error, ensure_ne_fault, false_or] at h
    obtain ⟨_, -, _, -, h | ⟨_, -, h⟩⟩ := h
    · have := packBits_fault h; simpa using this
    · simp at h
  have ub : ∀ {s}, unpackBody s = .error (.fault (.uninitRead k)) → k < s.inLen.toNat ∧ s.inbuf.read k = none := by
    intro s h
    simp only [unpackBody] at h
    split at h
    · simp at h
    · simp only [bind_eq_error] at h
      rcases h with h | ⟨_, -, h | ⟨_, -, h⟩⟩
      · exact readCount_fault h
      · exact walkFrom_fault h
      · simp at h
  cases i with
  | nop => simp [ruleOf] at h
  | clear => simp [ruleOf] at h
  | build => exact absurd h bb
  | derive => exact absurd h db
  | serialize => exact absurd h sb
  | count => simp only [ruleOf, bind_eq_error, cf, false_or] at h; obtain ⟨_, -, h⟩ := h; exact cb h
  | deserialize => simp only [ruleOf, bind_eq_error, cf, false_or] at h; obtain ⟨_, -, h⟩ := h; exact deb h
  | pack => simp only [ruleOf, bind_eq_error, cf, false_or] at h; obtain ⟨_, -, h⟩ := h; exact pb h
  | unpack => simp only [ruleOf, bind_eq_error, cf, false_or] at h; obtain ⟨_, -, h⟩ := h; exact ub h
  | compress => 
    simp only [ruleOf, compressRule, bind_eq_error, cf, ensure_ne_fault, false_or] at h
    obtain ⟨_, -, _, -, h⟩ := h
    rcases h with h | ⟨s1, c1, h⟩
    · have := cb h; exact this
    rcases h with h | ⟨s2, c2, h⟩
    · exact absurd h bb
    rcases h with h | ⟨s3, c3, h⟩
    · exact absurd h db
    rcases h with h | ⟨s4, c4, h⟩
    · exact absurd h sb
    have := pb h
    obtain ⟨b, -, -, e1⟩ := countBody_ok.1 c1
    obtain ⟨b, -, e2⟩ := buildBody_ok c2
    rw [deriveBody_ok] at c3
    rw [serializeBody_ok] at c4
    obtain ⟨_, -, e3⟩ := c3
    obtain ⟨_, c, -, -, e4⟩ := c4
    rw [e4] at this
    simpa [e3, e2, e1] using this
  | decompress =>
    simp only [ruleOf, decompressRule, bind_eq_error, cf, false_or] at h
    obtain ⟨_, -, h⟩ := h
    rcases h with h | ⟨s1, c1, h⟩
    · have := deb h; exact this
    · obtain ⟨b, -, -, -, -, rfl⟩ := deserializeBody_ok c1
      have := ub h; exact this

/-- No command's rule writes CTRL, a capacity, the fault mark or the agenda. -/
theorem ruleOf_host {i : Instr} {s u : State} (h : ruleOf i s = .ok u) : u.ctrlIe = s.ctrlIe ∧ u.caps = s.caps ∧ u.fault = s.fault ∧ u.agenda = s.agenda := by
  have cb : ∀ {s u}, countBody s = .ok u → u.ctrlIe = s.ctrlIe ∧ u.caps = s.caps ∧ u.fault = s.fault ∧ u.agenda = s.agenda := by
    intro s u h; obtain ⟨b, -, -, rfl⟩ := countBody_ok.1 h; simp
  have bb : ∀ {s u}, buildBody s = .ok u → u.ctrlIe = s.ctrlIe ∧ u.caps = s.caps ∧ u.fault = s.fault ∧ u.agenda = s.agenda := by
    intro s u h; obtain ⟨b, -, rfl⟩ := buildBody_ok h; simp
  have db : ∀ {s u}, deriveBody s = .ok u → u.ctrlIe = s.ctrlIe ∧ u.caps = s.caps ∧ u.fault = s.fault ∧ u.agenda = s.agenda := by
    intro s u h; obtain ⟨b, -, rfl⟩ := deriveBody_ok.1 h; simp
  have sb : ∀ {s u}, serializeBody s = .ok u → u.ctrlIe = s.ctrlIe ∧ u.caps = s.caps ∧ u.fault = s.fault ∧ u.agenda = s.agenda := by
    intro s u h; obtain ⟨_, b, -, -, rfl⟩ := serializeBody_ok.1 h; simp
  have deb : ∀ {s u}, deserializeBody s = .ok u → u.ctrlIe = s.ctrlIe ∧ u.caps = s.caps ∧ u.fault = s.fault ∧ u.agenda = s.agenda := by
    intro s u h; obtain ⟨b, -, -, -, -, rfl⟩ := deserializeBody_ok h; simp
  have pb : ∀ {s u}, packBody s = .ok u → u.ctrlIe = s.ctrlIe ∧ u.caps = s.caps ∧ u.fault = s.fault ∧ u.agenda = s.agenda := by
    intro s u h; obtain ⟨-, -, _, -, -, rfl⟩ := packBody_ok h; simp
  have ub : ∀ {s u}, unpackBody s = .ok u → u.ctrlIe = s.ctrlIe ∧ u.caps = s.caps ∧ u.fault = s.fault ∧ u.agenda = s.agenda := by
    intro s u h; obtain ⟨_, _, _, _, _, -, -, -, -, -, rfl⟩ := unpackBody_ok h; simp
  cases i with
  | nop => obtain rfl : s = u := by simpa [ruleOf] using h
           simp
  | clear => obtain rfl : clearBody s = u := by simpa [ruleOf] using h
             simp
  | build => exact bb h
  | derive => exact db h
  | serialize => exact sb h
  | count => simp only [ruleOf, bind_eq_ok] at h; obtain ⟨_, -, h⟩ := h; exact cb h
  | deserialize => simp only [ruleOf, bind_eq_ok] at h; obtain ⟨_, -, h⟩ := h; exact deb h
  | pack => simp only [ruleOf, bind_eq_ok] at h; obtain ⟨_, -, h⟩ := h; exact pb h
  | unpack => simp only [ruleOf, bind_eq_ok] at h; obtain ⟨_, -, h⟩ := h; exact ub h
  | compress =>
    obtain ⟨-, -, s1, s2, s3, s4, h1, h2, h3, h4, h5⟩ := compressRule_ok h
    have := cb h1; have := bb h2; have := db h3; have := sb h4; have := pb h5
    simp_all
  | decompress =>
    obtain ⟨-, s1, h1, h2⟩ := decompressRule_ok h
    have := deb h1; have := ub h2
    simp_all

/-! ## What a success writes, by kind of state -/

/-- A success leaves IN alone; it leaves OUT alone, or writes one block of it from 0 or from OUT_LEN, whose end OUT_LEN
then names (10_state.md R41). -/
theorem ruleOf_out {i : Instr} {s u : State} (h : ruleOf i s = .ok u) :
    u.inbuf = s.inbuf ∧
      (u.outbuf = s.outbuf ∧ (u.outLen = s.outLen ∨ u.outLen = 0) ∨
        ∃ base bs, (base = 0 ∨ base = s.outLen.toNat) ∧ u.outbuf = s.outbuf.writeBytes base bs ∧
          base + bs.length ≤ s.caps.outCap ∧ u.outLen = BitVec.ofNat 32 (base + bs.length)) := by
  cases i with
  | nop => obtain rfl : s = u := by simpa [ruleOf] using h
           simp
  | clear => obtain rfl : clearBody s = u := by simpa [ruleOf] using h
             simp [clearBody]
  | build => obtain ⟨b, -, rfl⟩ := buildBody_ok h; simp
  | derive => obtain ⟨b, -, rfl⟩ := deriveBody_ok.1 h; simp
  | serialize => 
    obtain ⟨_, t, -, hl, rfl⟩ := serializeBody_ok.1 h
    exact ⟨rfl, Or.inr ⟨0, _, Or.inl rfl, rfl, by simpa using hl, by simp⟩⟩
  | count => simp only [ruleOf, bind_eq_ok] at h; obtain ⟨_, -, h⟩ := h; obtain ⟨b, -, -, rfl⟩ := countBody_ok.1 h; simp
  | deserialize => simp only [ruleOf, bind_eq_ok] at h; obtain ⟨_, -, h⟩ := h; obtain ⟨b, -, -, -, -, rfl⟩ := deserializeBody_ok h; simp
  | pack => 
    simp only [ruleOf, bind_eq_ok] at h; obtain ⟨_, -, h⟩ := h; obtain ⟨-, -, bits, -, hl, rfl⟩ := packBody_ok h
    exact ⟨rfl, Or.inr ⟨_, _, Or.inr rfl, rfl, by simp [length_packed]; omega, by simp [length_packed, Nat.add_assoc]⟩⟩
  | unpack =>
    simp only [ruleOf, bind_eq_ok] at h; obtain ⟨_, -, h⟩ := h; obtain ⟨_, _, _, out, _, -, -, -, hl, -, rfl⟩ := unpackBody_ok h
    exact ⟨rfl, Or.inr ⟨0, _, Or.inl rfl, rfl, by omega, by simp⟩⟩
  | compress =>
    obtain ⟨bytes, t, -, -, -, hl, rfl⟩ := compressRule_answer h
    exact ⟨rfl, Or.inr ⟨0, _, Or.inl rfl, rfl, by omega, by simp⟩⟩
  | decompress =>
    obtain ⟨t, n, out, b, -, -, -, -, -, -, hl, -, rfl⟩ := decompressRule_answer h
    exact ⟨rfl, Or.inr ⟨0, _, Or.inl rfl, rfl, by omega, by simp⟩⟩

/-- A success leaves TREE and TREE_LEN alone, empties them, or stores a tree of the shape of its origin (R50 to R52). -/
theorem ruleOf_tree {i : Instr} {s u : State} (h : ruleOf i s = .ok u) :
    (u.tree = s.tree ∧ u.treeLen = s.treeLen) ∨ (u.tree = none ∧ u.treeLen = 0) ∨ 
     (∃ t, u.tree = some (.built, t) ∧ u.treeLen = BitVec.ofNat 32 t.hlen ∧ t.builtShape) ∨
     (∃ t, u.tree = some (.loaded, t) ∧ u.treeLen = BitVec.ofNat 32 t.hlen ∧ t.wellFormed = true ∧ t.hlen ≤ s.caps.hdrCap) := by
  cases i with
  | nop => obtain rfl : s = u := by simpa [ruleOf] using h
           simp
  | clear => obtain rfl : clearBody s = u := by simpa [ruleOf] using h
             simp [clearBody]
  | build => obtain ⟨b, ht, rfl⟩ := buildBody_ok h
             exact Or.inr (Or.inr (Or.inl ⟨b, rfl, rfl, ht.builtShape⟩))
  | derive => obtain ⟨b, -, rfl⟩ := deriveBody_ok.1 h; simp
  | serialize => 
    obtain ⟨_, t, -, hl, rfl⟩ := serializeBody_ok.1 h; simp
  | count => simp only [ruleOf, bind_eq_ok] at h; obtain ⟨_, -, h⟩ := h; obtain ⟨b, -, -, rfl⟩ := countBody_ok.1 h; simp
  | deserialize => 
    simp only [ruleOf, bind_eq_ok] at h; obtain ⟨_, -, h⟩ := h; obtain ⟨b, wf, -, -, hh, rfl⟩ := deserializeBody_ok h
    exact Or.inr (Or.inr (Or.inr ⟨b, rfl, rfl, wf, hh⟩))
  | pack => 
    simp only [ruleOf, bind_eq_ok] at h; obtain ⟨_, -, h⟩ := h; obtain ⟨-, -, bits, -, hl, rfl⟩ := packBody_ok h; simp
  | unpack =>
    simp only [ruleOf, bind_eq_ok] at h; obtain ⟨_, -, h⟩ := h; obtain ⟨_, _, _, out, _, -, -, -, hl, -, rfl⟩ := unpackBody_ok h; simp
  | compress =>
    obtain ⟨bytes, t, -, -, ht, hl, rfl⟩ := compressRule_answer h
    exact Or.inr (Or.inr (Or.inl ⟨t, rfl, rfl, ht.builtShape⟩))
  | decompress =>
    obtain ⟨t, n, out, b, -, wf, -, hh, -, -, hl, -, rfl⟩ := decompressRule_answer h
    exact Or.inr (Or.inr (Or.inr ⟨t, rfl, rfl, wf, hh⟩))

/-- A success leaves TREE and the code table alone, clears the code table, or stores that of the Built tree in TREE
(R47 to R49). -/
theorem ruleOf_codes {i : Instr} {s u : State} (h : ruleOf i s = .ok u) :
    (u.tree = s.tree ∧ u.codesValid = s.codesValid ∧ u.codeLen = s.codeLen ∧ u.codeBits = s.codeBits) ∨ 
    (u.codesValid = false ∧ u.codeLen = Vector.replicate 256 0 ∧ u.codeBits = Vector.replicate 256 0) ∨ 
     (∃ t, u.tree = some (.built, t) ∧ u.codesValid = true ∧ u.codeLen = lenTable (t.codes []) ∧ u.codeBits = entryTable (t.codes [])) := by
  cases i with
  | nop => obtain rfl : s = u := by simpa [ruleOf] using h
           simp
  | clear => obtain rfl : clearBody s = u := by simpa [ruleOf] using h
             exact Or.inr (Or.inl ⟨rfl, rfl, rfl⟩)
  | build => obtain ⟨b, ht, rfl⟩ := buildBody_ok h
             exact Or.inr (Or.inl ⟨rfl, rfl, rfl⟩)
  | derive => obtain ⟨b, ht, rfl⟩ := deriveBody_ok.1 h; exact Or.inr (Or.inr ⟨b, ht, rfl, rfl, rfl⟩)
  | serialize => 
    obtain ⟨_, t, -, hl, rfl⟩ := serializeBody_ok.1 h; simp
  | count => simp only [ruleOf, bind_eq_ok] at h; obtain ⟨_, -, h⟩ := h; obtain ⟨b, -, -, rfl⟩ := countBody_ok.1 h; simp
  | deserialize => 
    simp only [ruleOf, bind_eq_ok] at h; obtain ⟨_, -, h⟩ := h; obtain ⟨b, wf, -, -, hh, rfl⟩ := deserializeBody_ok h
    exact Or.inr (Or.inl ⟨rfl, rfl, rfl⟩)
  | pack => 
    simp only [ruleOf, bind_eq_ok] at h; obtain ⟨_, -, h⟩ := h; obtain ⟨-, -, bits, -, hl, rfl⟩ := packBody_ok h; simp
  | unpack =>
    simp only [ruleOf, bind_eq_ok] at h; obtain ⟨_, -, h⟩ := h; obtain ⟨_, _, _, out, _, -, -, -, hl, -, rfl⟩ := unpackBody_ok h; simp
  | compress =>
    obtain ⟨bytes, t, -, -, ht, hl, rfl⟩ := compressRule_answer h
    exact (Or.inr (Or.inr ⟨t, rfl, rfl, rfl, rfl⟩))
  | decompress =>
    obtain ⟨t, n, out, b, -, wf, -, hh, -, -, hl, -, rfl⟩ := decompressRule_answer h
    exact Or.inr (Or.inl ⟨rfl, rfl, rfl⟩)

end Sys2Proof.Machine
end

