-- ==== Sys2Proof/Laws/Flags.lean ====
section
/-! SUPPORT. STATUS bit by bit (10_state.md R36, R37). -/

namespace Sys2Proof.Machine

theorem status_bit (s : State) (k : Nat) : s.status.getLsbD k =
    if k = 0 then s.busy
    else if k = 1 then s.done
    else if k = 2 then s.err
    else if 4 ≤ k ∧ k < 8 then s.errcode.getLsbD (k - 4)
    else if k = 8 then s.berr
    else if k = 9 then s.busywr
    else if k = 16 then s.treeValid
    else if k = 17 then s.treeBuilt
    else if k = 18 then s.codesValid
    else false := by
  by_cases h : k < 32
  · simp only [State.status, BitVec.getLsbD_append, BitVec.getLsbD_ofBool, BitVec.getLsbD_zero]
    interval_cases k <;> simp
  · rw [BitVec.getLsbD_of_ge _ _ (by omega)]
    repeat rw [if_neg (by omega)]

theorem status_errcode (s : State) : s.status.extractLsb' 4 4 = s.errcode := by
  apply BitVec.eq_of_getLsbD_eq
  intro i hi
  rw [BitVec.getLsbD_extractLsb', status_bit, decide_eq_true hi, Bool.true_and, if_neg (by omega), if_neg (by omega),
    if_neg (by omega), if_pos (by omega), Nat.add_sub_cancel_left]

end Sys2Proof.Machine
end

