-- ==== Sys2Proof/Laws/PerInstr.lean ====
section
/-! SUPPORT. Facts about every command as syntax, one lemma per constructor: its word is the OPC byte alone
(30_encoding.md R110, R112), and the decoder reads the command back from it. -/

namespace Sys2Proof.Laws.EncodesInOneByte

/-- The command's word is well formed, below 256, and read back as the command. -/
def Statement (i : Instr) : Prop :=
  wellFormedWord (encode i) = true ∧ (encode i).toNat < 256 ∧ decode (encode i) = .ok i

theorem nop : Statement .nop := by unfold Statement; decide
theorem compress : Statement .compress := by unfold Statement; decide
theorem decompress : Statement .decompress := by unfold Statement; decide
theorem clear : Statement .clear := by unfold Statement; decide
theorem count : Statement .count := by unfold Statement; decide
theorem build : Statement .build := by unfold Statement; decide
theorem derive : Statement .derive := by unfold Statement; decide
theorem serialize : Statement .serialize := by unfold Statement; decide
theorem deserialize : Statement .deserialize := by unfold Statement; decide
theorem pack : Statement .pack := by unfold Statement; decide
theorem unpack : Statement .unpack := by unfold Statement; decide

end Sys2Proof.Laws.EncodesInOneByte
end

