-- ==== Sys2Proof/Laws/Step.lean ====
section
/-! SUPPORT. What one step can be, what a host transaction leaves unchanged, and the runs of several steps. -/

namespace Sys2Proof.Machine

/-- A run whose first step answers `t` goes on from `t`. -/
theorem run_next (M : Host.Core) {k : Nat} {s t : M.State} (h : M.step s = .next t) : M.run (k + 1) s = M.run k t := by
  rw [Host.Core.run, h]

/-- Everything a step can be: nothing, a host transaction, a reset, or the completion of the word being run
(20_memory.md R90). -/
theorem step_cases {s t : State} (h : step s = .next t) :
    ∃ rest, let s' := { s with agenda := rest }
      t = s' ∨ (∃ x, t = hostStep x s') ∨ t = resetEvent s' ∨
      (∃ w, s.seq = .busy w ∧ ((∃ i, decode w = .ok i ∧ exec i s' = .next t) ∨ t = illegalCommand s')) := by
  have hself : s = { s with agenda := s.agenda } := rfl
  have key : ∀ s', s'.seq = s.seq → sequencerTurn s' = .next t → t = s' ∨ 
        (∃ w, s.seq = .busy w ∧ ((∃ i, decode w = .ok i ∧ exec i s' = .next t) ∨ t = illegalCommand s')) := by
    intro s' e h
    unfold sequencerTurn at h
    rw [e] at h
    split at h
    · left; simpa using h.symm
    · rename_i w hw
      right
      refine ⟨w, hw, ?_⟩
      unfold runWord at h
      split at h
      · left; exact ⟨_, by assumption, h⟩
      · right; simpa using h.symm
  unfold step nextTurn at h
  split at h
  · refine ⟨s.agenda, ?_⟩
    rcases key s rfl h with h | h
    · left; exact h
    · right; right; right; exact h
  · rename_i e rest ha
    refine ⟨rest, ?_⟩
    unfold turn at h
    split at h
    · right; left; exact ⟨_, by simpa using h.symm⟩
    · rcases key { s with agenda := rest } rfl h with h | h
      · left; exact h
      · right; right; right; exact h
    · right; right; left; simpa using h.symm

/-- What no host transaction changes, and what it can do to IN (R83, R88). -/
theorem hostStep_frame (t : Txn) (s : State) :
    let u := hostStep t s
    u.caps = s.caps ∧ u.outbuf = s.outbuf ∧ u.outLen = s.outLen ∧ u.tree = s.tree ∧ u.treeLen = s.treeLen ∧
      u.codesValid = s.codesValid ∧ u.codeLen = s.codeLen ∧ u.codeBits = s.codeBits ∧
      (u.inbuf = s.inbuf ∨ ∃ i v, i < s.caps.inCap ∧ u.inbuf = s.inbuf.write i v) := by
  cases t with
  | read a n =>
    simp only [hostStep, hostRead, busError, State.takeDraw]
    split
    · simp
    · split
      · simp
      · split <;> simp
  | write a n v =>
    simp only [hostStep, hostWrite, busError]
    split
    · simp
    · rename_i t ht
      unfold State.writeTarget
      split
      · unfold State.writeReg State.inputWrite issue State.writeStatus
        split <;> (try split) <;> simp
      · unfold State.inputWrite; split <;> simp
      · rename_i i
        have hi : i < s.caps.inCap := by
          unfold target at ht
          split_ifs at ht
          · unfold wordTarget at ht
            split_ifs at ht <;> simp at ht
          · unfold byteTarget at ht
            split_ifs at ht <;> simp at ht
            omega
        unfold State.inputWrite; split
        · simp
        · refine ⟨rfl, rfl, rfl, rfl, rfl, rfl, rfl, rfl, Or.inr ⟨i, _, hi, rfl⟩⟩
      all_goals simp

/-- All a host transaction can change while the sequencer is Busy: IE, the W1C bits and BUSYWR, and the model's record of
reads (R351, R352). -/
theorem hostStep_busy (x : Txn) {s : State} {w : Word} (h : s.seq = .busy w) :
    hostStep x s =
      { s with
        ctrlIe := (hostStep x s).ctrlIe, done := (hostStep x s).done, berr := (hostStep x s).berr
        busywr := (hostStep x s).busywr, rdata := (hostStep x s).rdata, draws := (hostStep x s).draws } := by
  have hb := busy_of_busy h
  cases x with
  | read a n =>
    simp only [hostStep, hostRead, busError, State.takeDraw]
    split
    · rfl
    · split
      · rfl
      · split <;> rfl
  | write a n v =>
    simp only [hostStep, hostWrite, busError]
    split
    · rfl
    · rename_i t _
      cases t with
      | reg r => cases r <;> simp only [State.writeTarget, State.writeReg, State.inputWrite, hb, if_true] <;> rfl
      | freq b => simp only [State.writeTarget, State.inputWrite, hb, if_true]
      | inByte i => simp only [State.writeTarget, State.inputWrite, hb, if_true]
      | codeLen b => rfl
      | codeBits b k => rfl
      | outByte i => rfl

end Sys2Proof.Machine
end

