-- ==== Sys2Proof/Tests/Slice0.lean ====
section
/-! SUPPORT. Tests: ill-formed terms that are refused, the opcode map, one step each on the vectors of 95_test_vectors.md,
and, for each statement of Certificates/Slice0/Obligations.lean with hypotheses, a witness that meets them. -/

namespace Sys2Proof.Tests

set_option Elab.async false

open Sys2Proof.Machine

/-! ## WellFormed refuses -/

theorem test_word_with_reserved_bits_is_ill_formed : wellFormedWord 0x00000104 = false := by decide
theorem test_word_with_reserved_opcode_is_ill_formed :
    wellFormedWord 0x00000004 = false ∧ wellFormedWord 0x0000000F = false ∧ wellFormedWord 0x00000017 = false ∧
      wellFormedWord 0x000000FF = false := by decide
theorem test_empty_leaf_is_ill_formed : (Node.internal (.leaf []) .sentinel).wellFormed = false := by decide
theorem test_leaf_of_256_bytes_is_ill_formed : (Node.leaf (List.replicate 256 0)).wellFormed = false := by
  decide +kernel
theorem test_width_2_is_ill_formed :
    (Txn.read 0 2).wellFormed = false ∧ (Txn.write 0 8 0).wellFormed = false := by decide
theorem test_small_header_capacity_is_illegal : ¬({ inCap := 1, outCap := 1, hdrCap := 1022 } : Config.Caps).Legal := by
  decide
theorem test_zero_input_capacity_is_illegal : ¬({ inCap := 0, outCap := 1, hdrCap := 1023 } : Config.Caps).Legal := by
  decide

/-! ## Decoding: the words of 30_encoding.md R112, bits 31 down to 0 -/

theorem test_decode_nop : decode 0b00000000000000000000000000000000 = .ok .nop := by decide
theorem test_decode_compress : decode 0b00000000000000000000000000000001 = .ok .compress := by decide
theorem test_decode_decompress : decode 0b00000000000000000000000000000010 = .ok .decompress := by decide
theorem test_decode_clear : decode 0b00000000000000000000000000000011 = .ok .clear := by decide
theorem test_decode_count : decode 0b00000000000000000000000000010000 = .ok .count := by decide
theorem test_decode_build : decode 0b00000000000000000000000000010001 = .ok .build := by decide
theorem test_decode_derive : decode 0b00000000000000000000000000010010 = .ok .derive := by decide
theorem test_decode_serialize : decode 0b00000000000000000000000000010011 = .ok .serialize := by decide
theorem test_decode_deserialize : decode 0b00000000000000000000000000010100 = .ok .deserialize := by decide
theorem test_decode_pack : decode 0b00000000000000000000000000010101 = .ok .pack := by decide
theorem test_decode_unpack : decode 0b00000000000000000000000000010110 = .ok .unpack := by decide
theorem test_decode_rejects : decode 0x00000100 = .error .reservedBitsSet ∧ decode 0x80000000 = .error .reservedBitsSet ∧
    decode 0x00000020 = .error .reservedOpcode ∧ decode 0x000000FF = .error .reservedOpcode := by decide

/-! ## Small states -/

/-- The reset state with `bytes` loaded into IN (30_encoding.md R151). -/
def loaded (bytes : List Byte) : State :=
  { State.reset with inLen := BitVec.ofNat 32 bytes.length, inbuf := Memory.writeBytes [] 0 bytes }

/-- The reset state with these FREQ entries. -/
def counted (entries : List (Byte × Word)) : State :=
  { State.reset with freq := entries.foldl (fun f e => f.set e.1.toNat e.2 e.1.isLt) State.reset.freq }

/-- The reset state with this tree stored. -/
def planted (o : Origin) (t : Node) : State := { State.reset with tree := some (o, t) }

/-- The state after one command. -/
def after (i : Instr) (s : State) : State := complete (isOutput i) s (ruleOf i s)

theorem exec_after (i : Instr) (s : State) : exec i s = .next (after i s) := exec_eq_complete i s

/-- `s` as the issue step of word `w` leaves it. -/
def issued (w : Word) (s : State) : State := issue w s

/-- A buffer that holds exactly these bytes from 0. -/
def bytesAt0 (bytes : List Byte) : Memory := Memory.writeBytes [] 0 bytes

/-- "aaabbc" (95_test_vectors.md 1.1). -/
def aaabbc : List Byte := [0x61, 0x61, 0x61, 0x62, 0x62, 0x63]

/-- The tree of 95_test_vectors.md 1.1: I(a, I(c, b)). -/
def treeAcb : Node := .internal (.leaf [0x61]) (.internal (.leaf [0x63]) (.leaf [0x62]))

/-- Its header. -/
def headerAcb : List Byte := [0x01, 0x00, 0x01, 0x61, 0x01, 0x00, 0x01, 0x63, 0x00, 0x01, 0x62]

/-- The artifact of 95_test_vectors.md 1.1. -/
def artifactAcb : List Byte := headerAcb ++ [0x00, 0x00, 0x00, 0x06, 0x1F, 0x00]

/-- The word `w` run as the first command after reset. -/
def firstStatus (w : Word) : Word :=
  match step (State.reset.withFetchWord 32 w.toNat) with
  | .next t => t.status
  | .fault _ => 0
  | .refused _ => 0

/-! ## One step each (95_test_vectors.md, the section named) -/

/-- 2.9. -/
theorem test_nop_status : firstStatus 0x00000000 = 0x00000002 := by decide +kernel
/-- 2.9. -/
theorem test_illegal_word_status : firstStatus 0x00000017 = 0x00000086 ∧ firstStatus 0x00000100 = 0x00000086 := by
  decide +kernel
/-- 30_encoding.md R111: 0x101 is no COMPRESS, so it keeps OUT_LEN (93_implementation_defined.md U5). -/
theorem test_illegal_word_keeps_out_len : runWord 0x101 { State.reset with outLen := 17 } =
    .next { State.reset with outLen := 17, done := true, errcode := 8 } := rfl
/-- 2.9: CLEAR leaves IN_LEN and empties TREE. -/
theorem test_clear : (after .clear { planted .built treeAcb with inLen := 6, outLen := 17 }).status = 0x00000002 ∧
    (after .clear { planted .built treeAcb with inLen := 6, outLen := 17 }).inLen = 6 ∧
    (after .clear { planted .built treeAcb with inLen := 6, outLen := 17 }).outLen = 0 := by decide +kernel
/-- 2.1. -/
theorem test_count_aaabbc : (after .count (loaded aaabbc)).nsym = 3 ∧
    freqOf (after .count (loaded aaabbc)).freq 0x61 = 3 ∧ freqOf (after .count (loaded aaabbc)).freq 0x62 = 2 ∧
    freqOf (after .count (loaded aaabbc)).freq 0x63 = 1 ∧ freqOf (after .count (loaded aaabbc)).freq 0x64 = 0 := by
  decide +kernel
/-- 2.1: IN_LEN = 17 with IN_CAP = 16. -/
theorem test_count_over_capacity : (after .count { State.resetOf { inCap := 16, outCap := 16, hdrCap := 1023 } with
    inLen := 17 }).status = 0x00000066 := by decide +kernel
/-- 2.2: an empty table. The vector's STATUS lacks the bit ERR of R37 (notes/assumptions/7.md). -/
theorem test_build_empty : (after .build State.reset).errcode = 1 ∧ (after .build State.reset).errpos = 0 := by
  decide +kernel
/-- 2.2: {b:5, c:2, d:3, z:5}, where ties are broken by the symbol. -/
theorem test_build_ties : (after .build (counted [(0x62, 5), (0x63, 2), (0x64, 3), (0x7A, 5)])).tree =
    some (.built, .internal (.leaf [0x7A]) (.internal (.leaf [0x62]) (.internal (.leaf [0x63]) (.leaf [0x64])))) := by
  decide +kernel
/-- 2.2: weights past 2^32 are kept exactly. -/
theorem test_build_wide_weights : (after .build (counted [(0x00, 0xFFFFFFFF), (0x01, 0xFFFFFFFF), (0x02, 1)])).tree =
    some (.built, .internal (.leaf [0x01]) (.internal (.leaf [0x02]) (.leaf [0x00]))) := by decide +kernel
/-- 2.3. -/
theorem test_derive_codes : (after .derive (planted .built treeAcb)).lenOf 0x61 = 1 ∧
    (after .derive (planted .built treeAcb)).lenOf 0x62 = 2 ∧
    codeByte ((after .derive (planted .built treeAcb)).entryOf 0x62) 0 = 0xC0 ∧
    codeByte ((after .derive (planted .built treeAcb)).entryOf 0x63) 0 = 0x80 := by decide +kernel
/-- 2.3: DERIVE without a tree, and after DESERIALIZE. -/
theorem test_derive_sequence_error : (after .derive State.reset).status = 0x00000056 ∧
    (after .derive (planted .loaded treeAcb)).errcode = 5 := by decide +kernel
/-- 2.4. -/
theorem test_serialize : (after .serialize (planted .built treeAcb)).outbuf = bytesAt0 headerAcb ∧
    (after .serialize (planted .built treeAcb)).outLen = 11 := by decide +kernel
/-- 2.4: a Loaded tree with a two-byte symbol. -/
theorem test_serialize_loaded : (after .serialize (planted .loaded (.internal (.leaf [0x41, 0x42]) (.leaf [0x43])))).outbuf =
    bytesAt0 [0x01, 0x00, 0x02, 0x41, 0x42, 0x00, 0x01, 0x43] := by decide +kernel
/-- 2.5. -/
theorem test_deserialize : (after .deserialize (loaded artifactAcb)).tree = some (.loaded, treeAcb) ∧
    (after .deserialize (loaded artifactAcb)).inOff = 11 ∧
    (after .deserialize (loaded artifactAcb)).status = 0x00010002 := by decide +kernel
/-- 2.5: the right subtree is missing. -/
theorem test_deserialize_exhausted : (after .deserialize (loaded [0x01, 0x00, 0x01, 0x61])).errcode = 2 ∧
    (after .deserialize (loaded [0x01, 0x00, 0x01, 0x61])).errpos = 4 := by decide +kernel
/-- 2.6: IN "cab" with the codes of 1.1 and OUT_LEN = 0. -/
theorem test_pack_cab : (after .pack { loaded [0x63, 0x61, 0x62] with
      codesValid := true, codeLen := lenTable (treeAcb.codes []), codeBits := entryTable (treeAcb.codes []) }).outbuf =
    bytesAt0 [0x00, 0x00, 0x00, 0x03, 0x98] := by decide +kernel
/-- 2.6: IN "abd", where d has no code. -/
theorem test_pack_uncoded : (after .pack { loaded [0x61, 0x62, 0x64] with
      codesValid := true, codeLen := lenTable (treeAcb.codes []), codeBits := entryTable (treeAcb.codes []),
      tree := some (.built, treeAcb) }).status = 0x00070076 := by decide +kernel
/-- 2.7, P3: UNPACK from IN_OFF = 11. -/
theorem test_unpack : (after .unpack { loaded artifactAcb with inOff := 11, tree := some (.loaded, treeAcb) }).outbuf =
      bytesAt0 aaabbc ∧
    (after .unpack { loaded artifactAcb with inOff := 11, tree := some (.loaded, treeAcb) }).inOff = 17 := by
  decide +kernel
/-- 2.7: a Leaf root. -/
theorem test_unpack_leaf_root : (after .unpack { loaded [0x00, 0x01, 0x61, 0x00, 0x00, 0x00, 0x01, 0x00] with
    inOff := 3, tree := some (.loaded, .leaf [0x61]) }).errcode = 4 := by decide +kernel
/-- 1.1. -/
theorem test_compress_aaabbc : (after .compress (loaded aaabbc)).outbuf = bytesAt0 artifactAcb ∧
    (after .compress (loaded aaabbc)).status = 0x00070002 ∧ (after .compress (loaded aaabbc)).outLen = 17 ∧
    (after .compress (loaded aaabbc)).errcode = 0 := by decide +kernel
/-- 1.3. -/
theorem test_compress_one_symbol : (after .compress (loaded [0x61, 0x61, 0x61, 0x61])).outbuf =
    bytesAt0 [0x01, 0x00, 0x01, 0x61, 0x00, 0x00, 0x00, 0x00, 0x00, 0x04, 0x00] := by decide +kernel
/-- 1.1 and 1.4: the round trip, and the artifact cut by one byte. -/
theorem test_decompress : (after .decompress (loaded artifactAcb)).outbuf = bytesAt0 aaabbc ∧
    (after .decompress (loaded (artifactAcb.take 16))).errcode = 3 ∧
    (after .decompress (loaded (artifactAcb.take 16))).errpos = 16 := by decide +kernel
/-- 2.7: two-byte and one-byte symbols, "ABCAB". -/
theorem test_decompress_long_symbols :
    (after .decompress (loaded [0x01, 0x00, 0x02, 0x41, 0x42, 0x00, 0x01, 0x43, 0x00, 0x00, 0x00, 0x03, 0x40])).outbuf =
      bytesAt0 [0x41, 0x42, 0x43, 0x41, 0x42] := by decide +kernel
/-- 2.10. -/
theorem test_bus_errors : (hostStep (.read 0x00000002 4) State.reset).status = 0x00000100 ∧
    (hostStep (.read 0x00000000 2) State.reset).berr = true ∧ (hostStep (.read 0x40001000 1) State.reset).berr = true ∧
    (hostStep (.write 0x00000861 1 5) State.reset).berr = false := by decide +kernel
/-- 2.10: `cmd COMPRESS`, then `wr IN_LEN, 3` before completion. -/
theorem test_busy_write : (hostStep (.write 0x24 4 3) (issued 1 (loaded aaabbc))).status = 0x00000201 ∧
    (after .compress (hostStep (.write 0x24 4 3) (issued 1 (loaded aaabbc)))).status = 0x00070202 := by decide +kernel

/-! ## Witnesses: the hypotheses of each statement, met together; for a statement with clauses, each clause's, at the ends of
its ranges. The name says which statement. -/

/-- The capacities of the vectors are legal. -/
theorem reset_legal : State.reset.CapsLegal := by decide +kernel

/-- A block with small buffers. -/
def small (inCap outCap : Nat) : State := State.resetOf { inCap := inCap, outCap := outCap, hdrCap := 1023 }

/-- `loaded`, in a block of these capacities. -/
def smallLoaded (inCap outCap : Nat) (bytes : List Byte) : State :=
  { small inCap outCap with inLen := BitVec.ofNat 32 bytes.length, inbuf := bytesAt0 bytes }

theorem holds_bytesAt0 (bytes : List Byte) : HoldsAt (bytesAt0 bytes) 0 bytes := Memory.writeBytes_holds _ _ _

theorem holds_loaded (bytes : List Byte) : HoldsAt (loaded bytes).inbuf 0 bytes := Memory.writeBytes_holds _ _ _

theorem hasInput_loaded {bytes : List Byte} (h : bytes.length ≤ 4096) : (loaded bytes).HasInput bytes := by
  have e : (loaded bytes).inLen.toNat = bytes.length := by
    simp only [loaded, BitVec.toNat_ofNat]; omega
  exact ⟨e, h, holds_bytesAt0 bytes⟩

/-- A command that decodes, and the ends of the reserved OPC ranges. -/
theorem witness_EveryWordHasOneMeaning :
    (0x00000104#32).extractLsb' 8 24 ≠ 0 ∧ (0x80000000#32).extractLsb' 8 24 ≠ 0 ∧
    (∀ w ∈ [0x04#32, 0x0F#32, 0x17#32, 0xFF#32], w.extractLsb' 8 24 = 0 ∧
      ((0x04 ≤ w.toNat ∧ w.toNat ≤ 0x0F) ∨ 0x17 ≤ w.toNat)) ∧
    decode 0x16 = .ok .unpack ∧ wellFormedWord 0x16 = true := by
  simp only [List.mem_cons, List.not_mem_nil, or_false, forall_eq_or_imp, forall_eq]
  decide +kernel

theorem witness_EncodedCommandDecodesBack : Instr.nop.wellFormed = true ∧ Instr.unpack.wellFormed = true := by decide +kernel

theorem witness_StepRunsTheDecodedCommand :
    ({ issued 0x10 State.reset with agenda := [] } : State).seq = .busy 0x10 ∧ decode 0x10 = .ok .count ∧
    ({ issued 0x10 State.reset with agenda := [.sequencer] } : State).agenda = [.sequencer] := by decide +kernel

theorem witness_EachTurnIsOneStep :
    ({ State.reset with agenda := [.host (.read 0 4)] } : State).agenda = .host (.read 0 4) :: [] ∧
    ({ issued 1 State.reset with agenda := [.reset] } : State).agenda = .reset :: [] ∧
    ({ State.reset with agenda := [.sequencer] } : State).seq = .idle ∧ State.reset.agenda = [] := by decide +kernel

/-- A reserved OPC; an output command's OPC under a reserved bit; another OPC under one. -/
theorem witness_IllegalWordCompletesWithIllegalCommand :
    (∀ i, decode 0x17 ≠ .ok i) ∧ (∀ i, decode 0x101 ≠ .ok i) ∧ (∀ i, decode 0x100 ≠ .ok i) ∧
    (issued 0x17 State.reset).seq = .busy 0x17 ∧ (issued 0x17 State.reset).agenda = [] ∧
    ({ issued 0x101 State.reset with agenda := [.sequencer] } : State).seq = .busy 0x101 ∧
    ({ issued 0x101 State.reset with agenda := [.sequencer] } : State).agenda = .sequencer :: [] := by
  refine ⟨?_, ?_, ?_, by decide +kernel, by decide +kernel, by decide +kernel, by decide +kernel⟩ <;> intro i <;> cases i <;> decide

/-- An empty agenda, and host transactions before the sequencer's turn. -/
theorem witness_BusySequencerCompletes :
    (issued 1 State.reset).seq = .busy 1 ∧ .reset ∉ (issued 1 State.reset).agenda ∧
    (let s : State := { issued 1 State.reset with agenda := [.host (.read 0 4), .sequencer, .host (.write 0x18 4 3)] }
     s.seq = .busy 1 ∧ .reset ∉ s.agenda) := by decide +kernel

theorem witness_CmdWriteIssuesOnlyWhileIdle : State.reset.seq = .idle ∧ (issued 3 State.reset).seq = .busy 3 := by decide +kernel

theorem witness_InputWritesWhileBusyAreLost :
    (issued 3 State.reset).CapsLegal ∧ (issued 3 State.reset).seq = .busy 3 ∧
    (∀ a ∈ [0x18#32, 0x24#32, 0x28#32, 0x400#32, 0x7FC#32], InputAccess Config.vectorCaps a 4) ∧
    (∀ a ∈ [0x40000000#32, 0x40000FFF#32], InputAccess Config.vectorCaps a 1) ∧
    ReadOnlyReg 0x00 ∧ ReadOnlyReg 0x3C ∧
    (∀ a ∈ [0x02#32, 0x40#32, 0x3FC#32, 0x800#32, 0x40000000#32], ¬LegalAccess Config.vectorCaps a 4) := by
  refine ⟨by decide +kernel, by decide +kernel, ?_, ?_, ?_, ?_, ?_⟩ <;> simp [InputAccess, ReadOnlyReg, LegalAccess, Config.vectorCaps]

theorem witness_BusErrorsExactlyOffTheMap :
    (∀ a ∈ [0x40#32, 0x3FC#32, 0x800#32, 0x01#32, 0x402#32], ¬LegalAccess Config.vectorCaps a 4) ∧
    (∀ a ∈ [0x00#32, 0x7FF#32, 0x900#32, 0x1FFF#32, 0x4000#32, 0x40001000#32, 0x80001000#32],
      ¬LegalAccess Config.vectorCaps a 1) ∧ ¬LegalAccess Config.vectorCaps 0 2 ∧
    (∀ a ∈ [0x00#32, 0x1C#32, 0x3C#32, 0x400#32, 0x7FC#32], LegalAccess Config.vectorCaps a 4) ∧
    (∀ a ∈ [0x800#32, 0x8FF#32, 0x2000#32, 0x3FFF#32, 0x40000000#32, 0x40000FFF#32, 0x80000000#32, 0x80000FFF#32],
      LegalAccess Config.vectorCaps a 1) := by
  refine ⟨?_, ?_, ?_, ?_, ?_⟩ <;> simp [LegalAccess, Config.vectorCaps]

theorem witness_RegisterPageReads : State.reset.seq = .idle := by decide +kernel

/-- The first and last byte of each buffer, and the first and last byte of a CODE_BITS entry. -/
theorem witness_TableAndBufferReads :
    ∃ s : State, s.CapsLegal ∧ s.seq = .idle ∧ (0 < 32 ∧ 31 < 32) ∧
      0 < s.caps.inCap ∧ s.inbuf.read 0 = some 1 ∧ 4095 < s.caps.inCap ∧ s.inbuf.read 4095 = some 2 ∧
      0 < s.caps.outCap ∧ s.outbuf.read 0 = some 3 ∧ 4095 < s.caps.outCap ∧ s.outbuf.read 4095 = some 4 :=
  ⟨{ State.reset with inbuf := [(0, 1), (4095, 2)], outbuf := [(0, 3), (4095, 4)] }, by decide +kernel⟩

theorem witness_CtrlAndStatusWritesTakeEffectAtOnce :
    exec .nop (issued 0 State.reset) = .next (after .nop (issued 0 State.reset)) := exec_after _ _

theorem witness_HostWritesByRegion :
    State.reset.CapsLegal ∧ State.reset.seq = .idle ∧ (issued 1 State.reset).seq ≠ .idle ∧
    0 < State.reset.caps.inCap ∧ 4095 < State.reset.caps.inCap ∧ ReadOnlyReg 0x00 ∧ ReadOnlyReg 0x3C ∧
    (∀ a ∈ [0x800#32, 0x8FF#32, 0x2000#32, 0x3FFF#32, 0x80000000#32, 0x80000FFF#32],
      (0x800 ≤ a.toNat ∧ a.toNat < 0x900) ∨ (0x2000 ≤ a.toNat ∧ a.toNat < 0x4000) ∨
        (0x80000000 ≤ a.toNat ∧ a.toNat < 0x80000000 + State.reset.caps.outCap)) := by
  refine ⟨by decide +kernel, by decide +kernel, by decide +kernel, by decide +kernel, by decide +kernel, ?_, ?_, ?_⟩
  · simp [ReadOnlyReg]
  · simp [ReadOnlyReg]
  · simp only [List.mem_cons, List.not_mem_nil, or_false, forall_eq_or_imp, forall_eq]
    decide +kernel

/-- Two blocks that differ in every result, at the ends of the result state's regions. -/
theorem witness_BusyReadsOfResultsAreDraws :
    ∃ s s' : State, s.CapsLegal ∧ s.seq = .busy 1 ∧ s'.seq = .busy 0x10 ∧ s'.caps = s.caps ∧ s'.draws = s.draws ∧
      s.outLen ≠ s'.outLen ∧ 0 < s.caps.inCap ∧ s.inbuf.read 0 = some 0x61 ∧
      (∀ a ∈ [0x20#32, 0x2C#32, 0x3C#32, 0x400#32, 0x7FC#32], LegalAccess s.caps a 4 ∧ ResultAddr a) ∧
      (∀ a ∈ [0x800#32, 0x3FFF#32, 0x80000000#32, 0x80000FFF#32], LegalAccess s.caps a 1 ∧ ResultAddr a) := by
  refine ⟨issued 1 (loaded aaabbc), issued 0x10 { State.reset with outLen := 5 }, by decide +kernel, by decide +kernel, by decide +kernel, by decide +kernel,
    by decide +kernel, by decide +kernel, by decide +kernel, by decide +kernel, ?_, ?_⟩ <;>
  simp [LegalAccess, ResultAddr, issued, loaded, State.reset, State.resetOf, Config.vectorCaps]

/-- The ends of both buffers, nothing written; and a block whose IN is full, one whose OUT is full. -/
theorem witness_UnwrittenBytesReadAsDraws :
    State.reset.CapsLegal ∧ State.reset.seq = .idle ∧ 0 < State.reset.caps.outCap ∧ 4095 < State.reset.caps.outCap ∧
    State.reset.outbuf.read 0 = none ∧ State.reset.outbuf.read 4095 = none ∧ 4095 < State.reset.caps.inCap ∧
    State.reset.inbuf.read 0 = none ∧ State.reset.inbuf.read 4095 = none ∧
    (smallLoaded 1 1 [5]).CapsLegal ∧ (smallLoaded 1 1 [5]).inbuf.read 0 ≠ none ∧ (smallLoaded 1 1 [5]).outbuf.read 0 = none ∧
    (let s : State := { small 1 1 with outbuf := [(0, 5)] }
     s.CapsLegal ∧ s.outbuf.read 0 ≠ none ∧ s.inbuf.read 0 = none) := by decide +kernel

theorem witness_IrqIsTheCompletionLevel :
    exec .clear (issued 3 State.reset) = .next (after .clear (issued 3 State.reset)) ∧ State.reset.seq = .idle :=
  ⟨exec_after _ _, by decide +kernel⟩

theorem witness_ResetEmptiesTheBlock :
    ({ issued 1 (loaded aaabbc) with agenda := [.reset] } : State).agenda = .reset :: [] := by decide +kernel

/-- A marked block takes a step, a reset among them. -/
theorem witness_StepKeepsCapacitiesAndFaultMark :
    ∃ s t : State, step s = .next t ∧ s.fault ≠ none ∧ s.agenda = [.reset] :=
  ⟨{ State.reset with fault := some (.uninitRead 0), agenda := [.reset] }, _, rfl, by decide +kernel, rfl⟩

/-- Each of the six commands runs: to a success, and (COUNT, with an input byte never written) to the fault mark. -/
theorem witness_RegisterCommandsFrame :
    (∀ i ∈ [Instr.nop, .clear, .count, .build, .derive, .deserialize], ∀ s, exec i s = .next (after i s)) ∧
    (after .count (loaded aaabbc)).errcode = 0 ∧
    (after .count { State.reset with inLen := 1 }).fault = some (.uninitRead 0) ∧
    (after .derive (planted .built treeAcb)).codesValid = true ∧
    (after .deserialize (loaded headerAcb)).errcode = 0 := by
  refine ⟨fun i _ s => exec_after i s, by decide +kernel, by decide +kernel, by decide +kernel, by decide +kernel⟩

/-- Each of the five output commands runs: SERIALIZE and UNPACK to a success, COMPRESS and DECOMPRESS too, PACK to an error. -/
theorem witness_OutputCommandsFrame :
    State.reset.CapsLegal ∧
    (∀ i ∈ [Instr.serialize, .pack, .unpack, .compress, .decompress], ∀ s, exec i s = .next (after i s)) ∧
    (after .serialize (planted .loaded treeAcb)).outLen = 11 ∧
    (after .decompress (loaded artifactAcb)).outLen = 6 ∧ (after .pack State.reset).errcode = 5 := by
  refine ⟨by decide +kernel, fun i _ s => exec_after i s, by decide +kernel, by decide +kernel, by decide +kernel⟩

theorem witness_ErrorsChangeOnlyTheErrorFields :
    ∃ s t : State, s.errcode = 0 ∧ exec .unpack s = .next t ∧ t.errcode ≠ 0 ∧ s.outLen = 7 :=
  ⟨{ State.reset with outLen := 7 }, _, by decide +kernel, exec_after _ _, by decide +kernel, rfl⟩

theorem witness_ExecReadsNoHostControl : exec .count (loaded aaabbc) = .next (after .count (loaded aaabbc)) :=
  exec_after _ _

/-- One byte over. -/
theorem witness_InputBoundIsCheckedFirst : (smallLoaded 2 5 [1, 2, 3]).caps.inCap < (smallLoaded 2 5 [1, 2, 3]).inLen.toNat := by
  decide

theorem witness_MissingPrerequisiteIsSequenceError :
    (∀ t, (planted .loaded treeAcb).tree ≠ some (.built, t)) ∧ State.reset.tree = none ∧
    State.reset.inLen.toNat ≤ State.reset.caps.inCap ∧ State.reset.codesValid = false := by
  refine ⟨?_, by decide +kernel, by decide +kernel, by decide +kernel⟩
  simp [planted]

theorem witness_NopCompletes :
    (0x00000100#32).extractLsb' 0 8 = 0 ∧ (0x00000100#32).extractLsb' 8 24 ≠ 0 ∧
    (0x80000000#32).extractLsb' 0 8 = 0 ∧ (0x80000000#32).extractLsb' 8 24 ≠ 0 := by decide +kernel

/-- An input, the empty input, a bound passed by one, and an input whose third byte was never written. -/
theorem witness_CountCompletes :
    State.reset.CapsLegal ∧ (loaded aaabbc).HasInput aaabbc ∧ (loaded []).HasInput [] ∧
    (smallLoaded 2 5 [1, 2, 3]).caps.inCap < (smallLoaded 2 5 [1, 2, 3]).inLen.toNat ∧
    (let s : State := { loaded [1, 2] with inLen := 3 }
     s.inLen.toNat ≤ s.caps.inCap ∧ HoldsAt s.inbuf 0 [1, 2] ∧ [1, 2].length < s.inLen.toNat ∧
      s.inbuf.read [1, 2].length = none) :=
  ⟨by decide +kernel, hasInput_loaded (by decide +kernel), hasInput_loaded (by decide +kernel), by decide +kernel, by decide +kernel, holds_bytesAt0 [1, 2],
    by decide +kernel, by decide +kernel⟩

theorem witness_CountTotals :
    (loaded aaabbc).CapsLegal ∧ (loaded aaabbc).HasInput aaabbc ∧
    exec .count (loaded aaabbc) = .next (after .count (loaded aaabbc)) :=
  ⟨by decide +kernel, hasInput_loaded (by decide +kernel), exec_after _ _⟩

/-- One symbol, two symbols, and none. -/
theorem witness_BuildCompletes :
    (∃ b, freqOf (counted [(0xFF, 7)]).freq b ≠ 0) ∧ (∃ b, freqOf (counted [(0x00, 1), (0xFF, 7)]).freq b ≠ 0) ∧
    ∀ b, freqOf State.reset.freq b = 0 := by
  refine ⟨⟨0xFF, by decide +kernel⟩, ⟨0x00, by decide +kernel⟩, fun b => ?_⟩
  simp [freqOf, State.reset, State.resetOf]

theorem witness_BuiltTreeIsDeterminedAndShaped :
    (∃ b, freqOf (counted [(0x00, 1), (0xFF, 7)]).freq b ≠ 0) ∧
    (symbolsOf (counted [(0x00, 1), (0xFF, 7)]).freq).length = 2 ∧ (symbolsOf (counted [(0xFF, 7)]).freq).length = 1 ∧
    exec .build (counted [(0x00, 1), (0xFF, 7)]) = .next (after .build (counted [(0x00, 1), (0xFF, 7)])) := by
  refine ⟨⟨0x00, by decide +kernel⟩, by decide +kernel, by decide +kernel, exec_after _ _⟩

/-- The wrapper and a tree of three symbols. -/
theorem built_shapes : (Node.internal (.leaf [0x61]) .sentinel).builtShape ∧ treeAcb.builtShape :=
  ⟨Or.inl ⟨0x61, rfl⟩, Or.inr (by decide +kernel)⟩

theorem witness_DeriveCompletes :
    (planted .built treeAcb).tree = some (.built, treeAcb) ∧ treeAcb.builtShape ∧
    (∀ t, (planted .loaded treeAcb).tree ≠ some (.built, t)) ∧
    (∃ p, treeAcb.follow p = some (.leaf [0x62])) ∧ ∀ p, (Node.internal (.leaf [0x61]) .sentinel).follow p ≠ some (.leaf [0x62]) := by
  refine ⟨rfl, built_shapes.2, by simp [planted], ⟨[true, true], by decide +kernel⟩, fun p => ?_⟩
  rcases p with _ | ⟨a, _ | ⟨b, p⟩⟩
  · simp [Node.follow]
  · cases a <;> simp [Node.follow, Node.child]
  · cases a <;> simp [Node.follow, Node.child]

theorem witness_DerivedCodesArePrefixFreeAndComplete :
    (planted .built treeAcb).tree = some (.built, treeAcb) ∧ treeAcb.builtShape ∧
    exec .derive (planted .built treeAcb) = .next (after .derive (planted .built treeAcb)) :=
  ⟨rfl, built_shapes.2, exec_after _ _⟩

/-- A header of 11 bytes that fits exactly, one byte short, and no tree. -/
theorem witness_SerializeCompletes :
    (let s : State := { small 16 11 with tree := some (.loaded, treeAcb) }
     s.CapsLegal ∧ s.tree = some (.loaded, treeAcb) ∧ treeAcb.ser.length ≤ s.caps.outCap) ∧
    (let s : State := { small 16 10 with tree := some (.built, treeAcb) }
     s.CapsLegal ∧ s.tree = some (.built, treeAcb) ∧ s.caps.outCap < treeAcb.ser.length) ∧
    State.reset.tree = none := by decide +kernel

theorem witness_SerializationIsSelfDelimiting :
    treeAcb.wellFormed = true ∧ treeAcb.ser ++ [1, 2] = treeAcb.ser ++ [1, 2] := by decide +kernel

/-- A header at the end of the input, with room for the copy. -/
theorem witness_DeserializeCompletes :
    (loaded headerAcb).CapsLegal ∧ (loaded headerAcb).inLen.toNat ≤ (loaded headerAcb).caps.inCap ∧
    treeAcb.wellFormed = true ∧ HoldsAt (loaded headerAcb).inbuf (loaded headerAcb).inOff.toNat treeAcb.ser ∧
    (loaded headerAcb).inOff.toNat + treeAcb.ser.length ≤ (loaded headerAcb).inLen.toNat ∧
    treeAcb.ser.length ≤ (loaded headerAcb).caps.hdrCap ∧ treeAcb.ser.length ≤ (loaded headerAcb).caps.outCap :=
  ⟨by decide +kernel, by decide +kernel, by decide +kernel, holds_bytesAt0 headerAcb, by decide +kernel, by decide +kernel, by decide +kernel⟩

theorem witness_DeserializeAcceptsOnlySerializedTrees :
    (loaded headerAcb).CapsLegal ∧
    exec .deserialize (loaded headerAcb) = .next (after .deserialize (loaded headerAcb)) ∧
    (after .deserialize (loaded headerAcb)).errcode = 0 ∧ (after .deserialize (loaded headerAcb)).fault = none :=
  ⟨by decide +kernel, exec_after _ _, by decide +kernel, by decide +kernel⟩

/-- `n` Internal nodes down the left, Sentinels below. -/
def leftComb : Nat → Node
  | 0 => .sentinel
  | n + 1 => .internal (leftComb n) .sentinel

theorem leftComb_wf (n : Nat) : (leftComb n).wellFormed = true := by
  induction n with
  | zero => rfl
  | succ n ih => simp [leftComb, Node.wellFormed, ih]

theorem leftComb_ser (n : Nat) : ∃ r, r ≠ [] ∧ (leftComb n).ser = List.replicate n 0x01 ++ r := by
  induction n with
  | zero => exact ⟨_, List.cons_ne_nil _ _, rfl⟩
  | succ n ih =>
    obtain ⟨r, hr, h⟩ := ih
    exact ⟨r ++ Node.sentinel.ser, by simp [hr], by simp [leftComb, Node.ser, h, List.replicate_succ]⟩

/-- A header of more than 1023 bytes, of which IN holds the first 1023. -/
theorem cut_at_hdrCap (bs : List Byte) (hl : bs.length = 1023) (hp : bs <+: (leftComb 1023).ser) :
    let s : State := { loaded bs with inLen := 1024 }
    s.inLen.toNat ≤ s.caps.inCap ∧ (leftComb 1023).wellFormed = true ∧ bs <+: (leftComb 1023).ser ∧
      HoldsAt s.inbuf s.inOff.toNat bs ∧ bs.length = s.caps.hdrCap ∧ s.inOff.toNat + bs.length < s.inLen.toNat := by
  refine ⟨show 1024 ≤ 4096 by omega, leftComb_wf _, hp, holds_loaded bs, hl, ?_⟩
  rw [hl]
  exact show 0 + 1023 < 1024 by omega

/-- A parse from 0 that has read the first `n` bytes of the header of 95_test_vectors.md 1.1. -/
theorem at_header (n : Nat) (h : n < 11) {s : State} (hs : HoldsAt s.inbuf 0 (headerAcb.take n)) (hl : n ≤ s.inLen.toNat)
    (hc : n ≤ s.caps.hdrCap) : s.AtHeaderByte 0 n := by
  have e : (headerAcb.take n).length = n := by rw [List.length_take, show headerAcb.length = 11 from rfl]; omega
  refine ⟨treeAcb, headerAcb.take n, by decide, List.take_prefix n headerAcb, ?_, hs, by omega, .inr (by omega), by omega⟩
  rw [e]
  exact h

/-- The input ends at once, and inside the header; and a header cut at HDR_CAP = 1023. IN_OFF is 0, so that the clauses of
DESERIALIZE and those of DECOMPRESS are met alike. -/
theorem witness_HeaderCutShortOrTooLong :
    (State.reset.AtHeaderByte 0 0 ∧ State.reset.inLen.toNat ≤ 0 ∧ State.reset.inOff.toNat = 0) ∧
    (let s := loaded (headerAcb.take 10)
     s.inLen.toNat ≤ s.caps.inCap ∧ s.AtHeaderByte 0 10 ∧ s.inLen.toNat ≤ 10 ∧ s.inOff.toNat = 0) ∧
    ∃ s : State, s.inLen.toNat ≤ s.caps.inCap ∧ s.AtHeaderByte 0 1023 ∧ 1023 < s.inLen.toNat ∧ 1023 = s.caps.hdrCap ∧
      s.inOff.toNat = 0 := by
  refine ⟨⟨at_header 0 (by omega) (HoldsAt.nil _ _) (Nat.zero_le _) (Nat.zero_le _), by decide, by decide⟩,
    ⟨by decide, at_header 10 (by omega) (holds_loaded _) (by decide) (by decide), by decide, by decide⟩, ?_⟩
  obtain ⟨r, hr, h⟩ := leftComb_ser 1023
  obtain ⟨bs, hbs, hl⟩ : ∃ bs : List Byte, List.replicate 1023 0x01 = bs ∧ bs.length = 1023 :=
    ⟨_, rfl, List.length_replicate⟩
  rw [hbs] at h
  obtain ⟨h1, h2, h3, h4, h5, h6⟩ := cut_at_hdrCap bs hl ⟨r, h.symm⟩
  refine ⟨{ loaded bs with inLen := 1024 }, h1, ⟨leftComb 1023, bs, h2, h3, ?_, h4, h5.le, .inr h6.le, by rw [hl]⟩, ?_, rfl, rfl⟩
  · rw [h, List.length_append]
    have := List.length_pos_iff.2 hr
    omega
  · rw [hl] at h6; exact h6

/-- A bad tag for the root, and for the right child; IN_OFF is 0, so that DECOMPRESS's clause is met too. -/
theorem witness_BadTagIsMalformedTree :
    0 ∈ treeAcb.tagOffsets ∧ 8 ∈ treeAcb.tagOffsets ∧ (0x02 : Byte) ≠ 0x00 ∧ (0xFF : Byte) ≠ 0x01 ∧
    (let s := loaded (treeAcb.ser.take 0 ++ [0x02])
     s.inLen.toNat ≤ s.caps.inCap ∧ HoldsAt s.inbuf s.inOff.toNat (treeAcb.ser.take 0 ++ [0x02]) ∧
      s.inOff.toNat + 0 < s.inLen.toNat ∧ 0 < s.caps.hdrCap ∧ s.inOff.toNat = 0) ∧
    (let s := loaded (treeAcb.ser.take 8 ++ [0xFF])
     s.inLen.toNat ≤ s.caps.inCap ∧ HoldsAt s.inbuf s.inOff.toNat (treeAcb.ser.take 8 ++ [0xFF]) ∧
      s.inOff.toNat + 8 < s.inLen.toNat ∧ 8 < s.caps.hdrCap ∧ s.inOff.toNat = 0) :=
  ⟨by decide +kernel, by decide +kernel, by decide +kernel, by decide +kernel, ⟨by decide +kernel, holds_bytesAt0 _, by decide +kernel, by decide +kernel, rfl⟩,
    ⟨by decide +kernel, holds_bytesAt0 _, by decide +kernel, by decide +kernel, rfl⟩⟩

/-- `s` with the code table of 95_test_vectors.md 1.1. -/
def coded (s : State) : State :=
  { s with
    codesValid := true
    codeLen := lenTable (treeAcb.codes [])
    codeBits := entryTable (treeAcb.codes [])
    tree := some (.built, treeAcb) }

/-- "cab", whose payload of one byte just fits. -/
theorem witness_PackCompletes :
    (let s := coded (smallLoaded 3 5 [0x63, 0x61, 0x62])
     s.CapsLegal ∧ s.HasInput [0x63, 0x61, 0x62] ∧ s.codesValid = true ∧ (∀ b ∈ [0x63#8, 0x61#8, 0x62#8], s.lenOf b ≠ 0) ∧
      s.outLen.toNat + 4 + ceil8 ([0x63#8, 0x61#8, 0x62#8].flatMap s.codeOf).length ≤ s.caps.outCap) :=
  ⟨by decide +kernel, ⟨by decide +kernel, by decide +kernel, holds_bytesAt0 _⟩, by decide +kernel,
    by
      simp only [List.mem_cons, List.not_mem_nil, or_false, forall_eq_or_imp, forall_eq]
      decide +kernel, by decide +kernel⟩

/-- No room for the count; an uncoded second byte, with an unwritten one behind it; and a payload one byte too long, with an
uncoded byte behind it. -/
theorem witness_PackErrors :
    (let s := coded (smallLoaded 3 3 [0x61])
     s.codesValid = true ∧ s.inLen.toNat ≤ s.caps.inCap ∧ s.caps.outCap < s.outLen.toNat + 4) ∧
    (let s : State := { coded (smallLoaded 3 5 [0x61, 0x64]) with inLen := 3 }
     s.codesValid = true ∧ s.inLen.toNat ≤ s.caps.inCap ∧ HoldsAt s.inbuf 0 ([0x61] ++ [0x64]) ∧
      [0x61#8].length < s.inLen.toNat ∧ (∀ b ∈ [0x61#8], s.lenOf b ≠ 0) ∧ s.lenOf 0x64 = 0 ∧
      s.outLen.toNat + 4 + ceil8 ([0x61#8].flatMap s.codeOf).length ≤ s.caps.outCap ∧ s.inbuf.read 2 = none) ∧
    (let s := coded (smallLoaded 3 4 [0x61, 0x64])
     s.codesValid = true ∧ s.inLen.toNat ≤ s.caps.inCap ∧ HoldsAt s.inbuf 0 [0x61] ∧ [0x61#8].length ≤ s.inLen.toNat ∧
      (∀ b ∈ [0x61#8], s.lenOf b ≠ 0) ∧
      s.caps.outCap < s.outLen.toNat + 4 + ceil8 ([0x61#8].flatMap s.codeOf).length ∧ s.lenOf 0x64 = 0) :=
  ⟨⟨by decide +kernel, by decide +kernel, by decide +kernel⟩,
    ⟨by decide +kernel, by decide +kernel, holds_bytesAt0 _, by decide +kernel,
      by simp only [List.mem_singleton, forall_eq]; decide +kernel, by decide +kernel, by decide +kernel, by decide +kernel⟩,
    ⟨by decide +kernel, by decide +kernel, (HoldsAt.append.1 (holds_bytesAt0 ([0x61] ++ [0x64]))).1, by decide +kernel,
      by simp only [List.mem_singleton, forall_eq]; decide +kernel, by decide +kernel, by decide +kernel⟩⟩

/-- The last index of the one byte of "0". -/
theorem witness_PackedBitsAreMsbFirst : 0 < ceil8 [false].length ∧ ceil8 ([] : List Bool).length = 0 := by decide +kernel

/-- The paths of "cab" in the tree of 95_test_vectors.md 1.1. -/
theorem spells_cab : Spells treeAcb [[true, false], [false], [true, true]] [[0x63], [0x61], [0x62]] :=
  .cons (by decide +kernel) (.cons (by decide +kernel) (.cons (by decide +kernel) .nil))

/-- IN that holds a count at 0 and bits behind it. -/
theorem count_and_bits (n : Word) (bits : List Bool) :
    HoldsAt (bytesAt0 (be32 n ++ packed bits)) 0 (be32 n) ∧ HasBits (bytesAt0 (be32 n ++ packed bits)) (0 + 4) bits := by
  have h := holds_bytesAt0 (be32 n ++ packed bits)
  rw [HoldsAt.append] at h
  exact ⟨h.1, h.2.hasBits⟩

/-- A state with a Loaded tree, whose IN holds a count and bits. -/
def stream (outCap : Nat) (t : Node) (n : Word) (bits : List Bool) : State :=
  { smallLoaded 4096 outCap (be32 n ++ packed bits) with tree := some (.loaded, t) }

/-- "cab", filling OUT. -/
theorem witness_UnpackCompletes :
    (let s := stream 3 treeAcb 3 [true, false, false, true, true]
     s.CapsLegal ∧ s.inLen.toNat ≤ s.caps.inCap ∧ s.tree = some (.loaded, treeAcb) ∧
      HoldsAt s.inbuf s.inOff.toNat (be32 3) ∧ [[true, false], [false], [true, true]].length = (3 : Word).toNat ∧
      Spells treeAcb [[true, false], [false], [true, true]] [[0x63], [0x61], [0x62]] ∧
      HasBits s.inbuf (s.inOff.toNat + 4) [[true, false], [false], [true, true]].flatten ∧
      s.inOff.toNat + 4 + ceil8 [[true, false], [false], [true, true]].flatten.length ≤ s.inLen.toNat ∧
      [[0x63#8], [0x61], [0x62]].flatten.length ≤ s.caps.outCap) :=
  ⟨by decide +kernel, by decide +kernel, rfl, (count_and_bits _ _).1, by decide +kernel, spells_cab, (count_and_bits _ _).2, by decide +kernel, by decide +kernel⟩

/-- IN that holds, from 0, `t`'s header, a count and bits. -/
def headed (outCap : Nat) (t : Node) (n : Word) (bits : List Bool) : State :=
  smallLoaded 4096 outCap (t.ser ++ (be32 n ++ packed bits))

theorem headed_holds (outCap : Nat) (t : Node) (n : Word) (bits : List Bool) :
    HoldsAt (headed outCap t n bits).inbuf 0 t.ser ∧ HoldsAt (headed outCap t n bits).inbuf t.ser.length (be32 n) ∧
      HasBits (headed outCap t n bits).inbuf (t.ser.length + 4) bits := by
  have h := holds_bytesAt0 (t.ser ++ (be32 n ++ packed bits))
  rw [HoldsAt.append, HoldsAt.append, Nat.zero_add] at h
  exact ⟨h.1, h.2.1, h.2.2.hasBits⟩

/-- The single-symbol tree of 95_test_vectors.md 1.3. -/
def treeA : Node := .internal (.leaf [0x61]) .sentinel

/-- The tree of "a" is the wrapper (95_test_vectors.md 2.8). -/
theorem treeOf_a : TreeOf (countTable [0x61]) (.internal (.leaf [0x61]) .sentinel) :=
  Or.inl ⟨0x61, by decide +kernel, rfl⟩

/-- IN holds the first 95_test_vectors.md 1.1 bits "aaabb" and then one bit of the sixth code: UNPACK needs byte 5. -/
theorem at_cut_payload {s : State} (h : HoldsAt s.inbuf 0 (be32 6))
    (hb : HasBits s.inbuf 4 ([[false], [false], [false], [true, true], [true, true]].flatten ++ [true]))
    (hl : 5 ≤ s.inLen.toNat) (ho : 5 ≤ s.caps.outCap) : s.AtStreamByte treeAcb 0 5 := by
  refine .inr ⟨[[false], [false], [false], [true, true], [true, true]], [[0x61], [0x61], [0x61], [0x62], [0x62]], [true],
    .internal (.leaf [0x63]) (.leaf [0x62]), 1, ⟨⟨6, h, by decide⟩, ?_, ho, hb, hl⟩, ⟨rfl, .inr ⟨_, _, rfl⟩⟩, rfl, rfl⟩
  exact .cons (by decide +kernel) (.cons (by decide +kernel) (.cons (by decide +kernel) (.cons (by decide +kernel)
    (.cons (by decide +kernel) .nil))))

/-- UNPACK: nothing at all where the count should be, three bytes of it, and 95_test_vectors.md 1.1 cut inside the code of its
last symbol. DECOMPRESS: the artifact of "a" cut just behind its header, and one byte before its end. -/
theorem witness_UnpackTruncated :
    (let s := planted .loaded treeAcb
     s.CapsLegal ∧ s.inLen.toNat ≤ s.caps.inCap ∧ s.tree = some (.loaded, treeAcb) ∧ s.AtStreamByte treeAcb s.inOff.toNat 0 ∧
      s.inLen.toNat ≤ 0) ∧
    (let s : State := { loaded [0, 0, 0] with tree := some (.loaded, treeAcb) }
     s.tree = some (.loaded, treeAcb) ∧ s.AtStreamByte treeAcb s.inOff.toNat 3 ∧ s.inLen.toNat ≤ 3) ∧
    (let s := stream 4096 treeAcb 6 ([[false], [false], [false], [true, true], [true, true]].flatten ++ [true])
     s.tree = some (.loaded, treeAcb) ∧ s.AtStreamByte treeAcb s.inOff.toNat 5 ∧ s.inLen.toNat ≤ 5) ∧
    (∀ c, c = 6 ∨ c = 10 →
      let s := smallLoaded 4096 4096 ((artifactOf treeA [0x61]).take c)
      s.CapsLegal ∧ s.inLen.toNat ≤ s.caps.inCap ∧ TreeOf (countTable [0x61]) treeA ∧ [0x61#8].length ≤ s.caps.outCap ∧
        HoldsAt s.inbuf 0 ((artifactOf treeA [0x61]).take s.inLen.toNat) ∧ treeA.ser.length ≤ s.inLen.toNat ∧
        s.inLen.toNat < (artifactOf treeA [0x61]).length ∧ s.HasHeader treeA ∧
        s.AtStreamByte treeA treeA.ser.length s.inLen.toNat) := by
  refine ⟨⟨by decide +kernel, by decide +kernel, rfl, .inl ⟨[], by decide, HoldsAt.nil _ _, .inl rfl, rfl⟩, by decide +kernel⟩,
    ⟨rfl, .inl ⟨[0, 0, 0], by decide, holds_bytesAt0 _, .inr (by decide), rfl⟩, by decide +kernel⟩,
    ⟨rfl, at_cut_payload (count_and_bits _ _).1 (count_and_bits _ _).2 (by decide +kernel) (by decide +kernel), by decide +kernel⟩, ?_⟩
  intro c hc
  have hlen : (smallLoaded 4096 4096 ((artifactOf treeA [0x61]).take c)).inLen.toNat = c := by
    rcases hc with rfl | rfl <;> decide +kernel
  have h6 : 6 ≤ c ∧ c < 11 := by omega
  have hs : HoldsAt (smallLoaded 4096 4096 ((artifactOf treeA [0x61]).take c)).inbuf 0
      ((artifactOf treeA [0x61]).take (smallLoaded 4096 4096 ((artifactOf treeA [0x61]).take c)).inLen.toNat) := by
    rw [hlen]; exact holds_bytesAt0 _
  have hart : (artifactOf treeA [0x61]).length = 11 := by decide +kernel
  have hser : treeA.ser.length = 6 := by decide +kernel
  have hcut := artifact_cut (t := treeA) treeOf_a (by decide) (show 1 ≤ 4096 by omega) (show 1023 ≤ 1023 by omega) hs
    (by rw [hlen]; exact h6.1) (by rw [hlen, hart]; exact h6.2)
  have hcaps : (small 4096 4096).CapsLegal := by decide +kernel
  exact ⟨hcaps, by rw [hlen]; exact show c ≤ 4096 by omega, treeOf_a, show 1 ≤ 4096 by omega, hs,
    by rw [hlen, hser]; exact h6.1, by rw [hlen, hart]; exact h6.2, hcut⟩

/-- A Leaf root; a bit that selects a Sentinel after one symbol; and OUT full after one symbol; for UNPACK and DECOMPRESS. -/
theorem witness_UnpackStopsAtBadNodeOrFullOutput :
    (let t := Node.leaf [0x61]
     (let s := stream 4096 t 1 [false]
      s.inLen.toNat ≤ s.caps.inCap ∧ s.tree = some (.loaded, t) ∧ s.StreamBegins t s.inOff.toNat [] [] ([] ++ [false])) ∧
      (headed 4096 t 1 [false]).HasHeader t ∧ (headed 4096 t 1 [false]).StreamBegins t t.ser.length [] [] ([] ++ [false]) ∧
      CursorAt t [] t ∧ t.child false = none) ∧
    ((let s := stream 4096 treeA 2 [false, true]
      s.tree = some (.loaded, treeA) ∧ s.StreamBegins treeA s.inOff.toNat [[false]] [[0x61]] ([] ++ [true])) ∧
      (headed 4096 treeA 2 [false, true]).HasHeader treeA ∧
      (headed 4096 treeA 2 [false, true]).StreamBegins treeA treeA.ser.length [[false]] [[0x61]] ([] ++ [true]) ∧
      CursorAt treeA [] treeA ∧ treeA.child true = some .sentinel) ∧
    ((let s := stream 1 treeA 2 [false, false]
      s.tree = some (.loaded, treeA) ∧ s.StreamBegins treeA s.inOff.toNat [[false]] [[0x61]] [false] ∧
      s.caps.outCap < [[0x61#8]].flatten.length + [0x61#8].length) ∧
      (headed 1 treeA 2 [false, false]).HasHeader treeA ∧
      (headed 1 treeA 2 [false, false]).StreamBegins treeA treeA.ser.length [[false]] [[0x61]] [false] ∧
      [false] ≠ [] ∧ treeA.follow [false] = some (.leaf [0x61])) := by
  have one : Spells treeA [[false]] [[0x61]] := .cons (by decide +kernel) .nil
  refine ⟨⟨⟨by decide +kernel, rfl, ⟨_, (count_and_bits _ _).1, by decide +kernel⟩, .nil, by decide +kernel,
        (count_and_bits _ _).2, by decide +kernel⟩,
      ⟨by decide +kernel, by decide +kernel, (headed_holds _ _ _ _).1, by decide +kernel⟩,
      ⟨⟨_, (headed_holds _ _ _ _).2.1, by decide +kernel⟩, .nil, by decide +kernel, (headed_holds _ _ _ _).2.2, by decide +kernel⟩,
      ⟨rfl, .inl rfl⟩, rfl⟩,
    ⟨⟨rfl, ⟨_, (count_and_bits _ _).1, by decide +kernel⟩, one, by decide +kernel, (count_and_bits _ _).2, by decide +kernel⟩,
      ⟨by decide +kernel, by decide +kernel, (headed_holds _ _ _ _).1, by decide +kernel⟩,
      ⟨⟨_, (headed_holds _ _ _ _).2.1, by decide +kernel⟩, one, by decide +kernel, (headed_holds _ _ _ _).2.2, by decide +kernel⟩,
      ⟨rfl, .inl rfl⟩, rfl⟩,
    ⟨⟨rfl, ⟨⟨_, (count_and_bits _ _).1, by decide +kernel⟩, one, by decide +kernel, (count_and_bits _ _).2, by decide +kernel⟩,
        by decide +kernel⟩,
      ⟨by decide +kernel, by decide +kernel, (headed_holds _ _ _ _).1, by decide +kernel⟩,
      ⟨⟨_, (headed_holds _ _ _ _).2.1, by decide +kernel⟩, one, by decide +kernel, (headed_holds _ _ _ _).2.2, by decide +kernel⟩,
      by decide, rfl⟩⟩

/-- Each command at a byte that was never written, IN_LEN past it: COUNT, COMPRESS and PACK at byte 0 and byte 1, DESERIALIZE and
DECOMPRESS inside a header, UNPACK and DECOMPRESS inside a count field, UNPACK inside a payload. -/
theorem witness_UninitFaultOnlyFromUnwrittenInput :
    (∃ s t : State, exec .count s = .next t ∧ t.fault ≠ s.fault) ∧
    (let s : State := { coded State.reset with inLen := 1 }
     s.inLen.toNat ≤ s.caps.inCap ∧ 0 < s.inLen.toNat ∧ s.inbuf.read 0 = none ∧ HoldsAt s.inbuf 0 [] ∧ s.codesValid = true) ∧
    (let s : State := { coded (loaded [0x61]) with inLen := 2 }
     1 < s.inLen.toNat ∧ s.inbuf.read 1 = none ∧ [0x61#8].length = 1 ∧ HoldsAt s.inbuf 0 [0x61] ∧ s.codesValid = true ∧
      (∀ b ∈ [0x61#8], s.lenOf b ≠ 0) ∧
      s.outLen.toNat + 4 + ceil8 ([0x61#8].flatMap s.codeOf).length ≤ s.caps.outCap) ∧
    (let s : State := { loaded (headerAcb.take 10) with inLen := 11 }
     s.inLen.toNat ≤ s.caps.inCap ∧ 10 < s.inLen.toNat ∧ s.inbuf.read 10 = none ∧ s.inOff.toNat = 0 ∧ s.AtHeaderByte 0 10 ∧
      10 < s.caps.hdrCap) ∧
    (let s : State := { planted .loaded treeAcb with inLen := 4 }
     0 < s.inLen.toNat ∧ s.inbuf.read 0 = none ∧ s.tree = some (.loaded, treeAcb) ∧ s.AtStreamByte treeAcb s.inOff.toNat 0) ∧
    (let s : State :=
       { stream 4096 treeAcb 6 ([[false], [false], [false], [true, true], [true, true]].flatten ++ [true]) with inLen := 6 }
     5 < s.inLen.toNat ∧ s.inbuf.read 5 = none ∧ s.tree = some (.loaded, treeAcb) ∧ s.AtStreamByte treeAcb s.inOff.toNat 5) ∧
    (let s : State := { loaded treeAcb.ser with inLen := 15 }
     s.inLen.toNat ≤ s.caps.inCap ∧ 11 < s.inLen.toNat ∧ s.inbuf.read 11 = none ∧ s.HasHeader treeAcb ∧
      s.AtStreamByte treeAcb treeAcb.ser.length 11) := by
  refine ⟨⟨{ State.reset with inLen := 1 }, _, exec_after _ _, by decide +kernel⟩,
    ⟨by decide +kernel, by decide +kernel, by decide +kernel, HoldsAt.nil _ _, by decide +kernel⟩,
    ⟨by decide +kernel, by decide +kernel, rfl, holds_bytesAt0 _, by decide +kernel,
      by simp only [List.mem_singleton, forall_eq]; decide +kernel, by decide +kernel⟩,
    ⟨by decide +kernel, by decide +kernel, by decide +kernel, by decide +kernel,
      at_header 10 (by omega) (holds_bytesAt0 _) (by decide +kernel) (by decide +kernel), by decide +kernel⟩,
    ⟨by decide +kernel, by decide +kernel, rfl, .inl ⟨[], by decide, HoldsAt.nil _ _, .inl rfl, rfl⟩⟩,
    ⟨by decide +kernel, by decide +kernel, rfl,
      at_cut_payload (count_and_bits _ _).1 (count_and_bits _ _).2 (by decide +kernel) (by decide +kernel)⟩,
    ⟨by decide +kernel, by decide +kernel, by decide +kernel,
      ⟨by decide +kernel, by decide +kernel, holds_bytesAt0 _, by decide +kernel⟩,
      .inl ⟨[], by decide, HoldsAt.nil _ _, .inl rfl, by decide +kernel⟩⟩⟩

/-- "a", whose artifact of 11 bytes fills OUT. -/
theorem witness_CompressCompletes :
    (smallLoaded 1 11 [0x61]).CapsLegal ∧ (smallLoaded 1 11 [0x61]).HasInput [0x61] ∧ [0x61#8] ≠ [] ∧
    TreeOf (countTable [0x61]) (.internal (.leaf [0x61]) .sentinel) ∧
    (artifactOf (.internal (.leaf [0x61]) .sentinel) [0x61]).length ≤ (smallLoaded 1 11 [0x61]).caps.outCap :=
  ⟨by decide +kernel, ⟨by decide +kernel, by decide +kernel, holds_bytesAt0 _⟩, by decide +kernel, treeOf_a, by decide +kernel⟩

/-- An empty input, and "a" with OUT one byte short. -/
theorem witness_CompressErrors :
    State.reset.inLen = 0 ∧ (smallLoaded 1 10 [0x61]).HasInput [0x61] ∧ [0x61#8] ≠ [] ∧
    (smallLoaded 1 10 [0x61]).CapsLegal ∧ TreeOf (countTable [0x61]) (.internal (.leaf [0x61]) .sentinel) ∧
    (smallLoaded 1 10 [0x61]).caps.outCap < (artifactOf (.internal (.leaf [0x61]) .sentinel) [0x61]).length :=
  ⟨by decide +kernel, ⟨by decide +kernel, by decide +kernel, holds_bytesAt0 _⟩, by decide +kernel, by decide +kernel, treeOf_a, by decide +kernel⟩

theorem witness_CompressIsTheFiveCommandsInOrder :
    (loaded aaabbc).CapsLegal ∧ (loaded aaabbc).HasInput aaabbc ∧ aaabbc ≠ [] ∧
    exec .compress (loaded aaabbc) = .next (after .compress (loaded aaabbc)) ∧
    (after .compress (loaded aaabbc)).errcode = 0 :=
  ⟨by decide, hasInput_loaded (by decide), by decide, exec_after _ _, test_compress_aaabbc.2.2.2⟩

/-- "cab" with the header of 95_test_vectors.md 1.1, filling OUT. -/
theorem witness_DecompressCompletes :
    (let paths := [[true, false], [false], [true, true]]
     let s := smallLoaded 16 3 (treeAcb.ser ++ be32 3 ++ packed paths.flatten)
     s.CapsLegal ∧ s.inLen.toNat ≤ s.caps.inCap ∧ treeAcb.wellFormed = true ∧ treeAcb.ser.length ≤ s.caps.hdrCap ∧
      HoldsAt s.inbuf 0 (treeAcb.ser ++ be32 3) ∧ paths.length = (3 : Word).toNat ∧
      Spells treeAcb paths [[0x63], [0x61], [0x62]] ∧ HasBits s.inbuf (treeAcb.ser.length + 4) paths.flatten ∧
      treeAcb.ser.length + 4 + ceil8 paths.flatten.length ≤ s.inLen.toNat ∧
      [[0x63#8], [0x61], [0x62]].flatten.length ≤ s.caps.outCap) := by
  have h := holds_bytesAt0 (treeAcb.ser ++ be32 3 ++ packed [[true, false], [false], [true, true]].flatten)
  rw [HoldsAt.append] at h
  exact ⟨by decide +kernel, by decide +kernel, by decide +kernel, by decide +kernel, h.1, by decide +kernel, spells_cab, h.2.hasBits, by decide +kernel, by decide +kernel⟩

/-- The run of 95_test_vectors.md 1.1, and a second block that holds its artifact. -/
theorem witness_DecompressOfCompressIsTheInput :
    (loaded aaabbc).CapsLegal ∧ (loaded artifactAcb).CapsLegal ∧ (loaded aaabbc).HasInput aaabbc ∧ aaabbc ≠ [] ∧
    exec .compress (loaded aaabbc) = .next (after .compress (loaded aaabbc)) ∧
    (after .compress (loaded aaabbc)).errcode = 0 ∧
    (loaded artifactAcb).inLen = (after .compress (loaded aaabbc)).outLen ∧
    (after .compress (loaded aaabbc)).outLen.toNat ≤ (loaded artifactAcb).caps.inCap ∧
    (∀ i, i < (after .compress (loaded aaabbc)).outLen.toNat →
      (loaded artifactAcb).inbuf.read i = (after .compress (loaded aaabbc)).outbuf.read i) ∧
    aaabbc.length ≤ (loaded artifactAcb).caps.outCap := by
  refine ⟨by decide, by decide, hasInput_loaded (by decide), by decide, exec_after _ _, test_compress_aaabbc.2.2.2,
    test_compress_aaabbc.2.2.1.symm, ?_, fun i _ => ?_, by decide⟩
  · rw [test_compress_aaabbc.2.2.1]; decide
  rw [test_compress_aaabbc.1]; rfl

/-- Two blocks that share nothing but the input. -/
theorem witness_EntryPointsDependOnTheInputAlone :
    (let s' : State := { coded (loaded aaabbc) with inOff := 5, outLen := 9, outbuf := [(0, 7)] }
     s'.caps = (loaded aaabbc).caps ∧ (loaded aaabbc).HasInput aaabbc ∧ s'.HasInput aaabbc ∧
      exec .compress (loaded aaabbc) = .next (after .compress (loaded aaabbc)) ∧
      exec .compress s' = .next (after .compress s') ∧ (after .compress (loaded aaabbc)).errcode = 0 ∧
      exec .decompress (loaded aaabbc) = .next (after .decompress (loaded aaabbc)) ∧
      exec .decompress s' = .next (after .decompress s')) ∧ (after .decompress (loaded artifactAcb)).errcode = 0 :=
  ⟨⟨by decide +kernel, hasInput_loaded (by decide +kernel), hasInput_loaded (bytes := aaabbc) (by decide +kernel), exec_after _ _,
    exec_after _ _, test_compress_aaabbc.2.2.2, exec_after _ _, exec_after _ _⟩, by decide +kernel⟩

/-- Every invariant holds at reset. -/
theorem reset_inv : State.reset.Inv where
  caps := by decide +kernel
  buffers := ⟨by decide +kernel, by decide +kernel, by decide +kernel, by decide +kernel⟩
  protocol := ⟨by simp [State.reset, State.resetOf], by decide +kernel, by decide +kernel⟩
  out := ⟨by decide +kernel, by simp [State.reset, State.resetOf]⟩
  tree := by simp [State.TreeInv, State.reset, State.resetOf]
  codes := by simp [State.CodesInv, State.reset, State.resetOf]

/-- For StepKeepsTheBuffersCanonical, StepKeepsTheProtocol, StepKeepsOutLenValid, StepKeepsTreeAndItsLength and
StepKeepsCodesMatchingTheTree: a state with every invariant, and its step. -/
theorem witness_StepKeepsTheInvariants :
    ∃ s t : State, s.Inv ∧ s.CapsLegal ∧ s.BuffersInv ∧ s.ProtocolInv ∧ s.OutInv ∧ s.TreeInv ∧ s.CodesInv ∧
      step s = .next t ∧ t.inbuf = [(0xFFF, 5)] :=
  ⟨{ State.reset with agenda := [.host (.write 0x40000FFF 1 5)] }, _,
    ⟨reset_inv.caps, reset_inv.buffers, reset_inv.protocol, reset_inv.out, reset_inv.tree, reset_inv.codes⟩,
    reset_inv.caps, reset_inv.buffers, reset_inv.protocol, reset_inv.out, reset_inv.tree, reset_inv.codes, rfl,
    by decide +kernel⟩

/-- The capacities at reset, and the largest ones. -/
theorem witness_PowerOnHasTheInvariants :
    Config.vectorCaps.Legal ∧ ({ inCap := 2 ^ 30, outCap := 2 ^ 30, hdrCap := 2 ^ 30 } : Config.Caps).Legal ∧
    ({ inCap := 1, outCap := 1, hdrCap := 1023 } : Config.Caps).Legal := by decide

end Sys2Proof.Tests
end

/-! PROOFS. STATUS bit by bit and the interrupt level (10_state.md R36, R37, R55; 60_exceptions.md R322): what the derived
bits mean, what a host write of CTRL, CMD and STATUS does, and what every completion leaves in DONE and IE. -/

namespace Sys2Proof.Machine

/-! ## The derived bits of STATUS -/

theorem busy_iff {s : State} : s.busy = true ↔ s.seq ≠ .idle := by
  unfold State.busy
  cases s.seq <;> simp

theorem err_iff {s : State} : s.err = true ↔ s.errcode ≠ 0 := bne_iff_ne

theorem treeValid_iff {s : State} : s.treeValid = true ↔ s.tree ≠ none := Option.isSome_iff_ne_none

theorem treeBuilt_iff {s : State} : s.treeBuilt = true ↔ ∃ t, s.tree = some (.built, t) := by
  unfold State.treeBuilt
  split <;> rename_i h <;> simp [h]

/-- The bits R36's table reserves: 3, 10 to 15, and 19 up. -/
theorem status_reserved (s : State) {k : Nat} (h : k = 3 ∨ (10 ≤ k ∧ k ≤ 15) ∨ 19 ≤ k) :
    s.status.getLsbD k = false := by
  rw [status_bit]
  repeat rw [if_neg (by omega)]

/-- Settles O13, from `status_bit` and the meaning of each derived bit. -/
theorem statusBitsAsTabulated : Obligations.StatusBitsAsTabulated := by
  intro s
  refine ⟨?busy, status_bit s 1, ?err, status_errcode s, status_bit s 8, status_bit s 9, ?valid, ?built,
    status_bit s 18, fun _ => status_reserved s⟩
  case busy => rw [status_bit s 0]; exact busy_iff
  case err => rw [status_bit s 2]; exact err_iff
  case valid => rw [status_bit s 16]; exact treeValid_iff
  case built => rw [status_bit s 17]; exact treeBuilt_iff

/-! ## Host writes of CTRL, CMD and STATUS -/

theorem hostStep_write_ctrl (s : State) (v : Word) :
    hostStep (.write 0x14 4 v) s = { s with ctrlIe := v.getLsbD 0 } :=
  hostWrite_of_target (t := .reg .ctrl) rfl

theorem hostStep_write_cmd (s : State) (w : Word) : hostStep (.write 0x18 4 w) s = s.inputWrite (issue w s) :=
  hostWrite_of_target (t := .reg .cmd) rfl

theorem hostStep_write_status (s : State) (v : Word) : hostStep (.write 0x1C 4 v) s = s.writeStatus v :=
  hostWrite_of_target (t := .reg .status) rfl

/-- While Idle a write to a command's input takes effect (R83). -/
theorem inputWrite_of_idle {s : State} (h : s.seq = .idle) (s' : State) : s.inputWrite s' = s' := by
  rw [State.inputWrite, busy_of_idle h]; rfl

/-! ## What every completion leaves -/

/-- Every completion, success, error or fault mark, sets DONE (R162). -/
theorem exec_done {i : Instr} {s t : State} (h : exec i s = .next t) : t.done = true := by
  obtain ⟨u, -, rfl⟩ | ⟨e, p, -, rfl⟩ | ⟨k, -, rfl⟩ := exec_cases h
  · rfl
  · split <;> rfl
  · rfl

/-- No completion changes IE (R163). -/
theorem exec_ctrlIe {i : Instr} {s t : State} (h : exec i s = .next t) : t.ctrlIe = s.ctrlIe := by
  obtain ⟨u, hu, rfl⟩ | ⟨e, p, -, rfl⟩ | ⟨k, -, rfl⟩ := exec_cases h
  · obtain ⟨hie, -⟩ := ruleOf_host hu
    exact hie
  · split <;> rfl
  · rfl

/-! ## The interrupt level -/

/-- A completion makes IRQ the value of IE. -/
theorem exec_irq {i : Instr} {s t : State} (h : exec i s = .next t) : t.irq = s.ctrlIe := by
  rw [State.irq, exec_done h, exec_ctrlIe h, Bool.true_and]

theorem irq_of_not_done {s : State} (h : s.done = false) : s.irq = false := by
  rw [State.irq, h, Bool.false_and]

/-- After a write of CTRL, IRQ is DONE masked by the new IE. -/
theorem irq_write_ctrl (s : State) (v : Word) :
    (hostStep (.write 0x14 4 v) s).irq = (s.done && v.getLsbD 0) := by
  rw [hostStep_write_ctrl, State.irq]

/-- Writing 1 to STATUS.DONE clears DONE (R36). -/
theorem done_write_status {s : State} {v : Word} (h : v.getLsbD 1 = true) :
    (hostStep (.write 0x1C 4 v) s).done = false := by
  rw [hostStep_write_status, writeStatus_done, h, Bool.not_true, Bool.and_false]

/-- Issuing a command clears DONE (R161). -/
theorem done_write_cmd {s : State} (h : s.seq = .idle) (w : Word) : (hostStep (.write 0x18 4 w) s).done = false := by
  rw [hostStep_write_cmd, inputWrite_of_idle h, issue_done]

/-- Settles O19: IRQ follows DONE and IE through completions, STATUS, CMD and CTRL writes. -/
theorem irqIsTheCompletionLevel : Obligations.IrqIsTheCompletionLevel := by
  intro s
  refine ⟨rfl, fun _ _ => exec_irq, irq_of_not_done (done_write_status rfl),
    fun hidle w => irq_of_not_done (done_write_cmd hidle w), ?masked, ?kept, ?shown, fun _ => irq_of_not_done rfl⟩
  case masked => rw [irq_write_ctrl]; exact Bool.and_false _
  case kept => rw [hostStep_write_ctrl]
  case shown => rw [irq_write_ctrl]; exact Bool.and_true _

end Sys2Proof.Machine

/-! PROOFS. Which host transactions change BERR (20_memory.md R84, R87): a bus error sets it, a legal read keeps it, and of
the legal writes only the one of STATUS touches it, to clear it. -/

namespace Sys2Proof.Machine

/-! ## The target of STATUS -/

theorem eq_seven_of_regAt_status {i : Nat} (h : regAt i = some .status) : i = 7 := by
  have hi : i < 16 := regAt_isSome.1 (by rw [h]; rfl)
  revert h
  interval_cases i <;> simp [regAt]

/-- STATUS is reached at offset 0x1C alone (R31). -/
theorem addr_of_target_status {c : Config.Caps} {addr : Word} {n : Nat}
    (h : target c addr n = some (.reg .status)) : addr = 0x1C := by
  unfold target at h
  split_ifs at h
  · unfold wordTarget at h
    split_ifs at h with haligned hpage
    · obtain ⟨r, hr, hrs⟩ := Option.map_eq_some_iff.1 h
      obtain rfl := Target.reg.inj hrs
      have hindex : addr.toNat / 4 = 7 := eq_seven_of_regAt_status hr
      exact BitVec.eq_of_toNat_eq (show addr.toNat = 0x1C by omega)
    · simp at h
  · unfold byteTarget at h
    split_ifs at h <;> simp at h

/-! ## BERR through a legal access -/

theorem inputWrite_berr {s s' : State} (h : s'.berr = s.berr) : (s.inputWrite s').berr = s.berr := by
  unfold State.inputWrite
  split
  · rfl
  · exact h

theorem writeReg_berr {r : Reg} (s : State) (v : Word) (h : r ≠ .status) : (s.writeReg v r).berr = s.berr := by
  cases r with
  | status => exact absurd rfl h
  | cmd | inLen | inOff => exact inputWrite_berr rfl
  | _ => rfl

theorem writeTarget_berr {t : Target} (s : State) (v : Word) (h : t ≠ .reg .status) :
    (s.writeTarget v t).berr = s.berr := by
  cases t with
  | reg r => exact writeReg_berr s v fun hr => h (by rw [hr])
  | freq | inByte => exact inputWrite_berr rfl
  | codeLen | codeBits | outByte => rfl

/-- No write that reaches a target sets BERR, the one of STATUS included (R36). -/
theorem berr_of_writeTarget_berr {t : Target} {s : State} {v : Word} (h : (s.writeTarget v t).berr = true) :
    s.berr = true := by
  by_cases ht : t = .reg .status
  · subst ht
    exact (Bool.and_eq_true_iff.1 h).1
  · rwa [writeTarget_berr s v ht] at h

/-- A read that reaches a target, stored value or draw, keeps BERR. -/
theorem hostRead_berr_of_target {addr : Word} {n : Nat} {s : State} {t : Target} (h : target s.caps addr n = some t) :
    (hostStep (.read addr n) s).berr = s.berr := by
  cases hb : s.busy && t.isResult with
  | true => rw [hostRead_draws h (.inl hb), takeDraw_berr]
  | false =>
    cases hv : s.stored t with
    | none => rw [hostRead_draws h (.inr hv), takeDraw_berr]
    | some v => rw [hostRead_stored h hb hv]

/-- Settles O10: an illegal access reaches no target, and a legal one reaches a target where only a STATUS write changes
BERR. -/
theorem busErrorsExactlyOffTheMap : Obligations.BusErrorsExactlyOffTheMap := by
  intro s addr v n
  refine ⟨fun hoff => ⟨hostWrite_illegal hoff, hostRead_illegal hoff⟩, fun hlegal => ?_⟩
  obtain ⟨t, ht⟩ := Option.isSome_iff_exists.1 (target_isSome_iff.2 hlegal)
  rw [hostWrite_of_target ht]
  refine ⟨hostRead_berr_of_target ht, fun haddr => writeTarget_berr s v ?_, berr_of_writeTarget_berr⟩
  rintro rfl
  exact haddr (addr_of_target_status ht)

end Sys2Proof.Machine

/-! PROOFS. The command protocol (40_command_protocol.md R161, R168, R169): the write of CMD, and the completions of NOP and
CLEAR. -/

namespace Sys2Proof.Machine

/-! ## The write of CMD (R161) -/

/-- While Busy a write to a command's input only sets BUSYWR (R351). -/
theorem inputWrite_of_busy {s : State} {w : Word} (h : s.seq = .busy w) (s' : State) :
    s.inputWrite s' = { s with busywr := true } := by
  rw [State.inputWrite, busy_of_busy h, if_pos rfl]

theorem hostStep_write_cmd_of_idle {s : State} (h : s.seq = .idle) (w : Word) :
    hostStep (.write 0x18 4 w) s = issue w s := by
  rw [hostStep_write_cmd, inputWrite_of_idle h]

theorem hostStep_write_cmd_of_busy {s : State} {u : Word} (h : s.seq = .busy u) (w : Word) :
    hostStep (.write 0x18 4 w) s = { s with busywr := true } := by
  rw [hostStep_write_cmd, inputWrite_of_busy h]

/-- Settles O8: the write is the issue step while Idle and a lost input write while Busy. -/
theorem cmdWriteIssuesOnlyWhileIdle : Obligations.CmdWriteIssuesOnlyWhileIdle :=
  fun _ w => ⟨fun hidle => hostStep_write_cmd_of_idle hidle w, fun _ hbusy => hostStep_write_cmd_of_busy hbusy w⟩

/-! ## The word at its completion (R166) -/

theorem decode_of_reserved {w : Word} (h : w.extractLsb' 8 24 ≠ 0) : decode w = .error .reservedBitsSet := if_pos h

theorem runWord_of_decode {w : Word} {i : Instr} (h : decode w = .ok i) (s : State) : runWord w s = exec i s := by
  rw [runWord, h]

theorem runWord_of_reject {w : Word} {r : Reject} (h : decode w = .error r) (s : State) :
    runWord w s = .next (s.failed .illegalCommand 0) := by
  rw [runWord, h, illegalCommand_eq]

/-! ## NOP (R168) -/

theorem exec_nop (s : State) : exec .nop s = .next s.completed := exec_of_ok rfl

theorem decode_zero : decode 0 = .ok .nop := by decide

theorem runWord_zero (s : State) : runWord 0 s = .next s.completed := by
  rw [runWord_of_decode decode_zero, exec_nop]

/-- A success shows DONE alone in STATUS when the W1C error bits are clear and the core holds no tree and no codes (R36). -/
theorem status_completed {s : State} (hberr : s.berr = false) (hbusywr : s.busywr = false) (htree : s.tree = none)
    (hcodes : s.codesValid = false) : s.completed.status = 2 := by
  have hbusy := busy_of_idle (completed_seq s)
  simp [State.status, State.err, State.treeValid, State.treeBuilt, hbusy, hberr, hbusywr, htree, hcodes]

/-- Settles O29: NOP's working copy is the state itself, and a word with RSVD set is rejected before its OPC is read. -/
theorem nopCompletes : Obligations.NopCompletes := by
  refine ⟨exec_nop, decode_zero, fun w s _ hrsvd => ?reserved, fun c => ?fromReset⟩
  case reserved =>
    have hreject := decode_of_reserved hrsvd
    exact ⟨hreject, _, runWord_of_reject hreject s, rfl⟩
  case fromReset =>
    rw [hostStep_write_cmd_of_idle rfl]
    exact ⟨_, runWord_zero _, status_completed rfl rfl rfl rfl, rfl⟩

/-! ## CLEAR (R169) -/

theorem exec_clear (s : State) : exec .clear s = .next (clearBody s).completed := exec_of_ok rfl

/-- CLEAR writes constants alone, which are there already after a CLEAR. -/
theorem exec_clear_of_cleared (s : State) :
    exec .clear (clearBody s).completed = .next (clearBody s).completed := exec_clear _

theorem freqOf_clearBody (s : State) (b : Byte) : freqOf (clearBody s).freq b = 0 := by
  rw [clearBody_freq, freqOf, Vector.getElem_replicate]

theorem lenOf_clearBody (s : State) (b : Byte) : (clearBody s).lenOf b = 0 := by
  simp only [State.lenOf, clearBody_codeLen, Vector.getElem_replicate, BitVec.ofNat_eq_ofNat, BitVec.toNat_zero]

theorem entryOf_clearBody (s : State) (b : Byte) : (clearBody s).entryOf b = 0 := by
  simp only [State.entryOf, clearBody_codeBits, Vector.getElem_replicate]

/-- Settles O30: every entry and flag CLEAR writes reads 0, and what it leaves is a fixed point of CLEAR. -/
theorem clearEmptiesTheCore : Obligations.ClearEmptiesTheCore := fun s =>
  ⟨_, exec_clear s, rfl, fun b => ⟨freqOf_clearBody s b, lenOf_clearBody s b, entryOf_clearBody s b⟩,
    status_bit _ 16, status_bit _ 17, status_bit _ 18, exec_clear_of_cleared s⟩

end Sys2Proof.Machine

/-! PROOFS. COUNT (41_frequency_model.md R180 to R182): how it succeeds, how the reading of IN stops it, and the totals of the
table it leaves. -/

namespace Sys2Proof.Machine

/-! ## The input (R180) -/

/-- Within the legal capacities no count of input bytes wraps (R181). -/
theorem State.HasInput.length_lt {s : State} {bytes : List Byte} (h : s.HasInput bytes) (hcaps : s.CapsLegal) :
    bytes.length < 2 ^ 32 := by
  obtain ⟨-, hcap, -⟩ := h
  obtain ⟨⟨-, hlegal⟩, -⟩ := hcaps
  omega

/-! ## The ways COUNT completes (R180, R181) -/

theorem exec_count_of_input {s : State} {bytes : List Byte} (h : s.HasInput bytes) :
    exec .count s = .next (s.setFreq (countTable bytes)).completed := by
  apply exec_of_ok
  rw [ruleOf, checkInLen_ok h.bound, ok_bind]
  obtain ⟨hlen, -, hholds⟩ := h
  exact countBody_ok.2 ⟨bytes, hlen.symm, hholds, rfl⟩

theorem exec_count_over_capacity {s : State} (h : s.caps.inCap < s.inLen.toNat) :
    exec .count s = .next (s.failed .resourceLimit 0) := by
  apply exec_of_raise
  rw [ruleOf, checkInLen_raise h, raise_bind]

/-- The first byte never written stops the reading of the input. -/
theorem exec_count_unwritten {s : State} {bytes : List Byte} (hcap : s.inLen.toNat ≤ s.caps.inCap)
    (hholds : HoldsAt s.inbuf 0 bytes) (hlt : bytes.length < s.inLen.toNat)
    (hunwritten : s.inbuf.read bytes.length = none) : exec .count s = .next (s.faulted bytes.length) := by
  apply exec_of_fault
  have hread := inBytes_unwritten hholds hlt (by rwa [Nat.zero_add])
  rw [Nat.zero_add] at hread
  rw [ruleOf, checkInLen_ok hcap, ok_bind, countBody, hread, error_bind]

/-! ## NSYM (R181) -/

/-- NSYM holds the number of symbols of the table: at most 256, it does not wrap. -/
theorem setFreq_nsym_toNat (s : State) (f : Vector Word 256) : (s.setFreq f).nsym.toNat = (symbolsOf f).length := by
  have := length_symbolsOf_le f
  rw [setFreq_nsym, BitVec.toNat_ofNat, Nat.mod_eq_of_lt (by omega)]

/-- Settles O31: the three ways COUNT completes, with what the counted table holds. -/
theorem countCompletes : Obligations.CountCompletes := by
  intro s bytes hcaps
  refine ⟨fun hinput => ?counted, exec_count_over_capacity, exec_count_unwritten⟩
  have hlt := hinput.length_lt hcaps
  refine ⟨_, exec_count_of_input hinput, rfl, freqOf_countTable_toNat bytes hlt, ?nsym⟩
  rw [completed_nsym, setFreq_nsym_toNat, length_symbolsOf_countTable bytes hlt]

/-! ## The totals of the counted table (R182) -/

theorem sum_freqOf_countTable (bytes : List Byte) (h : bytes.length < 2 ^ 32) :
    (allBytes.map fun b => (freqOf (countTable bytes) b).toNat).sum = bytes.length := by
  simp only [freqOf_countTable_toNat bytes h, sum_count]

theorem freqOf_countTable_ne_zero (bytes : List Byte) (h : bytes.length < 2 ^ 32) (b : Byte) :
    freqOf (countTable bytes) b ≠ 0 ↔ b ∈ bytes := by
  rw [← List.count_pos_iff, Nat.pos_iff_ne_zero, ← freqOf_countTable_toNat bytes h]
  exact not_congr BitVec.toNat_inj.symm

/-- No symbol is counted exactly when there is no byte to count. -/
theorem length_symbolsOf_countTable_eq_zero (bytes : List Byte) (h : bytes.length < 2 ^ 32) :
    (symbolsOf (countTable bytes)).length = 0 ↔ bytes.length = 0 := by
  rw [length_symbolsOf_countTable bytes h, List.length_eq_zero_iff, List.length_eq_zero_iff, List.dedup_eq_nil]

/-- Settles O32: a successful COUNT leaves the counted table of the input, whose totals these are. -/
theorem countTotals : Obligations.CountTotals := by
  intro s t bytes hcaps hinput hexec
  have hlt := hinput.length_lt hcaps
  obtain rfl := Host.Outcome.next.inj ((exec_count_of_input hinput).symm.trans hexec)
  obtain ⟨hlen, -, -⟩ := hinput
  rw [completed_freq, setFreq_freq, completed_nsym, ← BitVec.toNat_inj, ← BitVec.toNat_inj, setFreq_nsym_toNat]
  refine ⟨?sum, freqOf_countTable_ne_zero bytes hlt, length_symbolsOf_le _, ?empty⟩
  case sum => rw [sum_freqOf_countTable bytes hlt, hlen]
  case empty =>
    rw [hlen]
    exact length_symbolsOf_countTable_eq_zero bytes hlt

end Sys2Proof.Machine

/-! PROOFS. BUILD (42_tree_builder.md R191 to R195): its two completions, and the tree of a table: the only one, with its counts,
depths and header length. -/

namespace Sys2Proof.Machine

/-! ## The ways BUILD completes (R191) -/

theorem exec_build_of_symbol {s : State} (h : ∃ b, freqOf s.freq b ≠ 0) :
    ∃ t, TreeOf s.freq t ∧
      exec .build s = .next (s.setTree .built t t.ser.length (symbolsOf s.freq).length).completed := by
  obtain ⟨t, htree, hbody⟩ := buildBody_some h
  refine ⟨t, htree, ?_⟩
  rw [length_ser]
  exact exec_of_ok hbody

theorem exec_build_empty {s : State} (h : ∀ b, freqOf s.freq b = 0) :
    exec .build s = .next (s.failed .emptyInput 0) := exec_of_raise (buildBody_none h)

/-- Settles O33: with a symbol the working copy is the state with the table's tree, and with none the rule raises. -/
theorem buildCompletes : Obligations.BuildCompletes := fun _ =>
  ⟨fun _ => mem_symbolsOf, exec_build_of_symbol, exec_build_empty⟩

/-! ## The tree of a table (R193 to R195) -/

section

variable {f : Vector Word 256} {t t' : Node}

theorem TreeOf.mergesTo (h : TreeOf f t) (h2 : 2 ≤ (symbolsOf f).length) :
    MergesTo ((symbolsOf f).map (leafEntry f)) t := by
  rcases h with ⟨b, hb, -⟩ | ⟨-, hm⟩
  · rw [hb, List.length_singleton] at h2
    omega
  · exact hm

theorem TreeOf.eq_wrapper (h : TreeOf f t) (h1 : (symbolsOf f).length = 1) :
    ∃ b, t = .internal (.leaf [b]) .sentinel := by
  rcases h with ⟨b, -, ht⟩ | ⟨h2, -⟩
  · exact ⟨b, ht⟩
  · omega

/-- The merge loop and the wrapper are both functions of the table (R194). -/
theorem TreeOf.unique (h : TreeOf f t) (h' : TreeOf f t') : t' = t := by
  rcases h with ⟨b, hb, rfl⟩ | ⟨h2, hm⟩
  · rcases h' with ⟨c, hc, rfl⟩ | ⟨h2, -⟩
    · obtain rfl : b = c := List.singleton_inj.1 (hb.symm.trans hc)
      rfl
    · rw [hb, List.length_singleton] at h2
      omega
  · exact (h'.mergesTo h2).unique (List.Perm.refl _) hm

theorem TreeOf.length_leaves (h : TreeOf f t) : t.leaves.length = (symbolsOf f).length := by
  rw [h.leaves_perm.length_eq, List.length_map]

theorem TreeOf.plain (h : TreeOf f t) (h2 : 2 ≤ (symbolsOf f).length) : t.plain = true := by
  rcases h.builtShape with ⟨b, rfl⟩ | ⟨hplain, -⟩
  · have hone : 1 = (symbolsOf f).length := h.length_leaves
    omega
  · exact hplain

/-- One Internal node for every merge: the queue starts with none. -/
theorem TreeOf.internals (h : TreeOf f t) (h2 : 2 ≤ (symbolsOf f).length) :
    t.internals + 1 = (symbolsOf f).length := by
  obtain ⟨-, hcount, -⟩ := (h.mergesTo h2).leaves
  simpa [Function.comp_def, leafEntry, Node.internals] using hcount

/-- A path meets an Internal node at every bit, and each of them has leaves on its other side. -/
theorem TreeOf.depth {p : List Bool} {sym : List Byte} (h : TreeOf f t) (h2 : 2 ≤ (symbolsOf f).length)
    (hp : t.follow p = some (.leaf sym)) : 1 ≤ p.length ∧ p.length + 1 ≤ (symbolsOf f).length := by
  refine ⟨(h.builtShape.path_length hp).1, ?_⟩
  rw [← h.length_leaves]
  exact Node.depth_lt_leaves (h.plain h2) hp

theorem TreeOf.hlen (h : TreeOf f t) (h2 : 2 ≤ (symbolsOf f).length) : t.hlen + 1 = 4 * (symbolsOf f).length := by
  rw [Node.plain_hlen (h.plain h2), h.length_leaves]

/-- TREE_LEN holds the header length of the table's tree: at most 1023, it does not wrap. -/
theorem TreeOf.ofNat_hlen_toNat (h : TreeOf f t) : (BitVec.ofNat 32 t.hlen).toNat = t.hlen := by
  have := h.builtShape.hlen_le
  rw [BitVec.toNat_ofNat, Nat.mod_eq_of_lt (by omega)]

end

/-- Settles O34: BUILD stores a tree of the table, and every tree of the table has these properties. -/
theorem builtTreeIsDeterminedAndShaped : Obligations.BuiltTreeIsDeterminedAndShaped := by
  intro s u hsymbol hexec
  obtain ⟨t, htree, hbuild⟩ := exec_build_of_symbol hsymbol
  obtain rfl := Host.Outcome.next.inj (hbuild.symm.trans hexec)
  rw [completed_treeLen, setTree_treeLen, length_ser]
  refine ⟨t, rfl, fun _ => htree.unique, htree.leaves_perm, fun h2 => ?merged, fun h1 => ?wrapped⟩
  case merged =>
    refine ⟨htree.plain h2, htree.internals h2, fun _ _ => htree.depth h2, ?_⟩
    rw [htree.ofNat_hlen_toNat, htree.hlen h2]
  case wrapped =>
    obtain ⟨b, rfl⟩ := htree.eq_wrapper h1
    exact ⟨b, rfl, rfl⟩

end Sys2Proof.Machine

/-! PROOFS. DERIVE (43_code_table.md R210, R211): its two completions, and the code table it leaves, entry by entry. -/

namespace Sys2Proof.Machine

/-! ## The ways DERIVE completes (R211) -/

theorem exec_derive_of_built {s : State} {t : Node} (h : s.tree = some (.built, t)) :
    exec .derive s = .next (s.setCodes (t.codes [])).completed :=
  exec_of_ok (i := .derive) (deriveBody_ok.2 ⟨t, h, rfl⟩)

/-- With no tree and with a Loaded tree alike, the prerequisite is not met. -/
theorem deriveBody_raise {s : State} (h : ∀ t, s.tree ≠ some (.built, t)) : deriveBody s = raise .sequenceError 0 := by
  unfold deriveBody
  split
  · rename_i t htree
    exact absurd htree (h t)
  · rfl
  · rfl

theorem exec_derive_not_built {s : State} (h : ∀ t, s.tree ≠ some (.built, t)) :
    exec .derive s = .next (s.failed .sequenceError 0) := exec_of_raise (i := .derive) (deriveBody_raise h)

/-! ## The entries of the table (R48, R211) -/

@[simp] theorem msbNat_nil (w : Nat) : msbNat w [] = 0 := by cases w <;> rfl

@[simp] theorem codeEntry_nil : codeEntry [] = 0 := by simp [codeEntry]

/-- Past the end of its code a CODE_BITS entry holds zeros. -/
theorem codeEntry_bit_of_length_le {code : List Bool} {j : Nat} (hlen : code.length ≤ j) (hj : j < 256) :
    byteBit (codeByte (codeEntry code) (j / 8)) (j % 8) = false := by
  rw [codeEntry_bit code hj, List.getD_eq_default _ _ hlen]

section

variable {s : State} {t : Node} {b : Byte}

/-- The symbol of a leaf gets the path to it: CODE_LEN does not wrap, for the path has at most 255 bits (00_scope.md R13). -/
theorem Node.builtShape.table_of_path {p : List Bool} (h : t.builtShape) (hl : s.codeLen = lenTable (t.codes []))
    (hb : s.codeBits = entryTable (t.codes [])) (hp : t.follow p = some (.leaf [b])) :
    s.lenOf b = p.length ∧ s.codeOf b = p ∧ s.entryOf b = codeEntry p := by
  obtain ⟨hlen, hcode⟩ := codeOf_of_table hl hb (h.codeFor_length b)
  have hentry := entryOf_of_table hb b
  rw [h.codeFor_path hp] at hlen hcode hentry
  exact ⟨hlen, hcode, hentry⟩

/-- A symbol on no leaf gets the empty code. -/
theorem Node.builtShape.table_of_no_path (h : t.builtShape) (hl : s.codeLen = lenTable (t.codes []))
    (hb : s.codeBits = entryTable (t.codes [])) (hp : ∀ p, t.follow p ≠ some (.leaf [b])) :
    s.lenOf b = 0 ∧ s.entryOf b = 0 := by
  rw [lenOf_of_table hl, entryOf_of_table hb, h.codeFor_nil hp]
  exact ⟨rfl, codeEntry_nil⟩

end

/-- Settles O35: the working copy holds the table of the walk's codes, and on a Built tree's shape these are the leaves' paths. -/
theorem deriveCompletes : Obligations.DeriveCompletes := by
  refine fun s => ⟨fun t htree hshape => ?built, exec_derive_not_built⟩
  refine ⟨_, exec_derive_of_built htree, rfl, fun b p hp => ?coded, fun b => hshape.table_of_no_path rfl rfl⟩
  obtain ⟨hlen, hcode, hentry⟩ := hshape.table_of_path (s := (s.setCodes (t.codes [])).completed) rfl rfl hp
  obtain ⟨hpos, hle⟩ := hshape.path_length hp
  refine ⟨hlen, hpos, hle, hcode, fun j hj hj256 => ?_⟩
  rw [hentry]
  exact codeEntry_bit_of_length_le hj hj256

end Sys2Proof.Machine

/-! PROOFS. The TreeCodec (44_tree_codec.md R221, R222, R235, R236): serializations are self-delimiting, how SERIALIZE completes,
and DESERIALIZE of a serialized node with the copy that a SERIALIZE makes of it. -/

namespace Sys2Proof.Machine

/-! ## Two serializations that begin one byte string (R222) -/

section

variable {r r' : List Byte}

/-- The length byte does not wrap, so it says how many symbol bytes follow. -/
theorem leafEncoding_append_inj {sym sym' : List Byte} (hlen : sym.length ≤ 255) (hlen' : sym'.length ≤ 255)
    (h : (BitVec.ofNat 8 sym.length :: sym) ++ r = (BitVec.ofNat 8 sym'.length :: sym') ++ r') : sym = sym' ∧ r = r' := by
  obtain ⟨hbyte, hbytes⟩ := List.cons.inj h
  have hn := congrArg BitVec.toNat hbyte
  simp only [BitVec.toNat_ofNat] at hn
  exact List.append_inj hbytes (by omega)

theorem Node.wellFormed_leaf {sym : List Byte} (wf : (Node.leaf sym).wellFormed = true) :
    leafOf sym = .leaf sym ∧ sym.length ≤ 255 := by
  obtain ⟨hpos, hle⟩ := of_decide_eq_true wf
  exact ⟨leafOf_of_ne_nil (List.length_pos_iff.1 hpos), hle⟩

theorem Node.wellFormed_internal {left right : Node} :
    (Node.internal left right).wellFormed = true ↔ left.wellFormed = true ∧ right.wellFormed = true := Bool.and_eq_true_iff

theorem leafOf_ser_append_inj_leafOf {sym sym' : List Byte} (hlen : sym.length ≤ 255) (hlen' : sym'.length ≤ 255)
    (h : (leafOf sym).ser ++ r = (leafOf sym').ser ++ r') : leafOf sym = leafOf sym' ∧ r = r' := by
  rw [ser_leafOf, ser_leafOf] at h
  obtain ⟨rfl, rfl⟩ := leafEncoding_append_inj hlen hlen' (List.cons.inj h).2
  exact ⟨rfl, rfl⟩

/-- The tag bytes of a leaf encoding and of an Internal node differ (R131). -/
theorem leafOf_ser_append_ne_internal (sym : List Byte) (left right : Node) :
    (leafOf sym).ser ++ r ≠ (Node.internal left right).ser ++ r' := by
  rw [ser_leafOf]
  exact fun h => absurd (List.cons.inj h).1 (by decide)

/-- A Leaf's or Sentinel's encoding with something behind it begins with no other node's. -/
theorem leafOf_ser_append_inj {sym : List Byte} {t' : Node} (hlen : sym.length ≤ 255) (wf' : t'.wellFormed = true)
    (h : (leafOf sym).ser ++ r = t'.ser ++ r') : leafOf sym = t' ∧ r = r' := by
  cases t' with
  | leaf sym' =>
    obtain ⟨hleaf, hlen'⟩ := Node.wellFormed_leaf wf'
    rw [← hleaf] at h ⊢
    exact leafOf_ser_append_inj_leafOf hlen hlen' h
  | sentinel => exact leafOf_ser_append_inj_leafOf (sym' := []) hlen (Nat.zero_le _) h
  | internal left right => exact absurd h (leafOf_ser_append_ne_internal sym left right)

end

/-- An Internal node's parts are self-delimiting one after the other. -/
theorem Node.ser_append_inj {t t' : Node} {r r' : List Byte} (wf : t.wellFormed = true) (wf' : t'.wellFormed = true)
    (h : t.ser ++ r = t'.ser ++ r') : t = t' ∧ r = r' := by
  induction t generalizing t' r r' with
  | leaf sym =>
    obtain ⟨hleaf, hlen⟩ := Node.wellFormed_leaf wf
    rw [← hleaf] at h ⊢
    exact leafOf_ser_append_inj hlen wf' h
  | sentinel => exact leafOf_ser_append_inj (sym := []) (Nat.zero_le _) wf' h
  | internal left right ihl ihr =>
    cases t' with
    | leaf sym' =>
      rw [← (Node.wellFormed_leaf wf').1] at h
      exact absurd h.symm (leafOf_ser_append_ne_internal sym' left right)
    | sentinel => exact absurd h.symm (leafOf_ser_append_ne_internal [] left right)
    | internal left' right' =>
      obtain ⟨wfl, wfr⟩ := Node.wellFormed_internal.1 wf
      obtain ⟨wfl', wfr'⟩ := Node.wellFormed_internal.1 wf'
      simp only [Node.ser, List.cons_append, List.append_assoc, List.cons.injEq, true_and] at h
      obtain ⟨rfl, hrest⟩ := ihl wfl wfl' h
      obtain ⟨rfl, rfl⟩ := ihr wfr wfr' hrest
      exact ⟨rfl, rfl⟩

/-- Settles O38, by induction on the node. -/
theorem serializationIsSelfDelimiting : Obligations.SerializationIsSelfDelimiting :=
  fun _ _ _ _ => Node.ser_append_inj

/-! ## The ways SERIALIZE completes (R221) -/

section

variable {s : State} {o : Origin} {t : Node}

theorem exec_serialize_of_fits (htree : s.tree = some (o, t)) (hfits : t.ser.length ≤ s.caps.outCap) :
    exec .serialize s =
      .next { s.writeOut 0 t.ser with outLen := BitVec.ofNat 32 t.ser.length : State }.completed := by
  rw [length_ser] at hfits ⊢
  exact exec_of_ok (serializeBody_ok.2 ⟨o, t, htree, hfits, rfl⟩)

theorem exec_serialize_too_long (htree : s.tree = some (o, t)) (hlong : s.caps.outCap < t.ser.length) :
    exec .serialize s = .next (s.failedOut .resourceLimit 0) := by
  apply exec_of_raise
  simp only [ruleOf, serializeBody, htree]
  rw [ensure_neg (Nat.not_le.2 hlong), raise_bind]

theorem exec_serialize_no_tree (htree : s.tree = none) : exec .serialize s = .next (s.failedOut .sequenceError 0) := by
  apply exec_of_raise
  simp only [ruleOf, serializeBody, htree]

end

/-- Settles O37: the three ways SERIALIZE completes. Within the legal capacities OUT_LEN does not wrap. -/
theorem serializeCompletes : Obligations.SerializeCompletes := by
  intro s o t hcaps
  refine ⟨fun htree hfits => ?written, exec_serialize_too_long, exec_serialize_no_tree⟩
  obtain ⟨-, ⟨-, hlegal⟩, -⟩ := hcaps
  refine ⟨_, exec_serialize_of_fits htree hfits, rfl, ?outLen, Memory.writeBytes_holds s.outbuf 0 t.ser, fun i hi => ?kept⟩
  case outLen => exact Nat.mod_eq_of_lt (by omega)
  case kept => exact s.outbuf.read_writeBytes_outside (.inr (by rwa [Nat.zero_add]))

/-! ## DESERIALIZE of a serialized node (R235, R236) -/

theorem exec_deserialize_of_holds {s : State} {t : Node} (hcap : s.inLen.toNat ≤ s.caps.inCap) (wf : t.wellFormed = true)
    (hs : HoldsAt s.inbuf s.inOff.toNat t.ser) (hi : s.inOff.toNat + t.ser.length ≤ s.inLen.toNat)
    (hc : t.ser.length ≤ s.caps.hdrCap) :
    exec .deserialize s =
      .next { s.setTree .loaded t t.ser.length t.leaves.length with
              inOff := BitVec.ofNat 32 (s.inOff.toNat + t.ser.length) : State }.completed := by
  apply exec_of_ok
  rw [length_ser] at hi hc ⊢
  rw [ruleOf, checkInLen_ok hcap, ok_bind]
  exact deserializeBody_ser wf hs hi hc

/-- Two places that hold one byte string read alike. -/
theorem HoldsAt.read_eq {m m' : Memory} {base base' k : Nat} {bytes : List Byte} (h : HoldsAt m base bytes)
    (h' : HoldsAt m' base' bytes) (hk : k < bytes.length) : m.read (base + k) = m'.read (base' + k) :=
  have hb := List.getElem?_eq_getElem hk
  (h k _ hb).trans (h' k _ hb).symm

/-- Settles O39: Parse answers the node whose serialization IN holds, and SERIALIZE writes that serialization again. -/
theorem deserializeCompletes : Obligations.DeserializeCompletes := by
  intro s t _ hcap wf hs hi hc
  refine ⟨_, exec_deserialize_of_holds hcap wf hs hi hc, rfl, fun hfits => ?copied⟩
  refine ⟨_, exec_serialize_of_fits rfl hfits, rfl, fun k hk => ?_⟩
  have hread := (Memory.writeBytes_holds s.outbuf 0 t.ser).read_eq hs hk
  rwa [Nat.zero_add] at hread

end Sys2Proof.Machine

/-! PROOFS. The BitstreamWriter (45_bitstream_writer.md R252): the number eight bits spell, and the bytes of a packed string,
each from its own eight bits. -/

namespace Sys2Proof.Machine

/-! ## The number of a bit string, most significant bit first -/

theorem msbNat_succ (w : Nat) (bits : List Bool) :
    msbNat (w + 1) bits = (bits.getD 0 false).toNat * 2 ^ w + msbNat w bits.tail := by
  cases bits with
  | nil => simp [msbNat]
  | cons b bits => rfl

theorem msbNat_eq_sum (w : Nat) (bits : List Bool) :
    msbNat w bits = ((List.range w).map fun j => (bits.getD j false).toNat * 2 ^ (w - 1 - j)).sum := by
  induction w generalizing bits with
  | zero => rfl
  | succ w ih =>
    rw [msbNat_succ, ih, List.range_succ_eq_map, List.map_cons, List.sum_cons, List.map_map]
    simp [Function.comp_def, Nat.sub_sub, Nat.add_comm 1]

/-! ## The bytes of a packed string -/

theorem getElem?_packBytes {n k : Nat} (bits : List Bool) (hk : k < n) :
    (packBytes n bits)[k]? = some (BitVec.ofNat 8 (msbNat 8 (bits.drop (8 * k)))) := by
  induction n generalizing bits k with
  | zero => omega
  | succ n ih =>
    cases k with
    | zero => rfl
    | succ k => rw [packBytes, List.getElem?_cons_succ, ih _ (by omega), List.drop_drop, Nat.mul_succ, Nat.add_comm]

/-- Settles O45: byte `k` is the number of the eight bits from bit `8 * k` on. -/
theorem packedBitsAreMsbFirst : Obligations.PackedBitsAreMsbFirst := by
  intro bits
  refine ⟨length_packed bits, fun k hk => ?byte⟩
  rw [packed, getElem?_packBytes bits hk, msbNat_eq_sum]
  simp only [List.getD_eq_getElem?_getD, List.getElem?_drop, Nat.add_one_sub_one]

end Sys2Proof.Machine

/-! PROOFS. The round trip of the entry points (47_entry_points.md R290 to R298): what a successful COMPRESS leaves in OUT,
DECOMPRESS of a header, a count and bits that spell paths to leaves, and DECOMPRESS of an artifact. -/

namespace Sys2Proof.Machine

/-! ## A success on a written input (R165, R318) -/

/-- Every byte of a command's input is written, so no read of it sets the fault mark. -/
theorem State.HasInput.read_ne_none {s : State} {bytes : List Byte} {k : Nat} (h : s.HasInput bytes)
    (hk : k < s.inLen.toNat) : s.inbuf.read k ≠ none := by
  obtain ⟨hlen, -, hholds⟩ := h
  have hread := hholds k _ (List.getElem?_eq_getElem (by omega))
  rw [Nat.zero_add] at hread
  simp [hread]

/-- ERRCODE 0 after a command on a written input means that its rule answered: an error has a code of its own, and only an
unwritten byte sets the fault mark. -/
theorem ruleOf_ok_of_errcode_eq_zero {i : Instr} {s u : State} {bytes : List Byte} (hinput : s.HasInput bytes)
    (hexec : exec i s = .next u) (herr : u.errcode = 0) : ∃ v, ruleOf i s = .ok v ∧ u = v.completed := by
  rcases exec_cases hexec with hok | ⟨e, p, -, rfl⟩ | ⟨k, hfault, -⟩
  · exact hok
  · cases hout : isOutput i <;> rw [hout] at herr <;> exact absurd herr e.code_ne_zero
  · obtain ⟨hk, hread⟩ := ruleOf_fault hfault
    exact absurd hread (hinput.read_ne_none hk)

/-! ## What COMPRESS leaves in OUT (R292) -/

theorem length_artifactOf (t : Node) (bytes : List Byte) :
    (artifactOf t bytes).length = t.ser.length + 4 + ceil8 (bytes.flatMap (codeFor (t.codes []))).length := by
  rw [artifactOf, List.length_append, List.length_append, length_be32, length_packed]

/-- OUT_LEN counts the artifact's bytes: within the legal capacities it does not wrap. -/
theorem exec_compress_leaves_artifact {s c : State} {bytes : List Byte} (hcaps : s.CapsLegal) (hinput : s.HasInput bytes)
    (hexec : exec .compress s = .next c) (herr : c.errcode = 0) :
    ∃ t, TreeOf (countTable bytes) t ∧ c.outLen.toNat = (artifactOf t bytes).length ∧
      HoldsAt c.outbuf 0 (artifactOf t bytes) := by
  obtain ⟨v, hrule, rfl⟩ := ruleOf_ok_of_errcode_eq_zero hinput hexec herr
  obtain ⟨bytes', t, ⟨hlen', -, hholds'⟩, -, htree, hfits, rfl⟩ := compressRule_answer hrule
  obtain ⟨hlen, -, hholds⟩ := hinput
  obtain rfl : bytes' = bytes := hholds'.unique hholds (hlen'.symm.trans hlen)
  obtain ⟨-, ⟨-, hlegal⟩, -⟩ := hcaps
  exact ⟨t, htree, Nat.mod_eq_of_lt (by omega), Memory.writeBytes_holds _ _ _⟩

/-! ## DECOMPRESS of a header and a stream that spells symbols (R295, R296) -/

theorem State.HasHeader.parseTree_eq {s : State} {t : Node} (h : s.HasHeader t) :
    parseTree s 0 = .ok (t, t.ser.length) := by
  obtain ⟨wf, hcap, hholds, hin⟩ := h
  rw [length_ser] at hcap hin ⊢
  have hparse := parseNode_ser (base := 0) wf hholds (le_refl _) (by omega) (by omega) (s.caps.hdrCap + 1) (by omega)
  rwa [Nat.zero_add] at hparse

theorem decompressRule_spells {s : State} {t : Node} {n : Word} {paths : List (List Bool)} {syms : List (List Byte)}
    (hcap : s.inLen.toNat ≤ s.caps.inCap) (hheader : s.HasHeader t) (hcount : HoldsAt s.inbuf t.ser.length (be32 n))
    (hn : paths.length = n.toNat) (hspells : Spells t paths syms)
    (hbits : HasBits s.inbuf (t.ser.length + 4) paths.flatten)
    (hin : t.ser.length + 4 + ceil8 paths.flatten.length ≤ s.inLen.toNat)
    (hout : syms.flatten.length ≤ s.caps.outCap) :
    decompressRule s = .ok { s.clearCodes with
            tree := some (.loaded, t)
            treeLen := BitVec.ofNat 32 t.ser.length
            nsym := BitVec.ofNat 32 t.leaves.length
            outbuf := s.outbuf.writeBytes 0 syms.flatten
            outLen := BitVec.ofNat 32 syms.flatten.length
            symcount := n
            payloadLen := BitVec.ofNat 32 (ceil8 paths.flatten.length)
            inOff := BitVec.ofNat 32 (t.ser.length + 4 + ceil8 paths.flatten.length) } := by
  have hread := readCount_of_holds hcount (by omega)
  have hwalk := walkTree_spells hspells hbits (by unfold ceil8 at hin; omega) hout
  rw [hn] at hwalk
  simp only [decompressRule_eq, checkInLen_ok hcap, hheader.parseTree_eq, ok_bind, hread, hwalk, Node.leafCount_eq]

/-! ## DECOMPRESS of an artifact (R298) -/

/-- A copy of the bytes a buffer holds from index 0 is held there too (R298: "the copy is the host's job"). -/
theorem HoldsAt.of_read_eq {m m' : Memory} {bytes : List Byte} (h : HoldsAt m 0 bytes)
    (hcopy : ∀ i, i < bytes.length → m'.read i = m.read i) : HoldsAt m' 0 bytes := by
  intro k b hk
  have hread := h k b hk
  rw [Nat.zero_add] at hread ⊢
  rw [hcopy k (List.getElem?_eq_some_iff.1 hk).1, hread]

/-- The codes of the artifact's payload are paths of its tree that spell the bytes, so DECOMPRESS writes the bytes back. -/
theorem exec_decompress_artifact {s : State} {t : Node} {bytes : List Byte} (hcaps : s.CapsLegal)
    (htree : TreeOf (countTable bytes) t) (hlt : bytes.length < 2 ^ 32) (hinput : s.HasInput (artifactOf t bytes))
    (hout : bytes.length ≤ s.caps.outCap) :
    ∃ u, exec .decompress s = .next u ∧ u.errcode = 0 ∧ u.fault = s.fault ∧ u.outLen = BitVec.ofNat 32 bytes.length ∧
      u.outbuf = s.outbuf.writeBytes 0 bytes := by
  have hcap := hinput.bound
  obtain ⟨hlen, -, hholds⟩ := hinput
  obtain ⟨-, -, ⟨hhdr, -⟩⟩ := hcaps
  have hflat : (bytes.map (codeFor (t.codes []))).flatten = bytes.flatMap (codeFor (t.codes [])) := List.flatMap_def.symm
  rw [length_artifactOf, ← hflat] at hlen
  rw [artifactOf, ← hflat, HoldsAt.append, HoldsAt.append, List.length_append, length_be32, Nat.zero_add,
    Nat.zero_add] at hholds
  obtain ⟨⟨hser, hcount⟩, hpacked⟩ := hholds
  have hle := htree.builtShape.hlen_le
  rw [← length_ser] at hle
  have hheader : s.HasHeader t := ⟨htree.builtShape.wellFormed, by omega, hser, by omega⟩
  have hn : (bytes.map (codeFor (t.codes []))).length = (BitVec.ofNat 32 bytes.length).toNat := by
    rw [List.length_map, BitVec.toNat_ofNat, Nat.mod_eq_of_lt hlt]
  have hrule := decompressRule_spells hcap hheader hcount hn (htree.spells hlt) hpacked.hasBits hlen.ge
    (by rwa [flatten_singletons])
  rw [flatten_singletons] at hrule
  exact ⟨_, exec_of_ok (i := .decompress) hrule, rfl, rfl, rfl, rfl⟩

/-- Settles O53: OUT after COMPRESS holds the artifact of the input, and DECOMPRESS of the copy writes the input back. -/
theorem decompressOfCompressIsTheInput : Obligations.DecompressOfCompressIsTheInput := by
  intro s c d bytes hcaps hcaps' hinput _ hexec herr hlen hcap hcopy hout
  obtain ⟨t, htree, hart, hholds⟩ := exec_compress_leaves_artifact hcaps hinput hexec herr
  rw [hart] at hcap hcopy
  have hinput' : d.HasInput (artifactOf t bytes) := ⟨by rw [hlen, hart], hcap, hholds.of_read_eq hcopy⟩
  obtain ⟨u, hdec, hok, hfault, houtLen, houtbuf⟩ :=
    exec_decompress_artifact hcaps' htree (hinput.length_lt hcaps) hinput' hout
  refine ⟨u, hdec, hok, hfault, ?outLen, ?outbuf⟩
  case outLen => rw [houtLen, BitVec.toNat_ofNat, Nat.mod_eq_of_lt (hinput.length_lt hcaps)]
  case outbuf => rw [houtbuf]; exact Memory.writeBytes_holds _ _ _

end Sys2Proof.Machine

/-! PROOFS. The host's writes while Busy (70_reset_and_hazards.md R351): the target of an address says what its write does. -/

namespace Sys2Proof.Machine

/-- A command's input ignores the write while Busy and sets BUSYWR. -/
theorem hostStep_write_input_of_busy {s : State} {u addr : Word} {n : Nat} (hbusy : s.seq = .busy u)
    (haccess : InputAccess s.caps addr n) (v : Word) : hostStep (.write addr n v) s = { s with busywr := true } := by
  obtain ⟨t, ht, hwrite⟩ := target_input haccess
  rw [hostWrite_of_target ht, hwrite s v (busy_of_busy hbusy)]

/-- A read-only register ignores every write, Idle or Busy (R31). -/
theorem hostStep_write_readOnlyReg {addr : Word} (h : ReadOnlyReg addr) (s : State) (v : Word) :
    hostStep (.write addr 4 v) s = s := by
  obtain ⟨r, hr, hignore⟩ := target_readOnlyReg (c := s.caps) h
  rw [hostWrite_of_target hr, State.writeTarget, hignore]

/-- Settles O9: an input's target, a read-only register and no target at all are the three cases. -/
theorem inputWritesWhileBusyAreLost : Obligations.InputWritesWhileBusyAreLost :=
  fun s _ _ v _ _ hbusy =>
    ⟨fun haccess => hostStep_write_input_of_busy hbusy haccess v, fun hro => hostStep_write_readOnlyReg hro s v,
      hostWrite_illegal⟩

end Sys2Proof.Machine

/-! PROOFS. What every step keeps (10_state.md R33, R41, R43, R48 to R54; 40_command_protocol.md R161; 60_exceptions.md
R318): one lemma from the parts of a step to the step, and the invariants it gives. -/

namespace Sys2Proof.Machine

/-! ## From the parts of a step to the step -/

/-- A property that each thing a step can be keeps: a turn taken off the agenda, a host transaction, a reset, and the three
ways a completion ends (R90, R162). -/
structure KeptByParts (P : State → Prop) : Prop where
  agenda    : ∀ s rest, P s → P { s with agenda := rest }
  host      : ∀ x s, P s → P (hostStep x s)
  reset     : ∀ s, P s → P (resetEvent s)
  success   : ∀ i s u, P s → ruleOf i s = .ok u → P u.completed
  failed    : ∀ s e p, P s → P (s.failed e p)
  failedOut : ∀ s e p, P s → P (s.failedOut e p)
  faulted   : ∀ s k, P s → P (s.faulted k)

theorem KeptByParts.exec {P : State → Prop} (h : KeptByParts P) {i : Instr} {s t : State} (hs : P s)
    (hexec : exec i s = .next t) : P t := by
  rcases exec_cases hexec with ⟨u, hu, rfl⟩ | ⟨e, p, -, rfl⟩ | ⟨k, -, rfl⟩
  · exact h.success i s u hs hu
  · cases isOutput i
    · exact h.failed s e p hs
    · exact h.failedOut s e p hs
  · exact h.faulted s k hs

theorem KeptByParts.step {P : State → Prop} (h : KeptByParts P) {s t : State} (hs : P s) (hstep : step s = .next t) :
    P t := by
  obtain ⟨rest, hcases⟩ := step_cases hstep
  have hs' := h.agenda s rest hs
  rcases hcases with rfl | ⟨x, rfl⟩ | rfl | ⟨w, -, ⟨i, -, hexec⟩ | rfl⟩
  · exact hs'
  · exact h.host x _ hs'
  · exact h.reset _ hs'
  · exact h.exec hs' hexec
  · exact h.failed { s with agenda := rest } .illegalCommand 0 hs'

/-! ## The tree store (R43, R50 to R52) -/

theorem State.TreeInv.of_eq {s t : State} (h : s.TreeInv) (htree : t.tree = s.tree) (hlen : t.treeLen = s.treeLen) :
    t.TreeInv := by
  unfold State.TreeInv at h ⊢
  rw [htree, hlen]
  exact h

theorem State.TreeInv.of_none {s : State} (htree : s.tree = none) (hlen : s.treeLen = 0) : s.TreeInv := by
  unfold State.TreeInv
  rw [htree]
  exact hlen

theorem State.TreeInv.of_built {s : State} {t : Node} (htree : s.tree = some (.built, t))
    (hlen : s.treeLen.toNat = t.ser.length) (hshape : t.builtShape) : s.TreeInv := by
  unfold State.TreeInv
  rw [htree]
  exact ⟨hlen, hshape⟩

theorem State.TreeInv.of_loaded {s : State} {t : Node} (htree : s.tree = some (.loaded, t))
    (hlen : s.treeLen.toNat = t.ser.length) (wf : t.wellFormed = true) : s.TreeInv := by
  unfold State.TreeInv
  rw [htree]
  exact ⟨hlen, wf⟩

/-- TREE_LEN does not wrap: a Built tree's header has at most 1023 bytes, a Loaded one's at most HDR_CAP. -/
theorem State.TreeInv.of_success {i : Instr} {s u : State} (hcaps : s.CapsLegal) (h : s.TreeInv)
    (hrule : ruleOf i s = .ok u) : u.completed.TreeInv := by
  obtain ⟨-, -, ⟨-, hhdr⟩⟩ := hcaps
  rcases ruleOf_tree hrule with ⟨htree, hlen⟩ | ⟨htree, hlen⟩ | ⟨t, htree, hlen, hshape⟩ | ⟨t, htree, hlen, wf, hle⟩
  · exact h.of_eq htree hlen
  · exact .of_none htree hlen
  · have := hshape.hlen_le
    refine .of_built htree ?_ hshape
    rw [completed_treeLen, hlen, length_ser, BitVec.toNat_ofNat, Nat.mod_eq_of_lt (by omega)]
  · refine .of_loaded htree ?_ wf
    rw [completed_treeLen, hlen, length_ser, BitVec.toNat_ofNat, Nat.mod_eq_of_lt (by omega)]

theorem State.CapsLegal.of_eq {s t : State} (h : s.CapsLegal) (hcaps : t.caps = s.caps) : t.CapsLegal := by
  unfold State.CapsLegal
  rwa [hcaps]

theorem hostStep_caps (x : Txn) (s : State) : (hostStep x s).caps = s.caps := by
  obtain ⟨hcaps, -⟩ := hostStep_frame x s
  exact hcaps

theorem ruleOf_caps {i : Instr} {s u : State} (h : ruleOf i s = .ok u) : u.caps = s.caps := by
  obtain ⟨-, hcaps, -⟩ := ruleOf_host h
  exact hcaps

theorem completed_caps_of_ruleOf {i : Instr} {s u : State} (h : ruleOf i s = .ok u) : u.completed.caps = s.caps := by
  rw [completed_caps, ruleOf_caps h]

theorem keptByParts_treeInv : KeptByParts fun s => s.CapsLegal ∧ s.TreeInv where
  agenda _ _ h := h
  host x s h := by
    obtain ⟨hcaps, -, -, htree, hlen, -⟩ := hostStep_frame x s
    exact ⟨h.1.of_eq hcaps, h.2.of_eq htree hlen⟩
  reset _ h := ⟨h.1, rfl⟩
  success _ _ _ h hrule := ⟨h.1.of_eq (completed_caps_of_ruleOf hrule), h.2.of_success h.1 hrule⟩
  failed _ _ _ h := h
  failedOut _ _ _ h := h
  faulted _ _ h := h

/-- Settles O59: only a success stores a tree, of its origin's shape and with its own length. -/
theorem stepKeepsTreeAndItsLength : Obligations.StepKeepsTreeAndItsLength :=
  fun _ _ hcaps htree hstep => (keptByParts_treeInv.step ⟨hcaps, htree⟩ hstep).2

/-! ## The code table (R47 to R49) -/

theorem State.CodesInv.of_eq {s t : State} (h : s.CodesInv) (htree : t.tree = s.tree)
    (hvalid : t.codesValid = s.codesValid) (hlen : t.codeLen = s.codeLen) (hbits : t.codeBits = s.codeBits) :
    t.CodesInv := by
  unfold State.CodesInv at h ⊢
  rw [htree, hvalid, hlen, hbits]
  exact h

theorem State.CodesInv.of_cleared {t : State} (hvalid : t.codesValid = false) (hlen : t.codeLen = Vector.replicate 256 0)
    (hbits : t.codeBits = Vector.replicate 256 0) : t.CodesInv := by
  unfold State.CodesInv
  rw [hvalid]
  exact ⟨hlen, hbits⟩

theorem State.CodesInv.of_built {u : State} {t : Node} (htree : u.tree = some (.built, t)) (hvalid : u.codesValid = true)
    (hlen : u.codeLen = lenTable (t.codes [])) (hbits : u.codeBits = entryTable (t.codes [])) : u.CodesInv := by
  unfold State.CodesInv
  rw [if_pos hvalid]
  exact ⟨t, htree, hlen, hbits⟩

theorem keptByParts_codesInv : KeptByParts State.CodesInv where
  agenda _ _ h := h
  host x s h := by
    obtain ⟨-, -, -, htree, -, hvalid, hlen, hbits, -⟩ := hostStep_frame x s
    exact h.of_eq htree hvalid hlen hbits
  reset _ _ := .of_cleared rfl rfl rfl
  success _ s u h hrule := by
    rcases ruleOf_codes hrule with ⟨htree, hvalid, hlen, hbits⟩ | ⟨hvalid, hlen, hbits⟩ | ⟨t, htree, hvalid, hlen, hbits⟩
    · exact h.of_eq htree hvalid hlen hbits
    · exact .of_cleared hvalid hlen hbits
    · exact .of_built htree hvalid hlen hbits
  failed _ _ _ h := h
  failedOut _ _ _ h := h
  faulted _ _ h := h

/-- Settles O60: a success keeps tree and table together, clears the table, or stores the Built tree's. -/
theorem stepKeepsCodesMatchingTheTree : Obligations.StepKeepsCodesMatchingTheTree :=
  fun _ _ hcodes hstep => keptByParts_codesInv.step hcodes hstep

/-! ## The buffers (R54) -/

/-- A buffer in canonical form with every index below `cap`. -/
def Memory.Canonical (cap : Nat) (m : Memory) : Prop := m.wf ∧ ∀ c ∈ m, c.1 < cap

theorem Memory.Canonical.nil (cap : Nat) : Memory.Canonical cap [] := ⟨.nil, fun _ h => absurd h List.not_mem_nil⟩

theorem Memory.Canonical.write {cap i : Nat} {m : Memory} (h : Memory.Canonical cap m) (hi : i < cap) (b : Byte) :
    Memory.Canonical cap (m.write i b) := by
  refine ⟨Memory.wf_write h.1 i b, fun c hc => ?_⟩
  rcases Memory.mem_write hc with rfl | hc
  · exact hi
  · exact h.2 c hc

theorem Memory.Canonical.writeBytes {cap base : Nat} {m : Memory} {bs : List Byte} (h : Memory.Canonical cap m)
    (hfits : base + bs.length ≤ cap) : Memory.Canonical cap (m.writeBytes base bs) := by
  refine ⟨Memory.wf_writeBytes h.1 base bs, fun c hc => ?_⟩
  rcases Memory.mem_writeBytes hc with hc | ⟨-, hlt⟩
  · exact h.2 c hc
  · omega

theorem State.buffersInv_iff {s : State} :
    s.BuffersInv ↔ Memory.Canonical s.caps.inCap s.inbuf ∧ Memory.Canonical s.caps.outCap s.outbuf := by
  unfold State.BuffersInv Memory.Canonical
  tauto

theorem State.BuffersInv.of_success {i : Instr} {s u : State} (h : s.BuffersInv) (hrule : ruleOf i s = .ok u) :
    u.completed.BuffersInv := by
  rw [State.buffersInv_iff] at h ⊢
  obtain ⟨hin, hout⟩ := ruleOf_out hrule
  rw [completed_caps_of_ruleOf hrule, completed_inbuf, completed_outbuf, hin]
  refine ⟨h.1, ?_⟩
  rcases hout with ⟨hout, -⟩ | ⟨base, bs, -, hout, hfits, -⟩ <;> rw [hout]
  · exact h.2
  · exact h.2.writeBytes hfits

theorem State.BuffersInv.hostStep {s : State} (h : s.BuffersInv) (x : Txn) : (hostStep x s).BuffersInv := by
  rw [State.buffersInv_iff] at h ⊢
  obtain ⟨hcaps, hout, -, -, -, -, -, -, hin⟩ := hostStep_frame x s
  rw [hcaps, hout]
  refine ⟨?_, h.2⟩
  rcases hin with hin | ⟨i, v, hi, hin⟩ <;> rw [hin]
  · exact h.1
  · exact h.1.write hi v

theorem keptByParts_buffersInv : KeptByParts fun s => s.CapsLegal ∧ s.BuffersInv where
  agenda _ _ h := h
  host x s h := ⟨h.1.of_eq (hostStep_caps x s), h.2.hostStep x⟩
  reset _ h := ⟨h.1, State.buffersInv_iff.2 ⟨.nil _, .nil _⟩⟩
  success _ _ _ h hrule := ⟨h.1.of_eq (completed_caps_of_ruleOf hrule), h.2.of_success hrule⟩
  failed _ _ _ h := h
  failedOut _ _ _ h := h
  faulted _ _ h := h

/-- Settles O56: a host write reaches IN below IN_CAP alone, and a command writes one stretch of OUT within OUT_CAP. -/
theorem stepKeepsTheBuffersCanonical : Obligations.StepKeepsTheBuffersCanonical :=
  fun _ _ hcaps hbuf hstep => keptByParts_buffersInv.step ⟨hcaps, hbuf⟩ hstep

/-! ## OUT_LEN (R41) -/

theorem State.OutInv.of_eq {s t : State} (h : s.OutInv) (hcaps : t.caps = s.caps) (hout : t.outbuf = s.outbuf)
    (hlen : t.outLen = s.outLen) : t.OutInv := by
  unfold State.OutInv at h ⊢
  rw [hcaps, hout, hlen]
  exact h

theorem State.OutInv.of_outLen_zero {s : State} (h : s.outLen = 0) : s.OutInv := by
  unfold State.OutInv
  rw [h]
  exact ⟨Nat.zero_le _, fun _ hi => absurd hi (Nat.not_lt_zero _)⟩

/-- Every index below the end of a stretch of writes is written when those below its start were. -/
theorem Memory.isSome_read_writeBytes {m : Memory} {base i : Nat} {bs : List Byte}
    (h : ∀ j, j < base → (m.read j).isSome = true) (hi : i < base + bs.length) :
    ((m.writeBytes base bs).read i).isSome = true := by
  rw [Memory.read_writeBytes]
  split_ifs with hin
  · rw [List.getElem?_eq_getElem (by omega)]
    rfl
  · exact h i (by omega)

theorem State.OutInv.of_success {i : Instr} {s u : State} (hcaps : s.CapsLegal) (h : s.OutInv)
    (hrule : ruleOf i s = .ok u) : u.completed.OutInv := by
  obtain ⟨-, ⟨-, hlegal⟩, -⟩ := hcaps
  obtain ⟨-, ⟨hout, hlen | hlen⟩ | ⟨base, bs, hbase, hout, hfits, hlen⟩⟩ := ruleOf_out hrule
  · exact h.of_eq (completed_caps_of_ruleOf hrule) hout hlen
  · exact .of_outLen_zero hlen
  · have hnat : u.completed.outLen.toNat = base + bs.length := by
      rw [completed_outLen, hlen, BitVec.toNat_ofNat, Nat.mod_eq_of_lt (by omega)]
    unfold State.OutInv
    rw [hnat, completed_caps_of_ruleOf hrule, completed_outbuf, hout]
    refine ⟨hfits, fun i => Memory.isSome_read_writeBytes fun j hj => ?_⟩
    rcases hbase with rfl | rfl
    · exact absurd hj (Nat.not_lt_zero _)
    · exact h.2 j hj

theorem keptByParts_outInv : KeptByParts fun s => s.CapsLegal ∧ s.OutInv where
  agenda _ _ h := h
  host x s h := by
    obtain ⟨hcaps, hout, hlen, -⟩ := hostStep_frame x s
    exact ⟨h.1.of_eq hcaps, h.2.of_eq hcaps hout hlen⟩
  reset _ h := ⟨h.1, .of_outLen_zero rfl⟩
  success _ _ _ h hrule := ⟨h.1.of_eq (completed_caps_of_ruleOf hrule), h.2.of_success h.1 hrule⟩
  failed _ _ _ h := h
  failedOut _ _ _ h := ⟨h.1, .of_outLen_zero rfl⟩
  faulted _ _ h := h

/-- Settles O58: a success names the end of the stretch it wrote, and the failures of the output commands name 0. -/
theorem stepKeepsOutLenValid : Obligations.StepKeepsOutLenValid :=
  fun _ _ hcaps hout hstep => (keptByParts_outInv.step ⟨hcaps, hout⟩ hstep).2

/-! ## The host's transactions and the fault mark (20_memory.md R83, R88) -/

/-- A read that reaches a target, stored value or draw, changes the model's record of reads alone. -/
theorem hostRead_of_target {addr : Word} {n : Nat} {s : State} {t : Target} (h : target s.caps addr n = some t) :
    ∃ r k, hostStep (.read addr n) s = { s with rdata := r, draws := k } := by
  cases hb : s.busy && t.isResult with
  | true => exact ⟨_, _, hostRead_draws h (.inl hb)⟩
  | false =>
    cases hv : s.stored t with
    | none => exact ⟨_, _, hostRead_draws h (.inr hv)⟩
    | some v => exact ⟨_, _, hostRead_stored h hb hv⟩

theorem hostRead_shape (addr : Word) (n : Nat) (s : State) :
    ∃ r b k, hostStep (.read addr n) s = { s with rdata := r, berr := b, draws := k } := by
  cases ht : target s.caps addr n with
  | none => exact ⟨_, _, _, hostRead_illegal (target_eq_none_iff.1 ht)⟩
  | some t =>
    obtain ⟨r, k, hread⟩ := hostRead_of_target ht
    exact ⟨r, _, k, hread⟩

/-- `u` differs from `s` at most in the fields a host write can change. -/
def WriteShape (s u : State) : Prop :=
  ∃ ie cmd sq dn ec ep be bw il io fr ib, u =
    { s with
      ctrlIe := ie, cmd := cmd, seq := sq, done := dn, errcode := ec, errpos := ep, berr := be, busywr := bw
      inLen := il, inOff := io, freq := fr, inbuf := ib }

theorem WriteShape.refl (s : State) : WriteShape s s := ⟨_, _, _, _, _, _, _, _, _, _, _, _, rfl⟩

theorem WriteShape.inputWrite {s s' : State} (h : WriteShape s s') : WriteShape s (s.inputWrite s') := by
  unfold State.inputWrite
  split
  · exact ⟨_, _, _, _, _, _, _, _, _, _, _, _, rfl⟩
  · exact h

theorem writeTarget_shape (s : State) (v : Word) (t : Target) : WriteShape s (s.writeTarget v t) := by
  cases t with
  | reg r =>
    cases r with
    | ctrl | status => exact ⟨_, _, _, _, _, _, _, _, _, _, _, _, rfl⟩
    | cmd | inLen | inOff => exact WriteShape.inputWrite ⟨_, _, _, _, _, _, _, _, _, _, _, _, rfl⟩
    | _ => exact .refl s
  | freq | inByte => exact WriteShape.inputWrite ⟨_, _, _, _, _, _, _, _, _, _, _, _, rfl⟩
  | codeLen | codeBits | outByte => exact .refl s

theorem hostWrite_shape (addr : Word) (n : Nat) (v : Word) (s : State) :
    WriteShape s (hostStep (.write addr n v) s) := by
  cases ht : target s.caps addr n with
  | none =>
    rw [hostWrite_illegal (target_eq_none_iff.1 ht)]
    exact ⟨_, _, _, _, _, _, _, _, _, _, _, _, rfl⟩
  | some t =>
    rw [hostWrite_of_target ht]
    exact writeTarget_shape s v t

/-- Settles O18, target by target. -/
theorem hostTransactionsNeverWriteResults : Obligations.HostTransactionsNeverWriteResults :=
  fun s addr v n => ⟨hostRead_shape addr n s, hostWrite_shape addr n v s⟩

theorem hostStep_fault (x : Txn) (s : State) : (hostStep x s).fault = s.fault := by
  cases x with
  | read addr n =>
    obtain ⟨r, b, k, hread⟩ := hostRead_shape addr n s
    rw [hread]
  | write addr n v =>
    obtain ⟨ie, cmd, sq, dn, ec, ep, be, bw, il, io, fr, ib, hwrite⟩ := hostWrite_shape addr n v s
    rw [hwrite]

theorem ruleOf_fault_eq {i : Instr} {s u : State} (h : ruleOf i s = .ok u) : u.fault = s.fault := by
  obtain ⟨-, -, hfault, -⟩ := ruleOf_host h
  exact hfault

theorem keptByParts_caps_fault (c : Config.Caps) (marked : Prop) :
    KeptByParts fun s => s.caps = c ∧ (marked → s.fault ≠ none) where
  agenda _ _ h := h
  host x s h := by rwa [hostStep_caps, hostStep_fault]
  reset _ h := h
  success _ _ _ h hrule := by rwa [completed_caps, completed_fault, ruleOf_caps hrule, ruleOf_fault_eq hrule]
  failed _ _ _ h := h
  failedOut _ _ _ h := h
  faulted _ _ h := ⟨h.1, fun _ => Option.some_ne_none _⟩

/-- Settles O21: no part of a step writes a capacity, and only a fault writes the mark, to set it. -/
theorem stepKeepsCapacitiesAndFaultMark : Obligations.StepKeepsCapacitiesAndFaultMark :=
  fun s _ hstep => (keptByParts_caps_fault s.caps (s.fault ≠ none)).step ⟨rfl, id⟩ hstep

/-! ## The sequencer and the completion fields (R38, R120, R161) -/

/-- A host transaction issues a word while Idle, or leaves the command protocol alone but for clearing DONE. -/
def KeepsProtocol (s u : State) : Prop :=
  u.seq = s.seq ∧ u.cmd = s.cmd ∧ u.errcode = s.errcode ∧ u.errpos = s.errpos ∧ (s.done = false → u.done = false)

theorem KeepsProtocol.refl (s : State) : KeepsProtocol s s := ⟨rfl, rfl, rfl, rfl, id⟩

theorem KeepsProtocol.inputWrite {s s' : State} (h : KeepsProtocol s s') : KeepsProtocol s (s.inputWrite s') := by
  unfold State.inputWrite
  split
  · exact .refl s
  · exact h

theorem writeTarget_protocol (s : State) (v : Word) (t : Target) :
    (s.seq = .idle ∧ s.writeTarget v t = issue v s) ∨ KeepsProtocol s (s.writeTarget v t) := by
  cases t with
  | reg r =>
    cases r with
    | cmd =>
      cases hseq : s.seq with
      | idle => exact .inl ⟨rfl, inputWrite_of_idle hseq _⟩
      | busy w =>
        right
        rw [State.writeTarget, State.writeReg, inputWrite_of_busy hseq]
        exact .refl s
    | status => exact .inr ⟨rfl, rfl, rfl, rfl, fun h => by simp [State.writeTarget, State.writeReg, h]⟩
    | inLen | inOff => exact .inr (KeepsProtocol.inputWrite (.refl s))
    | _ => exact .inr (.refl s)
  | freq | inByte => exact .inr (KeepsProtocol.inputWrite (.refl s))
  | codeLen | codeBits | outByte => exact .inr (.refl s)

theorem hostStep_protocol (x : Txn) (s : State) :
    (∃ w, s.seq = .idle ∧ hostStep x s = issue w s) ∨ KeepsProtocol s (hostStep x s) := by
  cases x with
  | read addr n =>
    obtain ⟨r, b, k, hread⟩ := hostRead_shape addr n s
    rw [hread]
    exact .inr (.refl s)
  | write addr n v =>
    cases ht : target s.caps addr n with
    | none =>
      rw [hostWrite_illegal (target_eq_none_iff.1 ht)]
      exact .inr (.refl s)
    | some t =>
      rw [hostWrite_of_target ht]
      exact (writeTarget_protocol s v t).imp_left fun h => ⟨v, h⟩

theorem State.ProtocolInv.hostStep {s : State} (h : s.ProtocolInv) (x : Txn) : (hostStep x s).ProtocolInv := by
  rcases hostStep_protocol x s with ⟨w, -, hissue⟩ | ⟨hseq, hcmd, hcode, hpos, hdone⟩
  · rw [hissue]
    exact ⟨fun _ hw => ⟨Seq.busy.inj hw, rfl, rfl, rfl⟩, Nat.zero_le _, fun _ => rfl⟩
  · obtain ⟨hbusy, hle, hzero⟩ := h
    unfold State.ProtocolInv
    rw [hseq, hcmd, hcode, hpos]
    refine ⟨fun w hw => ?_, hle, hzero⟩
    obtain ⟨h1, h2, h3⟩ := hbusy w hw
    exact ⟨h1, hdone h2, h3⟩

/-- An Idle sequencer agrees with every completion field. -/
theorem State.ProtocolInv.of_idle {s : State} (hidle : s.seq = .idle) (hle : s.errcode.toNat ≤ 8)
    (hpos : s.errcode = 0 → s.errpos = 0) : s.ProtocolInv :=
  ⟨fun _ hw => by rw [hidle] at hw; exact Seq.noConfusion hw, hle, hpos⟩

theorem keptByParts_protocolInv : KeptByParts State.ProtocolInv where
  agenda _ _ h := h
  host x _ h := h.hostStep x
  reset _ _ := .of_idle rfl (Nat.zero_le _) fun _ => rfl
  success _ _ _ _ _ := .of_idle rfl (Nat.zero_le _) fun _ => rfl
  failed _ e _ _ := .of_idle rfl e.code_le fun h => absurd h e.code_ne_zero
  failedOut _ e _ _ := .of_idle rfl e.code_le fun h => absurd h e.code_ne_zero
  faulted _ _ h := .of_idle rfl h.2.1 h.2.2

/-- Settles O57: an issue step makes the fields agree, and everything else that moves them ends Idle. -/
theorem stepKeepsTheProtocol : Obligations.StepKeepsTheProtocol :=
  fun _ _ hproto hstep => keptByParts_protocolInv.step hproto hstep

/-! ## Power-on (R58) -/

theorem resetOf_inv {c : Config.Caps} (hc : c.Legal) : (State.resetOf c).Inv where
  caps := hc
  buffers := State.buffersInv_iff.2 ⟨.nil _, .nil _⟩
  protocol := .of_idle rfl (Nat.zero_le _) fun _ => rfl
  out := .of_outLen_zero rfl
  tree := rfl
  codes := .of_cleared rfl rfl rfl

/-- Settles O55: each invariant holds of an empty block. -/
theorem powerOnHasTheInvariants : Obligations.PowerOnHasTheInvariants :=
  ⟨resetOf_inv (by decide), fun _ => resetOf_inv⟩

end Sys2Proof.Machine

/-! PROOFS. Command words (30_encoding.md R110 to R113, R152; 40_command_protocol.md R166): the decoder answers a command for
that command's word and for no other. -/

namespace Sys2Proof

open Machine

/-! ## The opcode map (R112) -/

theorem encode_statement (i : Instr) : Laws.EncodesInOneByte.Statement i := by
  cases i
  case nop => exact Laws.EncodesInOneByte.nop
  case compress => exact Laws.EncodesInOneByte.compress
  case decompress => exact Laws.EncodesInOneByte.decompress
  case clear => exact Laws.EncodesInOneByte.clear
  case count => exact Laws.EncodesInOneByte.count
  case build => exact Laws.EncodesInOneByte.build
  case derive => exact Laws.EncodesInOneByte.derive
  case serialize => exact Laws.EncodesInOneByte.serialize
  case deserialize => exact Laws.EncodesInOneByte.deserialize
  case pack => exact Laws.EncodesInOneByte.pack
  case unpack => exact Laws.EncodesInOneByte.unpack

theorem decode_encode (i : Instr) : decode (encode i) = .ok i := (encode_statement i).2.2

theorem wellFormedWord_encode (i : Instr) : wellFormedWord (encode i) = true := (encode_statement i).1

theorem opcOf_of_decodeOpc {opc : BitVec 8} {i : Instr} (h : decodeOpc opc = some i) : opc = opcOf i := by
  unfold decodeOpc at h
  repeat'
    split at h
    · rename_i hopc
      rw [hopc, ← Option.some.inj h, opcOf]
  cases h

/-- Every listed OPC is some command's. -/
theorem exists_opcOf {opc : BitVec 8} (h : opc ∈ opcodes) : ∃ i, opcOf i = opc := by
  simp only [opcodes, List.mem_cons, List.not_mem_nil, or_false] at h
  rcases h with rfl | rfl | rfl | rfl | rfl | rfl | rfl | rfl | rfl | rfl | rfl
  exacts [⟨.nop, rfl⟩, ⟨.compress, rfl⟩, ⟨.decompress, rfl⟩, ⟨.clear, rfl⟩, ⟨.count, rfl⟩, ⟨.build, rfl⟩,
    ⟨.derive, rfl⟩, ⟨.serialize, rfl⟩, ⟨.deserialize, rfl⟩, ⟨.pack, rfl⟩, ⟨.unpack, rfl⟩]

/-- A command's word is below 0x04, or from 0x10 to 0x16. -/
theorem encode_toNat (i : Instr) : (encode i).toNat < 0x04 ∨ (0x0F < (encode i).toNat ∧ (encode i).toNat < 0x17) := by
  cases i <;> decide

/-! ## The two fields of a word (R110) -/

theorem eq_encode {w : Word} {i : Instr} (hrsvd : w.extractLsb' 8 24 = 0) (hopc : w.extractLsb' 0 8 = opcOf i) :
    w = encode i := by
  rw [encode, ← hopc]
  have hhigh := congrArg BitVec.toNat hrsvd
  apply BitVec.eq_of_toNat_eq
  simp only [BitVec.extractLsb'_toNat, BitVec.toNat_setWidth, Nat.shiftRight_eq_div_pow, BitVec.ofNat_eq_ofNat,
    BitVec.toNat_ofNat] at hhigh ⊢
  have := w.isLt
  omega

theorem decode_of_rsvd_zero {w : Word} (h : w.extractLsb' 8 24 = 0) :
    (∃ i, decode w = .ok i ∧ w = encode i) ∨ decode w = .error .reservedOpcode := by
  unfold decode
  rw [if_neg (not_not.2 h)]
  cases hopc : decodeOpc (w.extractLsb' 0 8) with
  | some i => exact .inl ⟨i, rfl, eq_encode h (opcOf_of_decodeOpc hopc)⟩
  | none => exact .inr rfl

theorem decode_eq_ok_iff {w : Word} {i : Instr} : decode w = .ok i ↔ w = encode i := by
  refine ⟨fun h => ?_, fun h => h ▸ decode_encode i⟩
  by_cases hrsvd : w.extractLsb' 8 24 = 0
  · rcases decode_of_rsvd_zero hrsvd with ⟨j, hj, hw⟩ | hreject
    · obtain rfl := Except.ok.inj (hj.symm.trans h)
      exact hw
    · cases hreject.symm.trans h
  · cases (decode_of_reserved hrsvd).symm.trans h

theorem decode_of_reserved_opcode {w : Word} (hrsvd : w.extractLsb' 8 24 = 0)
    (hopc : (0x04 ≤ w.toNat ∧ w.toNat ≤ 0x0F) ∨ 0x17 ≤ w.toNat) : decode w = .error .reservedOpcode := by
  refine (decode_of_rsvd_zero hrsvd).resolve_left ?_
  rintro ⟨i, -, rfl⟩
  have := encode_toNat i
  omega

theorem exists_decode_iff {w : Word} : (∃ i, decode w = .ok i) ↔ wellFormedWord w = true := by
  constructor
  · rintro ⟨i, h⟩
    rw [decode_eq_ok_iff.1 h]
    exact wellFormedWord_encode i
  · intro h
    obtain ⟨hrsvd, hmem⟩ := Bool.and_eq_true_iff.1 h
    obtain ⟨i, hopc⟩ := exists_opcOf (List.contains_iff_mem.1 hmem)
    exact ⟨i, decode_eq_ok_iff.2 (eq_encode (eq_of_beq hrsvd) hopc.symm)⟩

/-! ## The statements -/

/-- Settles O1, command by command in `encode_statement`. -/
theorem encodedCommandDecodesBack : Obligations.EncodedCommandDecodesBack :=
  fun i _ => ⟨decode_encode i, wellFormedWord_encode i⟩

/-- Settles O2: the two fields of a word determine it, and the map names each command once. -/
theorem everyWordHasOneMeaning : Obligations.EveryWordHasOneMeaning :=
  fun _ => ⟨fun _ => decode_eq_ok_iff, decode_of_reserved, decode_of_reserved_opcode, exists_decode_iff⟩

/-- Settles O3: eleven words are encodings, one has RSVD set and one a reserved OPC. -/
theorem opcodeMapWordsDecode : Obligations.OpcodeMapWordsDecode :=
  ⟨decode_encode .nop, decode_encode .compress, decode_encode .decompress, decode_encode .clear, decode_encode .count,
    decode_encode .build, decode_encode .derive, decode_encode .serialize, decode_encode .deserialize,
    decode_encode .pack, decode_encode .unpack, decode_of_reserved (by decide),
    decode_of_reserved_opcode (by decide) (by decide)⟩

end Sys2Proof

/-! PROOFS. The sequencer and the total order of turns (10_state.md R30; 20_memory.md R90; 40_command_protocol.md R162, R166;
70_reset_and_hazards.md R340, R341, R360). -/

namespace Sys2Proof.Machine

/-! ## One turn -/

section

variable {s : State} {w : Word} {e : Event} {rest : List Event}

theorem step_of_agenda_nil (h : s.agenda = []) : step s = sequencerTurn s := by
  rw [step, nextTurn, h]

theorem step_of_agenda_cons (h : s.agenda = e :: rest) : step s = turn e { s with agenda := rest } := by
  rw [step, nextTurn, h]

theorem sequencerTurn_of_idle (h : s.seq = .idle) : sequencerTurn s = .next s := by
  rw [sequencerTurn, h]

theorem sequencerTurn_of_busy (h : s.seq = .busy w) : sequencerTurn s = runWord w s := by
  rw [sequencerTurn, h]

/-- While Busy the sequencer's turn is the completion of the word, however the turn comes (R162). -/
theorem step_of_busy (h : s.seq = .busy w) :
    (s.agenda = [] → step s = runWord w s) ∧
      (s.agenda = .sequencer :: rest → step s = runWord w { s with agenda := rest }) := by
  refine ⟨fun hnil => ?_, fun hcons => ?_⟩
  · rw [step_of_agenda_nil hnil, sequencerTurn_of_busy h]
  · rw [step_of_agenda_cons hcons, turn, sequencerTurn_of_busy (s := { s with agenda := rest }) h]

end

/-- Settles O4: the completion of a word that decodes is the decoded command. -/
theorem stepRunsTheDecodedCommand : Obligations.StepRunsTheDecodedCommand := by
  intro s w i rest hbusy hdecode
  rw [← runWord_of_decode hdecode, ← runWord_of_decode hdecode]
  exact step_of_busy hbusy

/-- Settles O5: each turn is its own step, and an Idle sequencer's does nothing. -/
theorem eachTurnIsOneStep : Obligations.EachTurnIsOneStep := by
  refine fun s t rest => ⟨step_of_agenda_cons, step_of_agenda_cons, fun hidle hcons => ?turn, fun hidle hnil => ?weak⟩
  case turn => rw [step_of_agenda_cons hcons, turn, sequencerTurn_of_idle (s := { s with agenda := rest }) hidle]
  case weak => rw [step_of_agenda_nil hnil, sequencerTurn_of_idle hidle]

theorem runWord_of_no_command {w : Word} (h : ∀ i, decode w ≠ .ok i) (s : State) :
    runWord w s = .next (s.failed .illegalCommand 0) := by
  cases hd : decode w with
  | ok i => exact absurd hd (h i)
  | error r => exact runWord_of_reject hd s

/-- Settles O6: the completion of a word that is no command is the error commit of IllegalCommand. -/
theorem illegalWordCompletesWithIllegalCommand : Obligations.IllegalWordCompletesWithIllegalCommand := by
  intro s w rest hbusy hno
  rw [← runWord_of_no_command hno, ← runWord_of_no_command hno]
  exact step_of_busy hbusy

/-! ## Reset (10_state.md R58, 70_reset_and_hazards.md R340) -/

theorem status_resetEvent (s : State) : (resetEvent s).status = 0 := by
  have hbusy := busy_of_idle (resetEvent_seq s)
  simp [State.status, State.err, State.treeValid, State.treeBuilt, hbusy]

theorem emptied_resetEvent (s : State) : (resetEvent s).Emptied :=
  ⟨rfl, rfl, rfl, status_resetEvent s, rfl, rfl, rfl, rfl, rfl, rfl, rfl, rfl, rfl, rfl, rfl, rfl,
    fun b => ⟨freqOf_clearBody s b, lenOf_clearBody s b, entryOf_clearBody s b⟩, rfl, rfl, fun _ => rfl, fun _ => rfl, rfl⟩

/-- Settles O20: the reset event writes every field's reset value, and power-on is a fixed point of it. -/
theorem resetEmptiesTheBlock : Obligations.ResetEmptiesTheBlock := by
  refine ⟨fun s rest hagenda => ?reset, fun c => ⟨emptied_resetEvent (State.resetOf c), rfl, rfl⟩⟩
  exact ⟨_, step_of_agenda_cons hagenda, emptied_resetEvent _, rfl, rfl, rfl⟩

/-! ## A Busy sequencer completes (R360) -/

/-- Every completion ends Idle with DONE set, and leaves the agenda to come (R162). -/
theorem exec_ends {i : Instr} {s t : State} (h : exec i s = .next t) :
    t.seq = .idle ∧ t.done = true ∧ t.agenda = s.agenda := by
  rcases exec_cases h with ⟨u, hu, rfl⟩ | ⟨e, p, -, rfl⟩ | ⟨k, -, rfl⟩
  · obtain ⟨-, -, -, hagenda⟩ := ruleOf_host hu
    exact ⟨rfl, rfl, hagenda⟩
  · cases isOutput i <;> exact ⟨rfl, rfl, rfl⟩
  · exact ⟨rfl, rfl, rfl⟩

theorem runWord_ends (w : Word) (s : State) :
    ∃ t, runWord w s = .next t ∧ t.seq = .idle ∧ t.done = true ∧ t.agenda = s.agenda := by
  cases hd : decode w with
  | ok i =>
    rw [runWord_of_decode hd]
    exact ⟨_, exec_eq_complete i s, exec_ends (exec_eq_complete i s)⟩
  | error r => exact ⟨_, runWord_of_reject hd s, rfl, rfl, rfl⟩

theorem sequencerTurn_ends (s : State) : ∃ t, sequencerTurn s = .next t ∧ t.seq = .idle ∧ t.agenda = s.agenda := by
  cases hseq : s.seq with
  | idle => exact ⟨s, sequencerTurn_of_idle hseq, hseq, rfl⟩
  | busy w =>
    obtain ⟨t, hrun, hidle, -, hagenda⟩ := runWord_ends w s
    exact ⟨t, (sequencerTurn_of_busy hseq).trans hrun, hidle, hagenda⟩

theorem hostStep_agenda (x : Txn) (s : State) : (hostStep x s).agenda = s.agenda := by
  cases x with
  | read addr n =>
    obtain ⟨r, b, k, hread⟩ := hostRead_shape addr n s
    rw [hread]
  | write addr n v =>
    obtain ⟨ie, cmd, sq, dn, ec, ep, be, bw, il, io, fr, ib, hwrite⟩ := hostWrite_shape addr n v s
    rw [hwrite]

theorem turn_agenda (e : Event) (s : State) : ∃ t, turn e s = .next t ∧ t.agenda = s.agenda := by
  cases e with
  | host x => exact ⟨_, rfl, hostStep_agenda x s⟩
  | sequencer =>
    obtain ⟨t, hturn, -, hagenda⟩ := sequencerTurn_ends s
    exact ⟨t, hturn, hagenda⟩
  | reset => exact ⟨_, rfl, rfl⟩

theorem core_run_succ {s t : State} (h : step s = .next t) (k : Nat) :
    Sys2Proof.core.run (k + 1) s = Sys2Proof.core.run k t := run_next Sys2Proof.core h

/-- With the agenda used up the sequencer has the next turn, and ends Idle. -/
theorem run_past_agenda (s : State) :
    ∃ t, Sys2Proof.core.run (s.agenda.length + 1) s = .next t ∧ t.seq = .idle ∧ t.agenda = [] := by
  induction hagenda : s.agenda generalizing s with
  | nil =>
    obtain ⟨t, hturn, hidle, hrest⟩ := sequencerTurn_ends s
    exact ⟨t, core_run_succ ((step_of_agenda_nil hagenda).trans hturn) 0, hidle, hrest.trans hagenda⟩
  | cons e rest ih =>
    obtain ⟨u, hturn, hrest⟩ := turn_agenda e { s with agenda := rest }
    rw [List.length_cons, core_run_succ ((step_of_agenda_cons hagenda).trans hturn)]
    exact ih u hrest

/-- `t` differs from `s` at most in what no command reads: IE, the W1C bits, and the model's own fields (R163). -/
def OutsideCommands (s t : State) : Prop :=
  ∃ ie dn be bw rd dr ag, t =
    { s with ctrlIe := ie, done := dn, berr := be, busywr := bw, rdata := rd, draws := dr, agenda := ag }

theorem OutsideCommands.refl (s : State) : OutsideCommands s s := ⟨_, _, _, _, _, _, _, rfl⟩

theorem OutsideCommands.trans {s t u : State} (hst : OutsideCommands s t) (htu : OutsideCommands t u) :
    OutsideCommands s u := by
  obtain ⟨_, _, _, _, _, _, _, rfl⟩ := hst
  obtain ⟨_, _, _, _, _, _, _, rfl⟩ := htu
  exact ⟨_, _, _, _, _, _, _, rfl⟩

theorem OutsideCommands.eq {s t : State} (h : OutsideCommands s t) :
    t = { s with
          ctrlIe := t.ctrlIe, done := t.done, berr := t.berr, busywr := t.busywr
          rdata := t.rdata, draws := t.draws, agenda := t.agenda } := by
  obtain ⟨_, _, _, _, _, _, _, rfl⟩ := h
  rfl

theorem hostStep_outsideCommands (x : Txn) {s : State} {w : Word} (h : s.seq = .busy w) (rest : List Event) :
    OutsideCommands s (hostStep x { s with agenda := rest }) :=
  ⟨_, _, _, _, _, _, _, hostStep_busy x (s := { s with agenda := rest }) h⟩

/-- Without a reset on the agenda, host transactions alone come before the completion of the word (R341). -/
theorem run_to_completion {s : State} {w : Word} (hbusy : s.seq = .busy w) (hreset : .reset ∉ s.agenda) :
    ∃ k t u, k ≤ s.agenda.length ∧ Sys2Proof.core.run k s = .next t ∧ OutsideCommands s t ∧
      step t = .next u ∧ runWord w { t with agenda := t.agenda.tail } = .next u ∧ u.seq = .idle ∧ u.done = true := by
  induction hagenda : s.agenda generalizing s with
  | nil =>
    obtain ⟨u, hrun, hidle, hdone, -⟩ := runWord_ends w s
    refine ⟨0, s, u, le_refl _, rfl, .refl s, ((step_of_busy (rest := []) hbusy).1 hagenda).trans hrun, ?_, hidle, hdone⟩
    rw [hagenda, List.tail_nil, ← hagenda]
    exact hrun
  | cons e rest ih =>
    rw [hagenda, List.mem_cons, not_or] at hreset
    cases e with
    | reset => exact absurd rfl hreset.1
    | sequencer =>
      obtain ⟨u, hrun, hidle, hdone, -⟩ := runWord_ends w { s with agenda := rest }
      refine ⟨0, s, u, Nat.zero_le _, rfl, .refl s, ((step_of_busy hbusy).2 hagenda).trans hrun, ?_, hidle, hdone⟩
      rwa [hagenda, List.tail_cons]
    | host x =>
      have hkept := hostStep_outsideCommands x hbusy rest
      have hrest := hostStep_agenda x { s with agenda := rest }
      have hseq : (hostStep x { s with agenda := rest }).seq = .busy w := by
        rw [hkept.eq]
        exact hbusy
      obtain ⟨k, t, u, hk, hrun, hsame, hend⟩ := ih hseq (hrest ▸ hreset.2) hrest
      refine ⟨k + 1, t, u, Nat.succ_le_succ hk, ?_, hkept.trans hsame, hend⟩
      rwa [core_run_succ (step_of_agenda_cons hagenda)]

/-- Settles O7, by induction on the agenda. -/
theorem busySequencerCompletes : Obligations.BusySequencerCompletes := by
  refine ⟨run_past_agenda, fun s w hbusy hreset => ?_⟩
  obtain ⟨k, t, u, hk, hrun, hsame, hend⟩ := run_to_completion hbusy hreset
  exact ⟨k, t, u, hk, hrun, hsame.eq, hend⟩

end Sys2Proof.Machine

/-! PROOFS. What a host read returns and what a host write does, region by region, Idle and Busy (20_memory.md R82 to R88;
10_state.md R31 to R49, R54; 70_reset_and_hazards.md R350 to R352). -/

namespace Sys2Proof.Machine

/-! ## Reads of registers -/

section

variable {s : State} {addr : Word} {r : Reg}

theorem hostRead_reg_of_idle (hidle : s.seq = .idle) (ht : target s.caps addr 4 = some (.reg r)) :
    hostStep (.read addr 4) s = { s with rdata := s.readReg r } :=
  hostRead_stored ht (by rw [busy_of_idle hidle, Bool.false_and]) rfl

/-- The registers no command changes before its completion read alike, Idle or Busy (R350). -/
theorem hostRead_reg_of_not_result (ht : target s.caps addr 4 = some (.reg r)) (hr : (Target.reg r).isResult = false) :
    hostStep (.read addr 4) s = { s with rdata := s.readReg r } :=
  hostRead_stored ht (by rw [hr, Bool.and_false]) rfl

theorem ctrl_eq (s : State) : s.ctrl = if s.ctrlIe then 1 else 0 := by
  cases h : s.ctrlIe <;> rw [State.ctrl, h] <;> rfl

theorem hostRead_ctrl (s : State) : hostStep (.read 0x14 4) s = { s with rdata := if s.ctrlIe then 1 else 0 } := by
  rw [← ctrl_eq]
  exact hostRead_reg_of_not_result (r := .ctrl) rfl rfl

end

/-- Settles O11, register by register. -/
theorem registerPageReads : Obligations.RegisterPageReads := fun s hidle =>
  ⟨hostRead_reg_of_idle (r := .id) hidle rfl, hostRead_reg_of_idle (r := .version) hidle rfl,
    hostRead_reg_of_idle (r := .inCap) hidle rfl, hostRead_reg_of_idle (r := .outCap) hidle rfl,
    hostRead_reg_of_idle (r := .hdrCap) hidle rfl, hostRead_ctrl s,
    hostRead_reg_of_idle (r := .cmd) hidle rfl, hostRead_reg_of_idle (r := .status) hidle rfl,
    hostRead_reg_of_idle (r := .errpos) hidle rfl, hostRead_reg_of_idle (r := .inLen) hidle rfl,
    hostRead_reg_of_idle (r := .inOff) hidle rfl, hostRead_reg_of_idle (r := .outLen) hidle rfl,
    hostRead_reg_of_idle (r := .symcount) hidle rfl, hostRead_reg_of_idle (r := .treeLen) hidle rfl,
    hostRead_reg_of_idle (r := .nsym) hidle rfl, hostRead_reg_of_idle (r := .payloadLen) hidle rfl⟩

/-! ## Reads of tables and buffers -/

/-- A written IN byte reads as it is, Idle or Busy (R350). -/
theorem hostRead_in_written {s : State} {i : Nat} {x : Byte} (hcaps : s.CapsLegal) (hi : i < s.caps.inCap)
    (hx : s.inbuf.read i = some x) :
    hostStep (.read (BitVec.ofNat 32 (0x40000000 + i)) 1) s = { s with rdata := x.setWidth 32 } :=
  hostRead_stored (target_in hcaps hi) (Bool.and_false _) (by rw [State.stored, hx]; rfl)

/-- Settles O12: the target of each address, and what it stores. -/
theorem tableAndBufferReads : Obligations.TableAndBufferReads := by
  intro s b k i x hcaps hidle
  have hbusy (t : Target) : (s.busy && t.isResult) = false := by rw [busy_of_idle hidle, Bool.false_and]
  exact ⟨hostRead_stored (target_freq _ b) (hbusy _) rfl, hostRead_stored (target_codeLen _ b) (hbusy _) rfl,
    fun hk => hostRead_stored (target_codeBits _ b hk) (hbusy _) rfl, hostRead_in_written hcaps,
    fun hi hx => hostRead_stored (target_out hcaps hi) (hbusy _) (by rw [State.stored, hx]; rfl)⟩

/-! ## Reads that draw (R54, R350) -/

/-- Two blocks that have taken as many draws take the same one. -/
theorem takeDraw_of_draws_eq {s s' : State} (h : s'.draws = s.draws) (n : Nat) :
    s'.takeDraw n = { s' with rdata := drawn n s.draws, draws := s'.draws + 1 } := by
  rw [State.takeDraw, h]

/-- While Busy, blocks with the same capacities and count of draws read the same draw at result state. -/
theorem hostRead_result_of_busy {s s' : State} {u u' addr : Word} {n : Nat} (hcaps : s.CapsLegal)
    (hbusy : s.seq = .busy u) (hbusy' : s'.seq = .busy u') (hcaps' : s'.caps = s.caps) (hdraws : s'.draws = s.draws)
    (hlegal : LegalAccess s.caps addr n) (hresult : ResultAddr addr) :
    ∃ v, hostStep (.read addr n) s = { s with rdata := v, draws := s.draws + 1 } ∧
      hostStep (.read addr n) s' = { s' with rdata := v, draws := s'.draws + 1 } ∧ (n = 1 → v.toNat < 256) := by
  obtain ⟨t, ht, hr⟩ := target_result hcaps hlegal hresult
  have ht' : target s'.caps addr n = some t := by rw [hcaps', ht]
  refine ⟨drawn n s.draws, hostRead_draws ht (.inl ?_), ?_, fun hn => ?_⟩
  · rw [busy_of_busy hbusy, hr, Bool.and_self]
  · rw [hostRead_draws ht' (.inl (by rw [busy_of_busy hbusy', hr, Bool.and_self])), takeDraw_of_draws_eq hdraws]
  · rw [hn]
    exact drawn_byte_lt _

/-- Settles O16: inputs and written IN bytes are no result state, and result state draws. -/
theorem busyReadsOfResultsAreDraws : Obligations.BusyReadsOfResultsAreDraws :=
  fun s _ _ _ _ _ hcaps hbusy hbusy' hcaps' hdraws =>
    ⟨hostRead_reg_of_not_result (r := .id) rfl rfl, hostRead_reg_of_not_result (r := .version) rfl rfl,
      hostRead_reg_of_not_result (r := .inCap) rfl rfl, hostRead_reg_of_not_result (r := .outCap) rfl rfl,
      hostRead_reg_of_not_result (r := .hdrCap) rfl rfl, hostRead_ctrl s,
      hostRead_reg_of_not_result (r := .cmd) rfl rfl, hostRead_reg_of_not_result (r := .status) rfl rfl,
      hostRead_reg_of_not_result (r := .inLen) rfl rfl, hostRead_reg_of_not_result (r := .inOff) rfl rfl,
      fun _ _ => hostRead_in_written hcaps, hostRead_result_of_busy hcaps hbusy hbusy' hcaps' hdraws⟩

/-- A byte that neither block has written reads as the same byte in both, the next draw. -/
theorem hostRead_unwritten {s s' : State} {addr : Word} {t : Target} (ht : target s.caps addr 1 = some t)
    (hcaps : s'.caps = s.caps) (hdraws : s'.draws = s.draws) (h : s.stored t = none) (h' : s'.stored t = none) :
    ∃ x : Byte,
      hostStep (.read addr 1) s = { s with rdata := x.setWidth 32, draws := s.draws + 1 } ∧
      hostStep (.read addr 1) s' = { s' with rdata := x.setWidth 32, draws := s'.draws + 1 } := by
  have ht' : target s'.caps addr 1 = some t := by rw [hcaps, ht]
  refine ⟨(Config.draw s.draws).setWidth 8, hostRead_draws ht (.inr h), ?_⟩
  rw [hostRead_draws ht' (.inr h'), takeDraw_of_draws_eq hdraws]
  rfl

theorem stored_out_unwritten {s : State} {i : Nat} (h : s.outbuf.read i = none) : s.stored (.outByte i) = none := by
  rw [State.stored, h, Option.map_none]

theorem stored_in_unwritten {s : State} {i : Nat} (h : s.inbuf.read i = none) : s.stored (.inByte i) = none := by
  rw [State.stored, h, Option.map_none]

/-- Settles O17, for OUT and for IN. -/
theorem unwrittenBytesReadAsDraws : Obligations.UnwrittenBytesReadAsDraws :=
  fun _ _ _ hcaps _ _ hcaps' hdraws =>
    ⟨fun hi h h' =>
      hostRead_unwritten (target_out hcaps hi) hcaps' hdraws (stored_out_unwritten h) (stored_out_unwritten h'),
    fun hi h h' =>
      hostRead_unwritten (target_in hcaps hi) hcaps' hdraws (stored_in_unwritten h) (stored_in_unwritten h')⟩

/-! ## Writes -/

/-- Settles O14: both writes ignore the sequencer, and a completion ends in `finish`. -/
theorem ctrlAndStatusWritesTakeEffectAtOnce : Obligations.CtrlAndStatusWritesTakeEffectAtOnce :=
  fun s v => ⟨hostStep_write_ctrl s v, irq_write_ctrl s v, hostStep_write_status s v, fun _ _ => exec_done⟩

theorem hostStep_write_inLen (s : State) (v : Word) : hostStep (.write 0x24 4 v) s = s.inputWrite { s with inLen := v } :=
  hostWrite_of_target (t := .reg .inLen) rfl

theorem hostStep_write_inOff (s : State) (v : Word) : hostStep (.write 0x28 4 v) s = s.inputWrite { s with inOff := v } :=
  hostWrite_of_target (t := .reg .inOff) rfl

theorem hostStep_write_freq (s : State) (b : Byte) (v : Word) :
    hostStep (.write (BitVec.ofNat 32 (0x400 + 4 * b.toNat)) 4 v) s =
      s.inputWrite { s with freq := s.freq.set b.toNat v b.isLt } :=
  hostWrite_of_target (target_freq _ b)

theorem hostStep_write_in {s : State} (hcaps : s.CapsLegal) {i : Nat} (hi : i < s.caps.inCap) (v : Word) :
    hostStep (.write (BitVec.ofNat 32 (0x40000000 + i)) 1 v) s =
      s.inputWrite { s with inbuf := s.inbuf.write i (v.setWidth 8) } :=
  hostWrite_of_target (target_in hcaps hi)

theorem hostStep_write_readOnly {s : State} {addr : Word} (hcaps : s.CapsLegal)
    (h : (0x800 ≤ addr.toNat ∧ addr.toNat < 0x900) ∨ (0x2000 ≤ addr.toNat ∧ addr.toNat < 0x4000) ∨
      (0x80000000 ≤ addr.toNat ∧ addr.toNat < 0x80000000 + s.caps.outCap)) (v : Word) :
    hostStep (.write addr 1 v) s = s := by
  obtain ⟨t, ht, hignore⟩ := target_readOnly hcaps h
  rw [hostWrite_of_target ht, hignore]

theorem freqOf_set_same (f : Vector Word 256) (b : Byte) (v : Word) : freqOf (f.set b.toNat v b.isLt) b = v :=
  Vector.getElem_set_self _

theorem freqOf_set_other (f : Vector Word 256) {b c : Byte} (v : Word) (h : c ≠ b) :
    freqOf (f.set b.toNat v b.isLt) c = freqOf f c :=
  Vector.getElem_set_ne _ _ fun hnat => h (BitVec.eq_of_toNat_eq hnat.symm)

theorem exists_busy {q : Seq} (h : q ≠ .idle) : ∃ w, q = .busy w := by
  cases q with
  | idle => exact absurd rfl h
  | busy w => exact ⟨w, rfl⟩

/-- Settles O15: a read-only target ignores the write, and a command's input takes it while Idle alone. -/
theorem hostWritesByRegion : Obligations.HostWritesByRegion := by
  intro s addr v b i hcaps hi
  refine ⟨fun hro => hostStep_write_readOnlyReg hro s v, fun hro => hostStep_write_readOnly hcaps hro v,
    fun hidle => ?idle, fun hbusy => ?busy⟩
  all_goals rw [hostStep_write_inLen, hostStep_write_inOff, hostStep_write_freq, hostStep_write_in hcaps hi]
  case idle =>
    refine ⟨inputWrite_of_idle hidle _, inputWrite_of_idle hidle _, ⟨_, inputWrite_of_idle hidle _, ?_, fun c hc => ?_⟩,
      ⟨_, inputWrite_of_idle hidle _, Memory.read_write_same _ _ _, fun j hj => Memory.read_write_other _ _ hj⟩⟩
    · exact freqOf_set_same _ b v
    · exact freqOf_set_other _ v hc
  case busy =>
    obtain ⟨w, hw⟩ := exists_busy hbusy
    exact ⟨inputWrite_of_busy hw _, inputWrite_of_busy hw _, inputWrite_of_busy hw _, inputWrite_of_busy hw _⟩

end Sys2Proof.Machine

/-! PROOFS. What holds of every command (40_command_protocol.md R162 to R166; 60_exceptions.md R310, R317, R318): the checks
that come first, the frames, the error commit, and that CTRL, BERR and BUSYWR are no part of a command. -/

namespace Sys2Proof.Machine

/-! ## The checks that come first (41_frequency_model.md R180, 60_exceptions.md R317) -/

section

variable {α : Type} {s : State}

theorem checked_of_bound {f : Unit → Except Stop α} (h : s.inLen.toNat ≤ s.caps.inCap) :
    (checkInLen s >>= f) = f () := by
  rw [checkInLen_ok h, ok_bind]

theorem checked_over {f : Unit → Except Stop α} (h : s.caps.inCap < s.inLen.toNat) :
    (checkInLen s >>= f) = raise .resourceLimit 0 := by
  rw [checkInLen_raise h, raise_bind]

/-- What a checked rule answers, its body answers. -/
theorem checked_ok {f : Unit → Except Stop α} {a : α} (h : (checkInLen s >>= f) = .ok a) : f () = .ok a := by
  obtain ⟨_, -, hf⟩ := bind_eq_ok.1 h
  exact hf

end

/-- Settles O27: each of the six rules begins with the check. -/
theorem inputBoundIsCheckedFirst : Obligations.InputBoundIsCheckedFirst := fun _ hover =>
  ⟨exec_of_raise (i := .count) (checked_over hover), exec_of_raise (i := .deserialize) (checked_over hover),
    exec_of_raise (i := .pack) (checked_over hover), exec_of_raise (i := .unpack) (checked_over hover),
    exec_of_raise (i := .compress) (checked_over hover), exec_of_raise (i := .decompress) (checked_over hover)⟩

theorem exec_unpack_no_tree {s : State} (htree : s.tree = none) (hcap : s.inLen.toNat ≤ s.caps.inCap) :
    exec .unpack s = .next (s.failedOut .sequenceError 0) := by
  apply exec_of_raise
  rw [ruleOf, checked_of_bound hcap, unpackBody, htree]

theorem exec_pack_no_codes {s : State} (hvalid : s.codesValid = false) (hcap : s.inLen.toNat ≤ s.caps.inCap) :
    exec .pack s = .next (s.failedOut .sequenceError 0) := by
  apply exec_of_raise
  rw [ruleOf, checked_of_bound hcap, packBody, ensure_neg (by rw [hvalid]; exact Bool.false_ne_true), raise_bind]

/-- Settles O28: the prerequisite of each of the four. -/
theorem missingPrerequisiteIsSequenceError : Obligations.MissingPrerequisiteIsSequenceError :=
  fun _ => ⟨exec_derive_not_built, exec_serialize_no_tree, exec_unpack_no_tree, exec_pack_no_codes⟩

/-! ## The frames of the commands that store nothing in OUT (30_encoding.md R112) -/

section

variable {s t : State}

theorem exec_count_frame (h : exec .count s = .next t) :
    t = { s with
          seq := t.seq, done := t.done, errcode := t.errcode, errpos := t.errpos, fault := t.fault
          freq := t.freq, nsym := t.nsym } := by
  rcases exec_cases h with ⟨u, hu, rfl⟩ | ⟨e, p, -, rfl⟩ | ⟨k, -, rfl⟩
  · obtain ⟨bytes, -, -, rfl⟩ := countBody_ok.1 (checked_ok hu)
    rfl
  · rfl
  · rfl

/-- BUILD reads no byte of IN, so it sets no fault mark. -/
theorem exec_build_frame (h : exec .build s = .next t) :
    t = { s with
          seq := t.seq, done := t.done, errcode := t.errcode, errpos := t.errpos
          tree := t.tree, treeLen := t.treeLen, nsym := t.nsym
          codeLen := t.codeLen, codeBits := t.codeBits, codesValid := t.codesValid } := by
  by_cases hsymbol : ∃ b, freqOf s.freq b ≠ 0
  · obtain ⟨n, -, hbuild⟩ := exec_build_of_symbol hsymbol
    obtain rfl := Host.Outcome.next.inj (hbuild.symm.trans h)
    rfl
  · simp only [not_exists, not_not] at hsymbol
    obtain rfl := Host.Outcome.next.inj ((exec_build_empty hsymbol).symm.trans h)
    rfl

theorem exec_derive_frame (h : exec .derive s = .next t) :
    t = { s with
          seq := t.seq, done := t.done, errcode := t.errcode, errpos := t.errpos
          codeLen := t.codeLen, codeBits := t.codeBits, codesValid := t.codesValid } := by
  by_cases hbuilt : ∃ n, s.tree = some (.built, n)
  · obtain ⟨n, hn⟩ := hbuilt
    obtain rfl := Host.Outcome.next.inj ((exec_derive_of_built hn).symm.trans h)
    rfl
  · obtain rfl := Host.Outcome.next.inj ((exec_derive_not_built (not_exists.1 hbuilt)).symm.trans h)
    rfl

theorem exec_deserialize_frame (h : exec .deserialize s = .next t) :
    t = { s with
          seq := t.seq, done := t.done, errcode := t.errcode, errpos := t.errpos, fault := t.fault
          tree := t.tree, treeLen := t.treeLen, nsym := t.nsym, inOff := t.inOff
          codeLen := t.codeLen, codeBits := t.codeBits, codesValid := t.codesValid } := by
  rcases exec_cases h with ⟨u, hu, rfl⟩ | ⟨e, p, -, rfl⟩ | ⟨k, -, rfl⟩
  · obtain ⟨n, -, -, -, -, rfl⟩ := deserializeBody_ok (checked_ok hu)
    rfl
  · rfl
  · rfl

end

/-- Settles O22, command by command. -/
theorem registerCommandsFrame : Obligations.RegisterCommandsFrame := by
  refine fun s t => ⟨fun h => ?nop, fun h => ?clear, exec_count_frame, exec_build_frame, exec_derive_frame,
    exec_deserialize_frame⟩
  case nop =>
    obtain rfl := Host.Outcome.next.inj ((exec_nop s).symm.trans h)
    rfl
  case clear =>
    obtain rfl := Host.Outcome.next.inj ((exec_clear s).symm.trans h)
    rfl

/-! ## The frames of the output commands -/

section

variable {s t : State}

/-- No command writes OUT at or above the OUT_LEN it leaves. -/
theorem exec_out_above {i : Instr} (hcaps : s.CapsLegal) (h : exec i s = .next t) {k : Nat} (hk : t.outLen.toNat ≤ k) :
    t.outbuf.read k = s.outbuf.read k := by
  obtain ⟨-, ⟨-, hlegal⟩, -⟩ := hcaps
  rcases exec_cases h with ⟨u, hu, rfl⟩ | ⟨e, p, -, rfl⟩ | ⟨j, -, rfl⟩
  · obtain ⟨-, ⟨hout, -⟩ | ⟨base, bs, -, hout, hfits, hlen⟩⟩ := ruleOf_out hu
    · rw [completed_outbuf, hout]
    · rw [completed_outLen, hlen, BitVec.toNat_ofNat, Nat.mod_eq_of_lt (by omega)] at hk
      rw [completed_outbuf, hout, Memory.read_writeBytes_outside _ (.inr hk)]
  · split <;> rfl
  · rfl

/-- SERIALIZE reads no byte of IN, so it sets no fault mark. -/
theorem exec_serialize_frame (h : exec .serialize s = .next t) :
    t = { s with
          seq := t.seq, done := t.done, errcode := t.errcode, errpos := t.errpos
          outbuf := t.outbuf, outLen := t.outLen } := by
  cases htree : s.tree with
  | none =>
    obtain rfl := Host.Outcome.next.inj ((exec_serialize_no_tree htree).symm.trans h)
    rw [← htree]
    rfl
  | some x =>
    rw [← htree]
    rcases le_or_gt x.2.ser.length s.caps.outCap with hfits | hlong
    · obtain rfl := Host.Outcome.next.inj ((exec_serialize_of_fits htree hfits).symm.trans h)
      rfl
    · obtain rfl := Host.Outcome.next.inj ((exec_serialize_too_long htree hlong).symm.trans h)
      rfl

theorem exec_pack_frame (h : exec .pack s = .next t) :
    t = { s with
          seq := t.seq, done := t.done, errcode := t.errcode, errpos := t.errpos, fault := t.fault
          outbuf := t.outbuf, outLen := t.outLen, symcount := t.symcount, payloadLen := t.payloadLen } := by
  rcases exec_cases h with ⟨u, hu, rfl⟩ | ⟨e, p, -, rfl⟩ | ⟨k, -, rfl⟩
  · obtain ⟨-, -, bits, -, -, rfl⟩ := packBody_ok (checked_ok hu)
    rfl
  · rfl
  · rfl

/-- PACK writes nothing below the OUT_LEN it found. -/
theorem exec_pack_below (h : exec .pack s = .next t) {k : Nat} (hk : k < s.outLen.toNat) :
    t.outbuf.read k = s.outbuf.read k := by
  rcases exec_cases h with ⟨u, hu, rfl⟩ | ⟨e, p, -, rfl⟩ | ⟨j, -, rfl⟩
  · obtain ⟨-, -, bits, -, -, rfl⟩ := packBody_ok (checked_ok hu)
    exact Memory.read_writeBytes_outside _ (.inl hk)
  · rfl
  · rfl

theorem exec_unpack_frame (h : exec .unpack s = .next t) :
    t = { s with
          seq := t.seq, done := t.done, errcode := t.errcode, errpos := t.errpos, fault := t.fault
          outbuf := t.outbuf, outLen := t.outLen, symcount := t.symcount, payloadLen := t.payloadLen
          inOff := t.inOff } := by
  rcases exec_cases h with ⟨u, hu, rfl⟩ | ⟨e, p, -, rfl⟩ | ⟨k, -, rfl⟩
  · obtain ⟨-, -, -, -, -, -, -, -, -, -, rfl⟩ := unpackBody_ok (checked_ok hu)
    rfl
  · rfl
  · rfl

theorem exec_compress_frame (h : exec .compress s = .next t) :
    t = { s with
          seq := t.seq, done := t.done, errcode := t.errcode, errpos := t.errpos, fault := t.fault
          freq := t.freq, nsym := t.nsym, tree := t.tree, treeLen := t.treeLen
          codeLen := t.codeLen, codeBits := t.codeBits, codesValid := t.codesValid
          outbuf := t.outbuf, outLen := t.outLen, symcount := t.symcount, payloadLen := t.payloadLen } := by
  rcases exec_cases h with ⟨u, hu, rfl⟩ | ⟨e, p, -, rfl⟩ | ⟨k, -, rfl⟩
  · obtain ⟨-, -, -, -, -, -, rfl⟩ := compressRule_answer hu
    rfl
  · rfl
  · rfl

theorem exec_decompress_frame (h : exec .decompress s = .next t) :
    t = { s with
          seq := t.seq, done := t.done, errcode := t.errcode, errpos := t.errpos, fault := t.fault
          inOff := t.inOff, nsym := t.nsym, tree := t.tree, treeLen := t.treeLen
          codeLen := t.codeLen, codeBits := t.codeBits, codesValid := t.codesValid
          outbuf := t.outbuf, outLen := t.outLen, symcount := t.symcount, payloadLen := t.payloadLen } := by
  rcases exec_cases h with ⟨u, hu, rfl⟩ | ⟨e, p, -, rfl⟩ | ⟨k, -, rfl⟩
  · obtain ⟨-, -, -, -, -, -, -, -, -, -, -, -, rfl⟩ := decompressRule_answer hu
    rfl
  · rfl
  · rfl

end

/-- Settles O23: the fields command by command, and the bytes above OUT_LEN for all five at once. -/
theorem outputCommandsFrame : Obligations.OutputCommandsFrame := by
  intro s t hcaps
  exact ⟨fun h => ⟨exec_serialize_frame h, fun _ => exec_out_above hcaps h⟩,
    fun h => ⟨exec_pack_frame h, fun _ hk => hk.elim (exec_pack_below h) (exec_out_above hcaps h)⟩,
    fun h => ⟨exec_unpack_frame h, fun _ => exec_out_above hcaps h⟩,
    fun h => ⟨exec_compress_frame h, fun _ => exec_out_above hcaps h⟩,
    fun h => ⟨exec_decompress_frame h, fun _ => exec_out_above hcaps h⟩⟩

/-! ## The error commit (R165) -/

/-- The error commit in one record update: OUT_LEN is cleared for the five output commands. -/
theorem failed_eq (i : Instr) (s : State) (e : ErrKind) (p : Nat) :
    (if isOutput i then s.failedOut e p else s.failed e p) =
      { s with
        seq := .idle, done := true, errcode := e.code, errpos := BitVec.ofNat 32 p
        outLen := if i ∈ [.compress, .decompress, .serialize, .pack, .unpack] then 0 else s.outLen } := by
  cases i <;> rfl

/-- Settles O24: of the three ways a command ends, only the error commit leaves ERRCODE not 0. -/
theorem errorsChangeOnlyTheErrorFields : Obligations.ErrorsChangeOnlyTheErrorFields := by
  intro i s t hzero h herr
  rcases exec_cases h with ⟨u, -, rfl⟩ | ⟨e, p, -, rfl⟩ | ⟨k, -, rfl⟩
  · exact absurd rfl herr
  · exact ⟨e, p, failed_eq i s e p⟩
  · exact absurd hzero herr

/-! ## CTRL, BERR and BUSYWR (R163), and the completion fields -/

/-- The fields no command's rule reads or writes: the sequencer, CTRL, and STATUS's stored bits with ERRPOS. -/
structure Control where
  seq     : Seq
  ctrlIe  : Bool
  done    : Bool
  errcode : BitVec 4
  berr    : Bool
  busywr  : Bool
  errpos  : Word

def State.control (s : State) : Control := ⟨s.seq, s.ctrlIe, s.done, s.errcode, s.berr, s.busywr, s.errpos⟩

def State.withControl (s : State) (c : Control) : State :=
  { s with
    seq := c.seq, ctrlIe := c.ctrlIe, done := c.done, errcode := c.errcode, berr := c.berr, busywr := c.busywr
    errpos := c.errpos }

/-- The rule answers the same whatever the control fields hold, and passes them on. -/
def IgnoresControl (r : State → Except Stop State) : Prop :=
  ∀ s c, r (s.withControl c) = (r s).map (·.withControl c)

theorem IgnoresControl.ok {f : State → State}
    (h : ∀ s c, f (s.withControl c) = (f s).withControl c) :
    IgnoresControl fun s => .ok (f s) := fun s c => congrArg Except.ok (h s c)

theorem IgnoresControl.bind {r q : State → Except Stop State} (hr : IgnoresControl r) (hq : IgnoresControl q) :
    IgnoresControl fun s => r s >>= q := by
  intro s c
  beta_reduce
  rw [hr]
  cases r s with
  | error e => rfl
  | ok u => exact hq u c

/-- A first part that reads no control field and hands on no state. -/
theorem IgnoresControl.bind_of_eq {α : Type} {x : State → Except Stop α} {q : α → State → Except Stop State}
    (hx : ∀ s c, x (s.withControl c) = x s) (hq : ∀ a, IgnoresControl (q a)) :
    IgnoresControl fun s => x s >>= fun a => q a s := by
  intro s c
  beta_reduce
  rw [hx]
  cases x s with
  | error e => rfl
  | ok a => exact hq a s c

theorem sameInput_withControl (s : State) (c : Control) : SameInput s (s.withControl c) :=
  ⟨rfl, rfl, fun _ _ => rfl⟩

theorem countBody_ignoresControl : IgnoresControl countBody :=
  .bind_of_eq (x := fun s => inBytes s 0 s.inLen.toNat)
    (fun s c => inBytes_congr (sameInput_withControl s c) (Nat.zero_add _).le)
    fun _ => .ok fun _ _ => rfl

theorem buildBody_ignoresControl : IgnoresControl buildBody := by
  intro s c
  have hfreq : (s.withControl c).freq = s.freq := rfl
  unfold buildBody
  rw [hfreq]
  cases symbolsOf s.freq <;> rfl

theorem deriveBody_ignoresControl : IgnoresControl deriveBody := by
  intro s c
  have htree : (s.withControl c).tree = s.tree := rfl
  unfold deriveBody
  rw [htree]
  rcases s.tree with _ | ⟨_ | _, t⟩ <;> rfl

theorem serializeBody_ignoresControl : IgnoresControl serializeBody := by
  intro s c
  have htree : (s.withControl c).tree = s.tree := rfl
  unfold serializeBody
  rw [htree]
  rcases s.tree with _ | ⟨o, t⟩
  · rfl
  · exact IgnoresControl.bind_of_eq (x := fun s => ensure (t.ser.length ≤ s.caps.outCap) .resourceLimit 0)
      (q := fun _ s => .ok { s.writeOut 0 t.ser with outLen := BitVec.ofNat 32 t.ser.length })
      (fun _ _ => rfl) (fun _ => .ok fun _ _ => rfl) s c

theorem deserializeBody_ignoresControl : IgnoresControl deserializeBody :=
  .bind_of_eq (x := fun s => parseTree s s.inOff.toNat)
    (fun s c => parseTree_congr (sameInput_withControl s c) _) fun _ => .ok fun _ _ => rfl

theorem packBody_ignoresControl : IgnoresControl packBody :=
  .bind_of_eq (fun _ _ => rfl) fun _ => .bind_of_eq (fun _ _ => rfl) fun _ =>
    .bind_of_eq (x := fun s => packBits s s.outLen.toNat s.inLen.toNat 0 0)
      (fun s c => packBits_congr (sameInput_withControl s c) rfl rfl (Nat.zero_add _).le)
      fun _ => .ok fun _ _ => rfl

theorem unpackBody_ignoresControl : IgnoresControl unpackBody := by
  intro s c
  have htree : (s.withControl c).tree = s.tree := rfl
  cases hs : s.tree with
  | none => simp only [unpackBody, htree, hs]; rfl
  | some x =>
    obtain ⟨o, t⟩ := x
    rw [unpackBody_eq (htree.trans hs), unpackBody_eq hs]
    exact IgnoresControl.bind_of_eq (x := fun s => readStream s t s.inOff.toNat)
      (q := fun x s => .ok { s.writeOut 0 x.2.1 with
        outLen := BitVec.ofNat 32 x.2.1.length
        symcount := x.1
        payloadLen := BitVec.ofNat 32 (ceil8 x.2.2)
        inOff := BitVec.ofNat 32 (s.inOff.toNat + 4 + ceil8 x.2.2) })
      (fun s c => readStream_congr (sameInput_withControl s c) _ _) (fun _ => .ok fun _ _ => rfl)
      s c

/-- The input bound reads IN_LEN and IN_CAP alone. -/
theorem IgnoresControl.checked {r : State → Except Stop State} (h : IgnoresControl r) :
    IgnoresControl fun s => checkInLen s >>= fun _ => r s :=
  .bind_of_eq (fun _ _ => rfl) fun _ => h

/-- A first update of other fields. -/
theorem IgnoresControl.comp {r : State → Except Stop State} (h : IgnoresControl r) {f : State → State}
    (hf : ∀ s c, f (s.withControl c) = (f s).withControl c) : IgnoresControl fun s => r (f s) := by
  intro s c
  beta_reduce
  rw [hf]
  exact h (f s) c

theorem compressRule_ignoresControl : IgnoresControl compressRule :=
  IgnoresControl.checked (.bind_of_eq (fun _ _ => rfl) fun _ =>
    countBody_ignoresControl.bind (buildBody_ignoresControl.bind (deriveBody_ignoresControl.bind
      ((serializeBody_ignoresControl.comp fun _ _ => rfl).bind packBody_ignoresControl))))

theorem decompressRule_ignoresControl : IgnoresControl decompressRule :=
  IgnoresControl.checked
    ((deserializeBody_ignoresControl.comp fun _ _ => rfl).bind unpackBody_ignoresControl)

theorem ruleOf_ignoresControl (i : Instr) : IgnoresControl (ruleOf i) := by
  cases i with
  | nop => exact .ok fun _ _ => rfl
  | clear => exact .ok fun _ _ => rfl
  | count => exact countBody_ignoresControl.checked
  | build => exact buildBody_ignoresControl
  | derive => exact deriveBody_ignoresControl
  | serialize => exact serializeBody_ignoresControl
  | deserialize => exact deserializeBody_ignoresControl.checked
  | pack => exact packBody_ignoresControl.checked
  | unpack => exact unpackBody_ignoresControl.checked
  | compress => exact compressRule_ignoresControl
  | decompress => exact decompressRule_ignoresControl

/-- A rule's answer still holds the control fields it was given. -/
theorem ruleOf_keeps_control {i : Instr} {s u : State} (h : ruleOf i s = .ok u) : u.withControl s.control = u := by
  have hrule := ruleOf_ignoresControl i s s.control
  rw [h] at hrule
  exact (Except.ok.inj (h.symm.trans hrule)).symm

/-- The completion writes the sequencer and the completion fields itself, and passes CTRL, BERR and BUSYWR on. -/
theorem complete_withControl (out : Bool) (s : State) (r : Except Stop State) (ie be bw : Bool) :
    complete out { s with ctrlIe := ie, berr := be, busywr := bw }
      (r.map (·.withControl { s.control with ctrlIe := ie, berr := be, busywr := bw })) =
      { complete out s r with ctrlIe := ie, berr := be, busywr := bw } := by
  rcases r with (⟨e, p⟩ | f) | u <;> rfl

/-- Settles O26: the rule and its completion both pass the three fields on unread. -/
theorem execReadsNoHostControl : Obligations.ExecReadsNoHostControl := by
  intro i s t ie be bw h
  rw [exec_eq_complete] at h
  rw [← Host.Outcome.next.inj h, ← complete_withControl, ← ruleOf_ignoresControl]
  exact exec_eq_complete i _

end Sys2Proof.Machine

/-! PROOFS. The properties of the derived codes (43_code_table.md R212). -/

namespace Sys2Proof.Machine

section

variable {t : Node} (h : t.builtShape)
include h

/-- The symbols a walk of a Built tree meets are its leaves' symbols, in preorder. -/
theorem Node.builtShape.codes_keys : (t.codes []).map (fun c => [c.1]) = t.leaves := by
  rcases h with ⟨b, rfl⟩ | ⟨hplain, -, -⟩
  · rfl
  · exact Node.codes_keys hplain []

theorem Node.builtShape.length_codes : (t.codes []).length = t.leaves.length := by
  rw [← h.codes_keys, List.length_map]

theorem Node.builtShape.mem_keys_iff_leaf {b : Byte} : b ∈ (t.codes []).map Prod.fst ↔ [b] ∈ t.leaves := by
  rw [← h.codes_keys]
  simp

theorem Node.builtShape.follow_of_mem_codes {c : Byte × List Bool} (hc : c ∈ t.codes []) :
    t.follow c.2 = some (.leaf [c.1]) := by
  obtain ⟨r, rest, hr, hf⟩ := Node.mem_codes.1 hc
  obtain ⟨b, hb⟩ := h.leaf_byte hf
  obtain ⟨hfirst, hrest⟩ := List.cons.inj hb
  rw [hr, List.nil_append, hf, hfirst, hrest]

theorem Node.builtShape.mem_keys_iff_path {b : Byte} :
    b ∈ (t.codes []).map Prod.fst ↔ ∃ p, t.follow p = some (.leaf [b]) := by
  constructor
  · intro hb
    obtain ⟨c, hc, rfl⟩ := List.mem_map.1 hb
    exact ⟨c.2, h.follow_of_mem_codes hc⟩
  · rintro ⟨p, hp⟩
    exact List.mem_map.2 ⟨(b, p), Node.mem_codes.2 ⟨p, [], rfl, hp⟩, rfl⟩

/-- Kraft's sum in units of `2 ^ -256`: 1 without Sentinel, and 1/2 for the wrapper (R212). -/
theorem Node.builtShape.kraft :
    ((t.codes []).map fun c => 2 ^ (256 - c.2.length)).sum = if t.plain = true then 2 ^ 256 else 2 ^ 255 := by
  rcases h with ⟨b, rfl⟩ | ⟨hplain, -, hnodup⟩
  · simp [Node.codes, Node.plain]
  · rw [if_pos hplain]
    refine Node.kraft hplain [] fun q m hq => ?_
    have := Node.depth_lt_leaves hplain hq
    have := Node.leaves_le hplain hnodup
    rw [List.length_nil]
    omega

end

section

variable {u : State} {t : Node} (h : t.builtShape) (hl : u.codeLen = lenTable (t.codes []))
  (hb : u.codeBits = entryTable (t.codes []))
include h hl hb

/-- The code table has an entry exactly for the symbols the walk met. -/
theorem Node.builtShape.lenOf_ne_zero_iff {b : Byte} : u.lenOf b ≠ 0 ↔ b ∈ (t.codes []).map Prod.fst := by
  rw [h.mem_keys_iff_path]
  constructor
  · intro hne
    by_contra hno
    exact hne (h.table_of_no_path hl hb (not_exists.1 hno)).1
  · rintro ⟨p, hp⟩
    rw [(h.table_of_path hl hb hp).1]
    exact Nat.one_le_iff_ne_zero.1 (h.path_length hp).1

theorem Node.builtShape.coded_perm : (allBytes.filter fun b => u.lenOf b ≠ 0).Perm ((t.codes []).map Prod.fst) := by
  rw [List.perm_ext_iff_of_nodup (nodup_allBytes.filter _) h.keys_nodup]
  intro b
  rw [List.mem_filter, decide_eq_true_iff, h.lenOf_ne_zero_iff hl hb]
  exact and_iff_right (mem_allBytes b)

theorem Node.builtShape.codeOf_path {b : Byte} (hne : u.lenOf b ≠ 0) : t.follow (u.codeOf b) = some (.leaf [b]) := by
  obtain ⟨p, hp⟩ := h.mem_keys_iff_path.1 ((h.lenOf_ne_zero_iff hl hb).1 hne)
  obtain ⟨-, hcode, -⟩ := h.table_of_path hl hb hp
  rw [hcode, hp]

/-- Two codes of which one begins the other lead to one leaf. -/
theorem Node.builtShape.eq_of_code_begins {b c : Byte} (hne : u.lenOf b ≠ 0) (hne' : u.lenOf c ≠ 0)
    (hbegins : u.codeOf b <+: u.codeOf c) : b = c := by
  have hpath := h.codeOf_path hl hb hne
  have hpath' := h.codeOf_path hl hb hne'
  rw [Node.leaf_paths_prefix_free hpath hpath' hbegins, hpath'] at hpath
  simpa [eq_comm] using hpath

theorem Node.builtShape.kraft_table :
    ((allBytes.filter fun b => u.lenOf b ≠ 0).map fun b => 2 ^ (256 - u.lenOf b)).sum =
      if t.plain = true then 2 ^ 256 else 2 ^ 255 := by
  have hlen : ∀ c ∈ t.codes [], 2 ^ (256 - u.lenOf c.1) = 2 ^ (256 - c.2.length) := fun c hc => by
    rw [(h.table_of_path hl hb (h.follow_of_mem_codes hc)).1]
  rw [((h.coded_perm hl hb).map _).sum_eq, List.map_map, ← h.kraft]
  exact congrArg List.sum (List.map_congr_left hlen)

end

/-- Settles O36: the coded symbols are the keys of the walk's codes, and the codes are the leaves' paths. -/
theorem derivedCodesArePrefixFreeAndComplete : Obligations.DerivedCodesArePrefixFreeAndComplete := by
  intro s u t htree h hexec
  obtain rfl := Host.Outcome.next.inj ((exec_derive_of_built htree).symm.trans hexec)
  refine ⟨fun b => ?coded, ?count, fun b c hbc hne hne' hbegins => ?prefixFree, h.kraft_table rfl rfl⟩
  case coded => rw [h.lenOf_ne_zero_iff rfl rfl, h.mem_keys_iff_leaf]
  case count => rw [(h.coded_perm rfl rfl).length_eq, List.length_map, h.length_codes]
  case prefixFree => exact hbc (h.eq_of_code_begins rfl rfl hne hne' hbegins)

end Sys2Proof.Machine

/-! PROOFS. Where the reading of a header and of a stream stops, and with what (44_tree_codec.md R230 to R234;
46_bitstream_decoder.md R271 to R278; 60_exceptions.md R318): for DESERIALIZE, UNPACK and DECOMPRESS. -/

namespace Sys2Proof.Machine

/-! ## From the reading to the command -/

section

variable {s : State} {x : Stop} {t : Node}

theorem ruleOf_deserialize_stops (hcap : s.inLen.toNat ≤ s.caps.inCap) (h : parseTree s s.inOff.toNat = .error x) :
    ruleOf .deserialize s = .error x := by
  rw [ruleOf, checked_of_bound hcap, deserializeBody_parse h]

theorem ruleOf_unpack_stops {o : Origin} (hcap : s.inLen.toNat ≤ s.caps.inCap) (htree : s.tree = some (o, t))
    (h : readStream s t s.inOff.toNat = .error x) : ruleOf .unpack s = .error x := by
  rw [ruleOf, checked_of_bound hcap, unpackBody_stops htree h]

theorem packBody_stops (hvalid : s.codesValid = true) (hfits : s.outLen.toNat + 4 ≤ s.caps.outCap)
    (h : packBits s s.outLen.toNat s.inLen.toNat 0 0 = .error x) : packBody s = .error x := by
  simp only [packBody]
  rw [ensure_pos hvalid, ok_bind, ensure_pos hfits, ok_bind, h, error_bind]

theorem ruleOf_pack_stops (hcap : s.inLen.toNat ≤ s.caps.inCap) (hvalid : s.codesValid = true)
    (hfits : s.outLen.toNat + 4 ≤ s.caps.outCap) (h : packBits s s.outLen.toNat s.inLen.toNat 0 0 = .error x) :
    ruleOf .pack s = .error x := by
  rw [ruleOf, checked_of_bound hcap, packBody_stops hvalid hfits h]

theorem State.AtHeaderByte.le {base k : Nat} (h : s.AtHeaderByte base k) : base ≤ k := by
  obtain ⟨-, bs, -, -, -, -, -, -, rfl⟩ := h
  exact Nat.le_add_right base bs.length

end

/-! ## DESERIALIZE accepts nothing but a serialized node (R230) -/

/-- Settles O40: a success parsed what `parseNode_ok` says, and neither length wraps within the legal capacities. -/
theorem deserializeAcceptsOnlySerializedTrees : Obligations.DeserializeAcceptsOnlySerializedTrees := by
  intro s u hcaps h hzero hnone
  obtain ⟨-, -, ⟨-, hhdr⟩⟩ := hcaps
  rcases exec_cases h with ⟨v, hv, rfl⟩ | ⟨e, p, -, rfl⟩ | ⟨k, -, rfl⟩
  · obtain ⟨t, wf, hholds, hin, hcap, rfl⟩ := deserializeBody_ok (checked_ok hv)
    have hlt := s.inLen.isLt
    refine ⟨t, rfl, wf, hholds, ?_, ?_, ?treeLen, ?inOff⟩ <;> rw [length_ser]
    · exact hin
    · exact hcap
    case treeLen => exact Nat.mod_eq_of_lt (by omega)
    case inOff => exact Nat.mod_eq_of_lt (by omega)
  · exact absurd hzero e.code_ne_zero
  · cases hnone

/-! ## Headers that end too early, or go on too long (R230, R234) -/

theorem parseTree_exhausted {s : State} {base k : Nat} (h : s.AtHeaderByte base k) (hk : s.inLen.toNat ≤ k) :
    parseTree s base = raise .malformedTree k :=
  parseTree_stops h (hdrByte_exhausted hk)

theorem parseTree_over {s : State} {base k : Nat} (h : s.AtHeaderByte base k) (hk : k < s.inLen.toNat)
    (hcap : k = base + s.caps.hdrCap) : parseTree s base = raise .resourceLimit k :=
  parseTree_stops h (hdrByte_over hk (by omega))

theorem parseTree_unwritten {s : State} {base k : Nat} (h : s.AtHeaderByte base k) (hk : k < s.inLen.toNat)
    (hcap : k < base + s.caps.hdrCap) (hread : s.inbuf.read k = none) :
    parseTree s base = .error (.fault (.uninitRead k)) := by
  have hle := h.le
  exact parseTree_stops h (hdrByte_unwritten hk (by omega) hread)

/-- An error of the parse at IN_OFF is DESERIALIZE's. -/
theorem exec_deserialize_of_parse_raise {s : State} {e : ErrKind} {p : Nat} (hcap : s.inLen.toNat ≤ s.caps.inCap)
    (h : parseTree s s.inOff.toNat = raise e p) : exec .deserialize s = .next (s.failed e p) :=
  exec_of_raise (i := .deserialize) (ruleOf_deserialize_stops hcap h)

/-- An error of the parse at 0 is DECOMPRESS's (47_entry_points.md R297). -/
theorem exec_decompress_of_parse_raise {s : State} {e : ErrKind} {p : Nat} (hcap : s.inLen.toNat ≤ s.caps.inCap)
    (h : parseTree s 0 = raise e p) : exec .decompress s = .next (s.failedOut e p) :=
  exec_of_raise (i := .decompress) (decompressRule_parse hcap h)

/-- Settles O41: both commands stop where the parse does, DECOMPRESS's from 0. -/
theorem headerCutShortOrTooLong : Obligations.HeaderCutShortOrTooLong := by
  refine fun s k hcap => ⟨fun h => ?deserialize, fun h => ?decompress⟩
  case deserialize =>
    exact ⟨fun hk => exec_deserialize_of_parse_raise hcap (parseTree_exhausted h hk),
      fun hk hover => exec_deserialize_of_parse_raise hcap (parseTree_over h hk hover)⟩
  case decompress =>
    exact ⟨fun hk => exec_decompress_of_parse_raise hcap (parseTree_exhausted h hk),
      fun hk hover => exec_decompress_of_parse_raise hcap (parseTree_over h hk (by omega))⟩

/-! ## Unknown tags (R231) -/

theorem parseTree_badTag {s : State} {t : Node} {base k : Nat} {bad : Byte} (wf : t.wellFormed = true)
    (hk : k ∈ t.tagOffsets) (h0 : bad ≠ 0x00) (h1 : bad ≠ 0x01) (hcap : k < s.caps.hdrCap)
    (hholds : HoldsAt s.inbuf base (t.ser.take k ++ [bad])) (hin : base + k < s.inLen.toNat) :
    parseTree s base = raise .malformedTree (base + k) :=
  parseNode_badTag h0 h1 wf hk (le_refl _) hholds hin (by omega) _ (by omega)

/-- Settles O42: both commands stop where the parse does, DECOMPRESS's from 0. -/
theorem badTagIsMalformedTree : Obligations.BadTagIsMalformedTree := by
  refine fun s t k bad hcap wf hk h0 h1 hhdr => ⟨fun hholds hin => ?deserialize,
    fun hholds hin => ?decompress⟩
  case deserialize => exact exec_deserialize_of_parse_raise hcap (parseTree_badTag wf hk h0 h1 hhdr hholds hin)
  case decompress =>
    have hparse := parseTree_badTag wf hk h0 h1 hhdr hholds (by omega)
    rw [Nat.zero_add] at hparse
    exact exec_decompress_of_parse_raise hcap hparse

/-! ## Streams that end too early, meet a bad node or fill OUT (R271 to R278) -/

theorem readStream_exhausted {s : State} {t : Node} {q k : Nat} (h : s.AtStreamByte t q k) (hk : s.inLen.toNat ≤ k) :
    readStream s t q = raise .truncatedStream k :=
  readStream_stops h (countByte_exhausted hk)

theorem readStream_unwritten {s : State} {t : Node} {q k : Nat} (h : s.AtStreamByte t q k) (hk : k < s.inLen.toNat)
    (hread : s.inbuf.read k = none) : readStream s t q = .error (.fault (.uninitRead k)) :=
  readStream_stops h (countByte_unwritten hk hread)

/-- An error of the stream at IN_OFF is UNPACK's. -/
theorem exec_unpack_of_stream_raise {s : State} {o : Origin} {t : Node} {e : ErrKind} {p : Nat}
    (hcap : s.inLen.toNat ≤ s.caps.inCap) (htree : s.tree = some (o, t))
    (h : readStream s t s.inOff.toNat = raise e p) : exec .unpack s = .next (s.failedOut e p) :=
  exec_of_raise (i := .unpack) (ruleOf_unpack_stops hcap htree h)

/-- An error of the stream behind the header is DECOMPRESS's (47_entry_points.md R297). -/
theorem exec_decompress_of_stream_raise {s : State} {t : Node} {e : ErrKind} {p : Nat}
    (hcap : s.inLen.toNat ≤ s.caps.inCap) (hheader : s.HasHeader t) (h : readStream s t t.ser.length = raise e p) :
    exec .decompress s = .next (s.failedOut e p) :=
  exec_of_raise (i := .decompress) (decompressRule_stops hcap hheader h)

/-- Settles O47: an artifact cut behind its header needs, for its next byte, the one at the cut. -/
theorem unpackTruncated : Obligations.UnpackTruncated := by
  intro s t hcaps hcap
  refine ⟨fun k hk => ⟨fun o htree h => ?unpack, fun hheader h => ?decompress⟩, fun bytes htree hout hholds hin hcut => ?cut⟩
  case unpack => exact exec_unpack_of_stream_raise hcap htree (readStream_exhausted h hk)
  case decompress => exact exec_decompress_of_stream_raise hcap hheader (readStream_exhausted h hk)
  case cut =>
    obtain ⟨-, ⟨-, hlegal⟩, ⟨hhdr, -⟩⟩ := hcaps
    rw [length_ser] at hin
    obtain ⟨hheader, h⟩ := artifact_cut htree (by omega) hout hhdr hholds hin hcut
    exact exec_decompress_of_stream_raise hcap hheader (readStream_exhausted h (le_refl _))

/-- Settles O48: the bit that selects no node, and the symbol that does not fit. -/
theorem unpackStopsAtBadNodeOrFullOutput : Obligations.UnpackStopsAtBadNodeOrFullOutput := by
  refine fun s t q paths syms hcap => ⟨fun part bit m hcur hm h => ?badNode, fun p sym hp hf hover h => ?full⟩
  case badNode =>
    have hread := readStream_badNode h hcur hm
    refine ⟨fun o htree hq => ?_, fun hheader hq => ?_⟩ <;> subst hq
    · exact exec_unpack_of_stream_raise hcap htree hread
    · exact exec_decompress_of_stream_raise hcap hheader hread
  case full =>
    have hread := readStream_full h hp hf hover
    refine ⟨fun o htree hq => ?_, fun hheader hq => ?_⟩ <;> subst hq
    · exact exec_unpack_of_stream_raise hcap htree hread
    · exact exec_decompress_of_stream_raise hcap hheader hread

/-! ## Bytes that were never written (R318) -/

theorem countBody_unwritten {s : State} {bytes : List Byte} (hholds : HoldsAt s.inbuf 0 bytes)
    (hlt : bytes.length < s.inLen.toNat) (hread : s.inbuf.read bytes.length = none) :
    countBody s = .error (.fault (.uninitRead bytes.length)) := by
  have hstop := inBytes_unwritten hholds hlt (by rwa [Nat.zero_add])
  rw [countBody, hstop, error_bind, Nat.zero_add]

/-- COMPRESS stops in its COUNT. -/
theorem exec_compress_unwritten {s : State} {bytes : List Byte} (hcap : s.inLen.toNat ≤ s.caps.inCap)
    (hholds : HoldsAt s.inbuf 0 bytes) (hlt : bytes.length < s.inLen.toNat)
    (hread : s.inbuf.read bytes.length = none) : exec .compress s = .next (s.faulted bytes.length) := by
  have hne : s.inLen ≠ 0 := fun hzero => by rw [hzero] at hlt; exact Nat.not_lt_zero _ hlt
  apply exec_of_fault
  rw [ruleOf, compressRule, checked_of_bound hcap, ensure_pos hne, ok_bind, countBody_unwritten hholds hlt hread,
    error_bind]

theorem exec_pack_unwritten {s : State} {bytes : List Byte} (hcap : s.inLen.toNat ≤ s.caps.inCap)
    (hvalid : s.codesValid = true) (hholds : HoldsAt s.inbuf 0 bytes) (hlt : bytes.length < s.inLen.toNat)
    (hread : s.inbuf.read bytes.length = none) (hcoded : ∀ b ∈ bytes, s.lenOf b ≠ 0)
    (hfits : s.outLen.toNat + 4 + ceil8 (bytes.flatMap s.codeOf).length ≤ s.caps.outCap) :
    exec .pack s = .next (s.faulted bytes.length) := by
  have hstop := packBits_unwritten (o := s.outLen.toNat) (len := 0) hholds hcoded (by rwa [Nat.zero_add])
    (by rwa [Nat.zero_add]) hlt
  rw [Nat.zero_add] at hstop
  exact exec_of_fault (ruleOf_pack_stops hcap hvalid (by omega) hstop)

/-- Only the fault mark's completion changes the mark. -/
theorem exec_fault_changed {i : Instr} {s t : State} (h : exec i s = .next t) (hne : t.fault ≠ s.fault) :
    ∃ k, t = s.faulted k ∧ k < s.inLen.toNat ∧ s.inbuf.read k = none := by
  rcases exec_cases h with ⟨u, hu, rfl⟩ | ⟨e, p, -, rfl⟩ | ⟨k, hk, rfl⟩
  · exact absurd (ruleOf_fault_eq hu) hne
  · split at hne <;> exact absurd rfl hne
  · exact ⟨k, rfl, ruleOf_fault hk⟩

/-- Settles O25: `ruleOf_fault` for the one direction, and where each reading of IN stops for the other. -/
theorem uninitFaultOnlyFromUnwrittenInput : Obligations.UninitFaultOnlyFromUnwrittenInput := by
  refine ⟨fun i s t => exec_fault_changed, fun s k hcap hk hread => ⟨?input, fun h hlt => ?deserialize,
    fun h hlt => ?header, fun o t htree h => ?unpack, fun t hheader h => ?stream⟩⟩
  case input =>
    rintro bytes rfl hholds
    exact ⟨exec_count_unwritten hcap hholds hk hread, exec_compress_unwritten hcap hholds hk hread,
      fun hvalid => exec_pack_unwritten hcap hvalid hholds hk hread⟩
  case deserialize => exact exec_of_fault (ruleOf_deserialize_stops hcap (parseTree_unwritten h hk hlt hread))
  case header =>
    exact exec_of_fault (i := .decompress) (decompressRule_parse hcap (parseTree_unwritten h hk (by omega) hread))
  case unpack => exact exec_of_fault (ruleOf_unpack_stops hcap htree (readStream_unwritten h hk hread))
  case stream =>
    exact exec_of_fault (i := .decompress) (decompressRule_stops hcap hheader (readStream_unwritten h hk hread))

end Sys2Proof.Machine

/-! PROOFS. PACK, UNPACK and DECOMPRESS (45_bitstream_writer.md R250, R251; 46_bitstream_decoder.md R270 to R277;
47_entry_points.md R295, R296): their successes in full, and PACK's own errors. -/

namespace Sys2Proof.Machine

/-! ## PACK (R250, R251) -/

/-- Settles O43: `packBody_codes` says what is written, and the stretch is the count field and the packed codes. -/
theorem packCompletes : Obligations.PackCompletes := by
  intro s bytes _ hinput hvalid hcoded hfits
  have hrule : ruleOf .pack s = _ := (checked_of_bound hinput.bound).trans (packBody_codes hinput hvalid hcoded hfits)
  refine ⟨_, exec_of_ok hrule, rfl, Memory.writeBytes_holds _ _ _, fun i hi => ?kept⟩
  refine s.outbuf.read_writeBytes_outside ?_
  rw [List.length_append, length_be32, length_packed]
  omega

theorem exec_pack_no_count_room {s : State} (hvalid : s.codesValid = true) (hcap : s.inLen.toNat ≤ s.caps.inCap)
    (hover : s.caps.outCap < s.outLen.toNat + 4) : exec .pack s = .next (s.failedOut .resourceLimit 0) := by
  apply exec_of_raise
  rw [ruleOf, checked_of_bound hcap]
  simp only [packBody]
  rw [ensure_pos hvalid, ok_bind, ensure_neg (Nat.not_le.2 hover), raise_bind]

/-- Settles O44: no room for the count field, or where the loop of R250 stops. -/
theorem packErrors : Obligations.PackErrors := by
  refine fun s bytes x hvalid hcap => ⟨exec_pack_no_count_room hvalid hcap, fun hholds hlt hcoded hx hfits => ?uncoded,
    fun hholds hle hcoded hover => ?outgrown⟩
  case uncoded =>
    have hstop := packBits_uncoded (o := s.outLen.toNat) (len := 0) hholds hcoded hx (by rwa [Nat.zero_add]) hlt
    rw [Nat.zero_add] at hstop
    exact exec_of_raise (i := .pack) (ruleOf_pack_stops hcap hvalid (by omega) hstop)
  case outgrown =>
    rcases le_or_gt (s.outLen.toNat + 4) s.caps.outCap with hroom | hnoroom
    · have hstop := packBits_over (o := s.outLen.toNat) (len := 0) hholds hcoded hroom (by rwa [Nat.zero_add]) hle
      exact exec_of_raise (i := .pack) (ruleOf_pack_stops hcap hvalid hroom hstop)
    · exact exec_pack_no_count_room hvalid hcap hnoroom

/-! ## UNPACK (R270) -/

/-- Settles O46: `unpackBody_spells` says what is written. -/
theorem unpackCompletes : Obligations.UnpackCompletes := by
  intro s o t n paths syms _ hcap htree hcount hn hspells hbits hin hout
  have hrule : ruleOf .unpack s = _ :=
    (checked_of_bound hcap).trans (unpackBody_spells htree hcount hn hspells hbits hin hout)
  refine ⟨_, exec_of_ok hrule, rfl, Memory.writeBytes_holds _ _ _, fun i hi => ?kept⟩
  exact s.outbuf.read_writeBytes_outside (.inr (by rwa [Nat.zero_add]))

/-! ## DECOMPRESS of a header and a stream (R295, R296) -/

/-- Settles O52: the header and the stream are what the rule reads, and the working copy makes these writes alone. -/
theorem decompressCompletes : Obligations.DecompressCompletes := by
  intro s t n paths syms _ hcap wf hhdr hholds hn hspells hbits hin hout
  rw [HoldsAt.append, Nat.zero_add] at hholds
  obtain ⟨hser, hcount⟩ := hholds
  have hheader : s.HasHeader t := ⟨wf, hhdr, hser, by omega⟩
  have hrule := decompressRule_spells hcap hheader hcount hn hspells hbits hin hout
  refine ⟨_, exec_of_ok (i := .decompress) hrule, rfl, Memory.writeBytes_holds _ _ _, fun i hi => ?kept⟩
  case kept => exact s.outbuf.read_writeBytes_outside (.inr (by rwa [Nat.zero_add]))

end Sys2Proof.Machine

/-! PROOFS. The entry points (47_entry_points.md R290 to R299): COMPRESS in full, its errors, its five sub-commands, and that
both entry points depend on the input alone. -/

namespace Sys2Proof.Machine

/-! ## COMPRESS (R290 to R292) -/

/-- The working copy of a COMPRESS of `bytes` whose frequencies have the tree `t` (R292). -/
def State.compressed (s : State) (bytes : List Byte) (t : Node) : State :=
  { s with
    freq := countTable bytes
    nsym := BitVec.ofNat 32 (symbolsOf (countTable bytes)).length
    tree := some (.built, t)
    treeLen := BitVec.ofNat 32 t.hlen
    codesValid := true
    codeLen := lenTable (t.codes [])
    codeBits := entryTable (t.codes [])
    outbuf := s.outbuf.writeBytes 0 (artifactOf t bytes)
    outLen := BitVec.ofNat 32 (artifactOf t bytes).length
    symcount := s.inLen
    payloadLen := BitVec.ofNat 32 (ceil8 (bytes.flatMap (codeFor (t.codes []))).length) }

section

variable {s : State} {bytes : List Byte} {t : Node}

theorem exec_compress_of_fits (hinput : s.HasInput bytes) (hne : bytes ≠ []) (htree : TreeOf (countTable bytes) t)
    (hfits : (artifactOf t bytes).length ≤ s.caps.outCap) :
    exec .compress s = .next (s.compressed bytes t).completed :=
  exec_of_ok (i := .compress) ((compressRule_eq hinput hne htree).trans (if_pos hfits))

theorem exec_compress_too_long (hinput : s.HasInput bytes) (hne : bytes ≠ []) (htree : TreeOf (countTable bytes) t)
    (hlong : s.caps.outCap < (artifactOf t bytes).length) :
    exec .compress s = .next (s.failedOut .resourceLimit 0) :=
  exec_of_raise (i := .compress) ((compressRule_eq hinput hne htree).trans (if_neg (Nat.not_le.2 hlong)))

theorem exec_compress_empty (hzero : s.inLen = 0) : exec .compress s = .next (s.failedOut .emptyInput 0) := by
  apply exec_of_raise
  have hcap : s.inLen.toNat ≤ s.caps.inCap := by
    rw [hzero]
    exact Nat.zero_le _
  rw [ruleOf, compressRule, checked_of_bound hcap, ensure_neg (not_not.2 hzero), raise_bind]

/-- Settles O50: the input bound holds of an empty input, and PACK's or SERIALIZE's bound stops an artifact too long. -/
theorem compressErrors : Obligations.CompressErrors :=
  fun _ _ _ => ⟨exec_compress_empty, fun hinput hne _ htree hlong => exec_compress_too_long hinput hne htree hlong⟩

/-! ## The codes COMPRESS leaves -/

/-- Only the bytes of the input are on leaves of its tree. -/
theorem TreeOf.mem_of_path (htree : TreeOf (countTable bytes) t) (hlt : bytes.length < 2 ^ 32) {b : Byte}
    {p : List Bool} (hp : t.follow p = some (.leaf [b])) : b ∈ bytes := by
  have hleaf := htree.builtShape.mem_keys_iff_leaf.1 (htree.builtShape.mem_keys_iff_path.2 ⟨p, hp⟩)
  obtain ⟨c, hc, hcb⟩ := List.mem_map.1 (htree.leaves_perm.mem_iff.1 hleaf)
  rw [← List.singleton_inj.1 hcb]
  exact (freqOf_countTable_ne_zero bytes hlt c).1 (mem_symbolsOf.1 hc)

/-- The payload is as long as its codes, each as often as its symbol occurs (R292). -/
theorem length_payload (htree : TreeOf (countTable bytes) t) (hlt : bytes.length < 2 ^ 32) {u : State}
    (hfreq : u.freq = countTable bytes) (hl : u.codeLen = lenTable (t.codes []))
    (hb : u.codeBits = entryTable (t.codes [])) :
    (allBytes.map fun b => (freqOf u.freq b).toNat * u.lenOf b).sum =
      (bytes.flatMap (codeFor (t.codes []))).length := by
  have hlen : u.lenOf = fun b => (codeFor (t.codes []) b).length :=
    funext fun b => (codeOf_of_table hl hb (htree.builtShape.codeFor_length b)).1
  simp only [hfreq, freqOf_countTable_toNat bytes hlt, hlen]
  rw [sum_count_mul, List.length_flatMap]

end

/-- Settles O49: `compressRule_eq` says what is written, and no length wraps within the legal capacities. -/
theorem compressCompletes : Obligations.CompressCompletes := by
  intro s bytes t hcaps hinput hne htree hfits
  have hlt := hinput.length_lt hcaps
  have hshape := htree.builtShape
  obtain ⟨-, ⟨-, hlegal⟩, -⟩ := hcaps
  have hlen := length_artifactOf t bytes
  have htreeLen := htree.ofNat_hlen_toNat
  have houtLen : (BitVec.ofNat 32 (artifactOf t bytes).length).toNat = (artifactOf t bytes).length :=
    Nat.mod_eq_of_lt (by omega)
  have hpayload : (BitVec.ofNat 32 (ceil8 (bytes.flatMap (codeFor (t.codes []))).length)).toNat =
      ceil8 (bytes.flatMap (codeFor (t.codes []))).length := Nat.mod_eq_of_lt (by omega)
  rw [← length_ser] at htreeLen
  refine ⟨_, exec_compress_of_fits hinput hne htree hfits, rfl, freqOf_countTable_toNat bytes hlt, ?nsym, ?treeLen,
    fun b p hp => ?coded, fun b hb => ?uncoded, Memory.writeBytes_holds _ _ _, houtLen, ?outLen, ?payload,
    fun i hi => ?kept⟩
  case nsym => exact (setFreq_nsym_toNat s _).trans (length_symbolsOf_countTable bytes hlt)
  case treeLen => rwa [length_ser] at htreeLen ⊢
  case coded =>
    obtain ⟨hl, hc, -⟩ := hshape.table_of_path (s := (s.compressed bytes t).completed) rfl rfl hp
    exact ⟨hc, hl⟩
  case uncoded => exact hshape.table_of_no_path rfl rfl fun p hp => hb (htree.mem_of_path hlt hp)
  case outLen =>
    simp only [completed_outLen, completed_treeLen, completed_payloadLen, State.compressed]
    rw [houtLen, hpayload, hlen, ← length_ser, htreeLen]
  case payload => rw [length_payload htree hlt rfl rfl rfl]; exact hpayload
  case kept => exact s.outbuf.read_writeBytes_outside (.inr (by rwa [Nat.zero_add]))

/-! ## COMPRESS is five commands in order (R254, R290) -/

section

variable {s u : State}

/-- A rule answers the same after a completion as before it. -/
theorem ruleOf_completed {i : Instr} (h : ruleOf i s = .ok u) : ruleOf i s.completed = .ok u.completed := by
  have hrule := ruleOf_ignoresControl i s s.completed.control
  have hkeeps := ruleOf_keeps_control h
  rw [h] at hrule
  rw [← hkeeps]
  exact hrule

/-- After a completion a command ends as its rule answers before it. -/
theorem exec_of_completed {i : Instr} (h : ruleOf i s = .ok u) : exec i s.completed = .next u.completed := by
  have hexec := exec_of_ok (ruleOf_completed h)
  exact hexec

/-- SERIALIZE writes OUT_LEN without reading it. -/
theorem serializeBody_of_outLen {v : Word} (h : serializeBody { s with outLen := v } = .ok u) :
    serializeBody s = .ok u :=
  serializeBody_ok.2 (serializeBody_ok.1 h)

theorem exec_inLen {i : Instr} (h : exec i s = .next u) : u.inLen = s.inLen := by
  cases i with
  | nop => rw [← Host.Outcome.next.inj ((exec_nop s).symm.trans h), completed_inLen]
  | clear => rw [← Host.Outcome.next.inj ((exec_clear s).symm.trans h), completed_inLen, clearBody_inLen]
  | count => rw [exec_count_frame h]
  | build => rw [exec_build_frame h]
  | derive => rw [exec_derive_frame h]
  | serialize => rw [exec_serialize_frame h]
  | deserialize => rw [exec_deserialize_frame h]
  | pack => rw [exec_pack_frame h]
  | unpack => rw [exec_unpack_frame h]
  | compress => rw [exec_compress_frame h]
  | decompress => rw [exec_decompress_frame h]

theorem exec_caps {i : Instr} (h : exec i s = .next u) : u.caps = s.caps :=
  ((keptByParts_caps_fault s.caps False).exec ⟨rfl, False.elim⟩ h).1

/-- An input within IN_CAP stays within it from command to command. -/
theorem bound_of_exec {i : Instr} (h : exec i s = .next u) (hcap : s.inLen.toNat ≤ s.caps.inCap) :
    u.inLen.toNat ≤ u.caps.inCap := by
  rwa [exec_inLen h, exec_caps h]

end

/-- Settles O51: the five rules a successful COMPRESS ran, each after the completion of the one before. -/
theorem compressIsTheFiveCommandsInOrder : Obligations.CompressIsTheFiveCommandsInOrder := by
  intro s c bytes _ hinput _ hexec herr
  obtain ⟨v, hrule, rfl⟩ := ruleOf_ok_of_errcode_eq_zero hinput hexec herr
  obtain ⟨hcap, -, s1, s2, s3, s4, h1, h2, h3, h4, h5⟩ := compressRule_ok hrule
  have hcount := exec_of_ok (i := .count) ((checked_of_bound hcap).trans h1)
  have hbuild := exec_of_completed (i := .build) h2
  have hderive := exec_of_completed (i := .derive) h3
  have hserialize := exec_of_completed (i := .serialize) (serializeBody_of_outLen h4)
  have hcap4 := bound_of_exec hserialize (bound_of_exec hderive (bound_of_exec hbuild (bound_of_exec hcount hcap)))
  exact ⟨_, _, _, _, hcount, hbuild, hderive, hserialize,
    exec_of_completed (i := .pack) ((checked_of_bound (s := s4) hcap4).trans h5)⟩

/-! ## Both entry points depend on the input alone (R299) -/

/-- Two ends of a command that agree in the error fields and OUT_LEN and, on success, in what `R` compares. -/
def EndAlike (R : State → State → Prop) (u u' : State) : Prop :=
  u.errcode = u'.errcode ∧ u.errpos = u'.errpos ∧ u.outLen = u'.outLen ∧ (u.errcode = 0 → R u u')

theorem EndAlike.failedOut (R : State → State → Prop) (s s' : State) (e : ErrKind) (p : Nat) :
    EndAlike R (s.failedOut e p) (s'.failedOut e p) :=
  ⟨rfl, rfl, rfl, fun h => absurd h e.code_ne_zero⟩

/-- Two states have the same bytes of OUT below the first one's OUT_LEN. -/
def SameOutput (u u' : State) : Prop := ∀ i, i < u.outLen.toNat → u.outbuf.read i = u'.outbuf.read i

theorem SameOutput.of_writeBytes {m m' : Memory} {u u' : State} {bs : List Byte} (h : u.outbuf = m.writeBytes 0 bs)
    (h' : u'.outbuf = m'.writeBytes 0 bs) (hlen : u.outLen = BitVec.ofNat 32 bs.length) : SameOutput u u' := by
  intro i hi
  have hlt : i < bs.length := by
    rw [hlen, BitVec.toNat_ofNat] at hi
    exact lt_of_lt_of_le hi (Nat.mod_le _ _)
  rw [h, h', Memory.read_writeBytes, Memory.read_writeBytes, if_pos (by omega), if_pos (by omega)]

/-- What R299 compares after a COMPRESS. -/
def SameCompressed (u u' : State) : Prop :=
  u.freq = u'.freq ∧ u.nsym = u'.nsym ∧ u.tree = u'.tree ∧ u.treeLen = u'.treeLen ∧
    u.codesValid = u'.codesValid ∧ u.codeLen = u'.codeLen ∧ u.codeBits = u'.codeBits ∧
    u.symcount = u'.symcount ∧ u.payloadLen = u'.payloadLen ∧ SameOutput u u'

/-- What R299 compares after a DECOMPRESS. -/
def SameDecompressed (u u' : State) : Prop :=
  u.inOff = u'.inOff ∧ u.nsym = u'.nsym ∧ u.tree = u'.tree ∧ u.treeLen = u'.treeLen ∧
    u.codesValid = u'.codesValid ∧ u.codeLen = u'.codeLen ∧ u.codeBits = u'.codeBits ∧
    u.symcount = u'.symcount ∧ u.payloadLen = u'.payloadLen ∧ SameOutput u u'

section

variable {s s' u u' : State} {bytes : List Byte}

/-- A non-empty input's frequencies have a tree. -/
theorem exists_treeOf (hlt : bytes.length < 2 ^ 32) (hne : bytes ≠ []) : ∃ t, TreeOf (countTable bytes) t := by
  obtain ⟨b, hb⟩ := List.exists_mem_of_ne_nil bytes hne
  have hsymbol := (freqOf_countTable_ne_zero bytes hlt b).2 hb
  obtain ⟨t, htree, -⟩ := buildBody_some (s := State.reset.setFreq (countTable bytes)) ⟨b, hsymbol⟩
  exact ⟨t, htree⟩

theorem exec_compress_alike (hcaps : s'.caps = s.caps) (hinput : s.HasInput bytes) (hinput' : s'.HasInput bytes)
    (hexec : exec .compress s = .next u) (hexec' : exec .compress s' = .next u') : EndAlike SameCompressed u u' := by
  have hinLen : s.inLen = s'.inLen := (hinput.same hinput' hcaps).inLen.symm
  have hlt : bytes.length < 2 ^ 32 := hinput.1 ▸ s.inLen.isLt
  by_cases hne : bytes = []
  · have hzero : s.inLen = 0 := BitVec.eq_of_toNat_eq (by rw [hinput.1, hne]; rfl)
    obtain rfl := Host.Outcome.next.inj ((exec_compress_empty hzero).symm.trans hexec)
    obtain rfl := Host.Outcome.next.inj ((exec_compress_empty (hinLen.symm.trans hzero)).symm.trans hexec')
    exact .failedOut _ _ _ _ _
  · obtain ⟨t, htree⟩ := exists_treeOf hlt hne
    rcases le_or_gt (artifactOf t bytes).length s.caps.outCap with hfits | hlong
    · obtain rfl := Host.Outcome.next.inj ((exec_compress_of_fits hinput hne htree hfits).symm.trans hexec)
      obtain rfl := Host.Outcome.next.inj
        ((exec_compress_of_fits hinput' hne htree (hcaps ▸ hfits)).symm.trans hexec')
      exact ⟨rfl, rfl, rfl, fun _ => ⟨rfl, rfl, rfl, rfl, rfl, rfl, rfl, hinLen, rfl, .of_writeBytes rfl rfl rfl⟩⟩
    · obtain rfl := Host.Outcome.next.inj ((exec_compress_too_long hinput hne htree hlong).symm.trans hexec)
      obtain rfl := Host.Outcome.next.inj
        ((exec_compress_too_long hinput' hne htree (hcaps ▸ hlong)).symm.trans hexec')
      exact .failedOut _ _ _ _ _

/-- What DECOMPRESS reads of IN: the tree and its end, the count, the decoded bytes and the number of payload bits. -/
def readArtifact (s : State) : Except Stop (Node × Nat × Word × List Byte × Nat) := do
  checkInLen s
  let (t, p) ← parseTree s 0
  let n ← readCount s p
  let (out, b) ← walkTree s t n.toNat (p + 4)
  .ok (t, p, n, out, b)

/-- DECOMPRESS's working copy, from what it read (R296). -/
def State.decompressed (s : State) : Node × Nat × Word × List Byte × Nat → State
  | (t, p, n, out, b) =>
    { s.clearCodes with
      tree := some (.loaded, t)
      treeLen := BitVec.ofNat 32 p
      nsym := BitVec.ofNat 32 t.leafCount
      outbuf := s.outbuf.writeBytes 0 out
      outLen := BitVec.ofNat 32 out.length
      symcount := n
      payloadLen := BitVec.ofNat 32 (ceil8 b)
      inOff := BitVec.ofNat 32 (p + 4 + ceil8 b) }

theorem decompressRule_eq_map (s : State) : decompressRule s = (readArtifact s).map s.decompressed := by
  rw [decompressRule_eq, readArtifact]
  rcases checkInLen s with _ | _
  · rfl
  rcases parseTree s 0 with _ | ⟨t, p⟩
  · rfl
  simp only [ok_bind]
  rcases readCount s p with _ | n
  · rfl
  simp only [ok_bind]
  rcases walkTree s t n.toNat (p + 4) with _ | ⟨out, b⟩ <;> rfl

theorem checkInLen_congr (h : SameInput s s') : checkInLen s' = checkInLen s := by
  rw [checkInLen, checkInLen, h.inLen, h.caps]

theorem readArtifact_congr (h : SameInput s s') : readArtifact s' = readArtifact s := by
  simp only [readArtifact, checkInLen_congr h, parseTree_congr h, readCount_congr h, walkTree_congr h]

theorem decompressed_alike (s s' : State) (d : Node × Nat × Word × List Byte × Nat) :
    EndAlike SameDecompressed (s.decompressed d).completed (s'.decompressed d).completed :=
  ⟨rfl, rfl, rfl, fun _ => ⟨rfl, rfl, rfl, rfl, rfl, rfl, rfl, rfl, rfl, .of_writeBytes rfl rfl rfl⟩⟩

theorem exec_decompress_alike (hcaps : s'.caps = s.caps) (hinput : s.HasInput bytes) (hinput' : s'.HasInput bytes)
    (hexec : exec .decompress s = .next u) (hexec' : exec .decompress s' = .next u') :
    EndAlike SameDecompressed u u' := by
  have hrule : ruleOf .decompress s = (readArtifact s).map s.decompressed := decompressRule_eq_map s
  have hrule' : ruleOf .decompress s' = (readArtifact s).map s'.decompressed := by
    rw [← readArtifact_congr (hinput.same hinput' hcaps)]
    exact decompressRule_eq_map s'
  rcases hread : readArtifact s with (⟨e, p⟩ | ⟨⟨k⟩⟩) | d <;> rw [hread] at hrule hrule'
  · obtain rfl := Host.Outcome.next.inj ((exec_of_raise hrule).symm.trans hexec)
    obtain rfl := Host.Outcome.next.inj ((exec_of_raise hrule').symm.trans hexec')
    exact .failedOut _ _ _ _ _
  · obtain ⟨hk, hnone⟩ := ruleOf_fault hrule
    exact absurd hnone (hinput.read_ne_none hk)
  · obtain rfl := Host.Outcome.next.inj ((exec_of_ok hrule).symm.trans hexec)
    obtain rfl := Host.Outcome.next.inj ((exec_of_ok hrule').symm.trans hexec')
    exact decompressed_alike s s' d

end

/-- Settles O54: COMPRESS by the artifact of the input, DECOMPRESS by what it reads of IN. -/
theorem entryPointsDependOnTheInputAlone : Obligations.EntryPointsDependOnTheInputAlone :=
  fun _ _ _ _ _ hcaps hinput hinput' =>
    ⟨exec_compress_alike hcaps hinput hinput', exec_decompress_alike hcaps hinput hinput'⟩

end Sys2Proof.Machine
